-- ==== Sys2Proof/Word.lean ====
section
/-! DEFINITION. The word types of the block: 64-bit registers and lanes, bytes of system memory (00_scope.md R9, R11). -/

namespace Sys2Proof

/-- A register, a lane, an address or a length: 64 bits (00_scope.md R9, R11). -/
abbrev Word := BitVec 64

/-- One byte of system memory (00_scope.md R14). -/
abbrev Byte := BitVec 8

end Sys2Proof
end

