-- ==== Sys2Proof/Syntax.lean ====
section
/-! DEFINITION. The instructions of the block: one constructor for each row of spec/opcode_table.json, the ten
commands of 30_encoding.md R102 and the register accesses of R107; and the bus transaction that carries one. -/

namespace Sys2Proof

/-- The direction of a bus access (30_encoding.md R107). -/
inductive Dir where
  | read
  | write
  deriving DecidableEq, Repr

/-- The opcodes of 30_encoding.md R102; also the values of the sequencer field OP (10_state.md R50). -/
inductive Op where
  | nop
  | clear
  | permute
  | round
  | hash
  | theta
  | rho
  | pi
  | chi
  | iota
  deriving DecidableEq, Repr

/-- One host bus transaction to the window (30_encoding.md R107): its direction, its width in bits, its offset from
KECCAK_BASE and, for a write, its data. A read's `value` is not looked at. -/
structure Access where
  dir    : Dir
  width  : Nat
  offset : BitVec 12
  value  : Word
  deriving DecidableEq, Repr

/-- The instructions. A command is the CMD write of its word (30_encoding.md R100, R102); `round` and `iota` carry
the round index r, a lane access its lane number i, a reserved access its offset divided by 8, a write its data. -/
inductive Instr where
  | nop
  | clear
  | permute
  | hash
  | theta
  | rho
  | pi
  | chi
  | round (r : Nat)
  | iota (r : Nat)
  | wrLane (i : Nat) (v : Word)
  | rdLane (i : Nat)
  | rdId
  | wrId (v : Word)
  | rdCtrl
  | wrCtrl (v : Word)
  | rdStatus
  | wrStatus (v : Word)
  | rdCmd
  | wrCmd (w : Word)
  | wrSrc (v : Word)
  | rdSrc
  | wrLen (v : Word)
  | rdLen
  | wrDst (v : Word)
  | rdDst
  | rdBlocks
  | wrBlocks (v : Word)
  | rdFaultAddr
  | wrFaultAddr (v : Word)
  | rdWrReserved (d : Dir) (slot : Nat) (v : Word)
  deriving DecidableEq, Repr

end Sys2Proof
end

