-- ==== Sys2Proof/WellFormed.lean ====
section
/-! DEFINITION. Which instruction terms stand for an encoding: the operand ranges of 30_encoding.md R101, R102 and R107. -/

namespace Sys2Proof

/-- A reserved register slot, offset / 8: 0x0C8 to 0x0F8 and 0x148 to 0xFF8 (10_state.md R45). -/
def reservedSlot (slot : Nat) : Bool :=
  (25 ≤ slot && slot ≤ 31) || (41 ≤ slot && slot ≤ 511)

/-- The check of an instruction's operands: r in 0..23 (R101), i in 0..24 (R107), a reserved slot (R107); a reserved
read carries no data, written as 0. -/
def Instr.wellFormed : Instr → Bool
  | .round r => r ≤ 23
  | .iota r => r ≤ 23
  | .wrLane i _ => i ≤ 24
  | .rdLane i => i ≤ 24
  | .rdWrReserved .read slot v => reservedSlot slot && v == 0
  | .rdWrReserved .write slot _ => reservedSlot slot
  | .nop => true
  | .clear => true
  | .permute => true
  | .hash => true
  | .theta => true
  | .rho => true
  | .pi => true
  | .chi => true
  | .rdId => true
  | .wrId _ => true
  | .rdCtrl => true
  | .wrCtrl _ => true
  | .rdStatus => true
  | .wrStatus _ => true
  | .rdCmd => true
  | .wrCmd _ => true
  | .wrSrc _ => true
  | .rdSrc => true
  | .wrLen _ => true
  | .rdLen => true
  | .wrDst _ => true
  | .rdDst => true
  | .rdBlocks => true
  | .wrBlocks _ => true
  | .rdFaultAddr => true
  | .wrFaultAddr _ => true

end Sys2Proof
end

