-- ==== Sys2Proof/Decode.lean ====
section
/-! DEFINITION. The decoder, total, rejecting by name (30_encoding.md R103, R104, R107), and after it the encoder,
written from the same tables (R100, R102, R107). A command is 8 bytes, its word little-endian; a register access is 10
bytes, the 13-bit key `dir << 12 | offset` in 2 bytes and the 64-bit data in 8, both little-endian (log 9). -/

namespace Sys2Proof

/-- Why an encoding is no instruction. -/
inductive Reject where
  /-- R104 (a): RSV ≠ 0. -/
  | reservedBits
  /-- R104 (b): OP is none of the ten opcodes. -/
  | unknownOpcode
  /-- R104 (c): ARG ≠ 0 where none is taken. -/
  | argNotZero
  /-- R104 (d): a round index of 24 to 31. -/
  | roundIndex
  /-- R107: offset[2:0] ≠ 0, a bus error response (20_memory.md R71). -/
  | misaligned
  /-- R107: an access that is not 64 bits wide, a bus error response (20_memory.md R71). -/
  | badWidth
  /-- A byte string that is neither a command nor a register access. -/
  | badLength
  /-- Bits 15:13 above the 13-bit key are not 0. -/
  | badKey
  deriving DecidableEq, Repr

/-! ### Bytes -/

/-- The `n` low bytes of `v`, least significant first (00_scope.md R16; 20_memory.md R72). -/
def leBytes : Nat → Nat → List Byte
  | 0, _ => []
  | n + 1, v => BitVec.ofNat 8 v :: leBytes n (v / 256)

/-- The number whose bytes, least significant first, are `bs` (00_scope.md R16). -/
def leNat : List Byte → Nat
  | [] => 0
  | b :: bs => b.toNat + 256 * leNat bs

/-! ### The command word (R100 to R106) -/

/-- OP, bits 7:0 of a command word (R100). -/
def cmdOp (w : Word) : BitVec 8 := w.extractLsb' 0 8

/-- ARG, bits 12:8, read as an unsigned number (R100, R101). -/
def cmdArg (w : Word) : Nat := (w.extractLsb' 8 5).toNat

/-- RSV, bits 63:13 (R100). -/
def cmdRsv (w : Word) : BitVec 51 := w.extractLsb' 13 51

/-- The opcode map (R102). -/
def Op.code : Op → BitVec 8
  | .nop => 0x00
  | .clear => 0x01
  | .permute => 0x02
  | .round => 0x03
  | .hash => 0x04
  | .theta => 0x10
  | .rho => 0x11
  | .pi => 0x12
  | .chi => 0x13
  | .iota => 0x14

/-- The opcode map read backwards; every code not listed is illegal (R102, R104 (b)). -/
def opOfCode (c : BitVec 8) : Option Op :=
  match c.toNat with
  | 0x00 => some .nop
  | 0x01 => some .clear
  | 0x02 => some .permute
  | 0x03 => some .round
  | 0x04 => some .hash
  | 0x10 => some .theta
  | 0x11 => some .rho
  | 0x12 => some .pi
  | 0x13 => some .chi
  | 0x14 => some .iota
  | _ => none

/-- ROUND and IOTA take the round index; every other opcode needs ARG = 0 (R100). -/
def Op.takesArg : Op → Bool
  | .round => true
  | .iota => true
  | .nop => false
  | .clear => false
  | .permute => false
  | .hash => false
  | .theta => false
  | .rho => false
  | .pi => false
  | .chi => false

/-- Decoding a command word (R103), total on all 64-bit words: the opcode and its argument, or why it is illegal (R104). -/
def decodeCommand (w : Word) : Except Reject (Op × Nat) :=
  if cmdRsv w ≠ 0 then .error .reservedBits
  else
    match opOfCode (cmdOp w) with
    | none => .error .unknownOpcode
    | some op =>
      if op.takesArg then
        if cmdArg w ≤ 23 then .ok (op, cmdArg w) else .error .roundIndex
      else if cmdArg w = 0 then .ok (op, 0) else .error .argNotZero

/-- The command instruction of an opcode and its argument (R102). -/
def commandInstr : Op → Nat → Instr
  | .nop, _ => .nop
  | .clear, _ => .clear
  | .permute, _ => .permute
  | .round, r => .round r
  | .hash, _ => .hash
  | .theta, _ => .theta
  | .rho, _ => .rho
  | .pi, _ => .pi
  | .chi, _ => .chi
  | .iota, r => .iota r

/-! ### The register access (R107) -/

/-- The instruction of an aligned 64-bit access, by `slot`, its offset divided by 8 (R107; 10_state.md R35). -/
def accessInstr (d : Dir) (slot : Nat) (v : Word) : Instr :=
  if slot ≤ 24 then
    match d with
    | .read => .rdLane slot
    | .write => .wrLane slot v
  else
    match d, slot with
    | .read, 32 => .rdId
    | .write, 32 => .wrId v
    | .read, 33 => .rdCtrl
    | .write, 33 => .wrCtrl v
    | .read, 34 => .rdStatus
    | .write, 34 => .wrStatus v
    | .read, 35 => .rdCmd
    | .write, 35 => .wrCmd v
    | .read, 36 => .rdSrc
    | .write, 36 => .wrSrc v
    | .read, 37 => .rdLen
    | .write, 37 => .wrLen v
    | .read, 38 => .rdDst
    | .write, 38 => .wrDst v
    | .read, 39 => .rdBlocks
    | .write, 39 => .wrBlocks v
    | .read, 40 => .rdFaultAddr
    | .write, 40 => .wrFaultAddr v
    | .read, _ => .rdWrReserved .read slot 0
    | .write, _ => .rdWrReserved .write slot v

/-- Decoding a bus transaction (R107): an access at a multiple of 8 and 64 bits wide selects a register, any other
gets a bus error response. -/
def decodeAccess (a : Access) : Except Reject Instr :=
  if a.offset.toNat % 8 ≠ 0 then .error .misaligned
  else if a.width ≠ 64 then .error .badWidth
  else .ok (accessInstr a.dir (a.offset.toNat / 8) a.value)

/-- The 64-bit transaction of a 13-bit key `dir << 12 | offset`, dir = 1 for a write (R107). -/
def keyAccess (key : Nat) (v : Word) : Access where
  dir := if key / 0x1000 % 2 = 1 then .write else .read
  width := 64
  offset := BitVec.ofNat 12 key
  value := v

/-- Decoding the bytes of an instruction, total: 8 bytes are a command word, 10 bytes a register access. -/
def decode (bs : List Byte) : Except Reject Instr :=
  if bs.length = 8 then
    match decodeCommand (BitVec.ofNat 64 (leNat bs)) with
    | .ok (op, r) => .ok (commandInstr op r)
    | .error e => .error e
  else if bs.length = 10 then
    if leNat (bs.take 2) < 0x2000 then
      decodeAccess (keyAccess (leNat (bs.take 2)) (BitVec.ofNat 64 (leNat (bs.drop 2))))
    else .error .badKey
  else .error .badLength

/-! ### The encoder -/

/-- The command word of an opcode and its argument (R102). -/
def commandWord (op : Op) (r : Nat) : Word := BitVec.ofNat 64 (op.code.toNat + r * 0x100)

/-- The bytes of a command (R100; little-endian, 20_memory.md R72). -/
def commandBytes (op : Op) (r : Nat) : List Byte := leBytes 8 (commandWord op r).toNat

/-- The 13-bit key of an access to register slot `slot` (R107). -/
def accessKey (d : Dir) (slot : Nat) : Nat :=
  match d with
  | .read => 8 * slot
  | .write => 0x1000 + 8 * slot

/-- The bytes of a register access: its key, then its data. -/
def accessBytes (d : Dir) (slot : Nat) (v : Word) : List Byte :=
  leBytes 2 (accessKey d slot) ++ leBytes 8 v.toNat

/-- The bytes of a well-formed instruction (R102, R107; the offsets of 10_state.md R35 divided by 8). -/
def encode : Instr → List Byte
  | .nop => commandBytes .nop 0
  | .clear => commandBytes .clear 0
  | .permute => commandBytes .permute 0
  | .hash => commandBytes .hash 0
  | .theta => commandBytes .theta 0
  | .rho => commandBytes .rho 0
  | .pi => commandBytes .pi 0
  | .chi => commandBytes .chi 0
  | .round r => commandBytes .round r
  | .iota r => commandBytes .iota r
  | .wrLane i v => accessBytes .write i v
  | .rdLane i => accessBytes .read i 0
  | .rdId => accessBytes .read 32 0
  | .wrId v => accessBytes .write 32 v
  | .rdCtrl => accessBytes .read 33 0
  | .wrCtrl v => accessBytes .write 33 v
  | .rdStatus => accessBytes .read 34 0
  | .wrStatus v => accessBytes .write 34 v
  | .rdCmd => accessBytes .read 35 0
  | .wrCmd w => accessBytes .write 35 w
  | .wrSrc v => accessBytes .write 36 v
  | .rdSrc => accessBytes .read 36 0
  | .wrLen v => accessBytes .write 37 v
  | .rdLen => accessBytes .read 37 0
  | .wrDst v => accessBytes .write 38 v
  | .rdDst => accessBytes .read 38 0
  | .rdBlocks => accessBytes .read 39 0
  | .wrBlocks v => accessBytes .write 39 v
  | .rdFaultAddr => accessBytes .read 40 0
  | .wrFaultAddr v => accessBytes .write 40 v
  | .rdWrReserved d slot v => accessBytes d slot v

/-! ### The rows of spec/opcode_table.json -/

/-- A table row of 9 to 16 bits is a register access (its 13-bit key); any other is a command (30_encoding.md R107). -/
def isKeyRow (nbits : Nat) : Bool := 8 < nbits && nbits ≤ 16

/-- The bus transaction of a table row's word: the access of its key, with data 0 above it, or the 64-bit write of
the command word to CMD, offset 0x118 (R100). -/
def tableAccess (nbits w : Nat) : Access :=
  if isKeyRow nbits then keyAccess (w % 0x2000) 0
  else { dir := .write, width := 64, offset := 0x118, value := BitVec.ofNat 64 w }

/-- The instruction the decoder reads from a table row's word, its bits above `nbits` zero. -/
def decodeTableWord (nbits w : Nat) : Option Instr :=
  if isKeyRow nbits then (decode (leBytes 2 w ++ leBytes 8 0)).toOption
  else (decode (leBytes 8 w)).toOption

end Sys2Proof
end

