-- ==== Sys2Proof/Config.lean ====
section
/-! DEFINITION. The free values: what the spec calls 'any value' (00_scope.md R20), with no body, so that no
proof can see one. The step applies them to `State.draws`, a counter, for a fresh value each time
(notes/assumptions/4.md). The open parameters of 00_scope.md R10 stand in `State.platform`. -/

namespace Sys2Proof.Config

/-- DESIGN CHOICE (log 4). A 64-bit free value: draw number `n`, use `i` within that draw (a lane number, or 25 for BLOCKS). -/
opaque freeWord : Nat → Nat → Word

/-- DESIGN CHOICE (log 4). An 8-bit free value: draw number `n`. -/
opaque freeByte : Nat → Byte

end Sys2Proof.Config
end

