-- ==== Sys2Proof/Machine/State.lean ====
section
/-! DEFINITION. The state of the machine: everything 10_state.md R52 gives the block, the platform's memory and
parameters it runs on, and the outside events it has yet to meet. Plain data throughout. -/

namespace Sys2Proof.Machine

/-- The 25 lanes of the permutation state, `A[x,y] = A[x + 5*y]` (10_state.md R30). -/
abbrev Lanes := Vector Word 25

/-- The sequencer's PHASE (10_state.md R50). -/
inductive Phase where
  | idle
  | step
  | perm
  | absorb
  | write
  deriving DecidableEq, Repr

/-- System memory: the bytes whose value is known, addresses strictly rising. An address not listed holds any value
(DESIGN CHOICE, log 3). -/
abbrev Memory := List Host.Cell

/-- The canonical form of a memory: addresses strictly rising and below 2^64 (20_memory.md R70). -/
abbrev Memory.wf (m : Memory) : Prop :=
  m.Pairwise (fun x y => x.1 < y.1) ∧ ∀ c ∈ m, c.1 < 2 ^ 64

/-- What the platform answers a DMA byte access with, beside plain memory (MemResp, 00_scope.md R10). -/
inductive Answer where
  /-- A bus error (41_sponge.md R190, R191). -/
  | busError
  /-- No answer: the engine step is not enabled (42_host_interface.md R249; 93_implementation_defined.md U13). -/
  | noAnswer
  /-- A read that a device answers with this byte (20_memory.md R80; U15). -/
  | data (b : Byte)
  deriving DecidableEq, Repr

/-- One rule of MemResp: accesses of direction `dir` to addresses `base` to `base + size - 1` get `answer` (log 8). -/
structure RespRule where
  dir    : Dir
  base   : Nat
  size   : Nat
  answer : Answer
  deriving DecidableEq, Repr

/-- The open parameters of 00_scope.md R10 (log 6, 7, 8). KECCAK_BASE is `basePage * 0x1000` (20_memory.md R81).
`readJoin` and `writeJoin` are DMA_BEAT: the byte addresses that continue the bus transaction of the byte before. -/
structure Platform where
  basePage  : BitVec 52
  memResp   : List RespRule
  readJoin  : List Nat
  writeJoin : List Nat
  irqRoute  : Nat
  deriving DecidableEq, Repr

/-- A digest byte the block has written: its address, and the agents that have read STATUS with DONE = 1 since, rising
(20_memory.md R84 H-3; log 12). -/
structure DigestByte where
  addr    : Nat
  readers : List Nat
  deriving DecidableEq, Repr

/-- What can happen to the machine from outside, or the engine's turn (00_scope.md R17; log 1). -/
inductive Event where
  /-- A host access to the window (42_host_interface.md R230). -/
  | access (a : Access)
  /-- The engine takes its step, if it has one (42_host_interface.md R249). -/
  | engine
  /-- The platform asserts reset (70_reset_and_hazards.md R310, R311). -/
  | reset
  /-- Another agent stores a byte to system memory; `visible` is host duty H-1 (20_memory.md R84). -/
  | memStore (a : Word) (b : Byte) (visible : Bool)
  /-- Another agent loads a byte from system memory (20_memory.md R84 H-3). -/
  | memLoad (a : Word)
  /-- The host writes `bytes` over the bus, byte k to the byte address `addr + k` (20_memory.md R72; log 19). -/
  | busWrite (addr : Word) (bytes : List Byte)
  /-- The host reads `n` bytes over the bus, byte k from the byte address `addr + k` (20_memory.md R72; log 19). -/
  | busRead (addr : Word) (n : Nat)
  /-- The platform's answers change from here on (00_scope.md R10; log 8). -/
  | memResp (rules : List RespRule)
  /-- The accesses that follow are those of agent `g` (20_memory.md R84 H-3; log 12). -/
  | agent (g : Nat)
  deriving DecidableEq, Repr

/-- What the last bus access got (20_memory.md R71, R73; the model's own field, log 9). -/
inductive Response where
  | none
  | readData (v : Word)
  /-- The bytes of a read over the bus, byte k being that of the bus address `addr + k` (20_memory.md R72). -/
  | readBytes (bytes : List Byte)
  | writeDone
  | busError
  deriving DecidableEq, Repr

/-- The state of the machine. -/
structure State where
  /-- A[0..24] (10_state.md R30, R36). -/
  lanes     : Lanes
  /-- Lane i holds any value until its next write, after a READ_FAULT (41_sponge.md R190; U5; log 4). -/
  laneAny   : Vector Bool 25
  /-- CTRL.IE_DONE (10_state.md R37). -/
  ieDone    : Bool
  /-- CTRL.IE_ERR (10_state.md R37). -/
  ieErr     : Bool
  /-- STATUS.BUSY (10_state.md R38). -/
  busy      : Bool
  /-- STATUS.DONE (10_state.md R38). -/
  done      : Bool
  /-- STATUS.ERR (10_state.md R38). -/
  err       : Bool
  /-- STATUS.ERRCODE (10_state.md R38; 60_exceptions.md R271). -/
  errcode   : BitVec 8
  /-- SRC (10_state.md R40). -/
  src       : Word
  /-- LEN (10_state.md R41). -/
  len       : Word
  /-- DST (10_state.md R42). -/
  dst       : Word
  /-- BLOCKS (10_state.md R43). -/
  blocks    : Word
  /-- FAULT_ADDR (10_state.md R46). -/
  faultAddr : Word
  /-- PHASE (10_state.md R50). -/
  phase     : Phase
  /-- OP (10_state.md R50). -/
  op        : Op
  /-- ARG (10_state.md R50). -/
  arg       : Nat
  /-- RND (10_state.md R50). -/
  rnd       : Nat
  /-- NBLK, unbounded (10_state.md R50; 41_sponge.md R198). -/
  nblk      : Nat
  /-- K, unbounded (10_state.md R50; 41_sponge.md R198). -/
  k         : Nat
  /-- WIDX (10_state.md R50). -/
  widx      : Nat
  /-- System memory (20_memory.md R70). -/
  mem       : Memory
  /-- Addresses another agent stored to while the present HASH is busy, rising (20_memory.md R84 H-2, H-4; log 12). -/
  raced     : List Nat
  /-- Addresses whose latest store by another agent is not visible, rising (20_memory.md R84 H-1; log 12). -/
  unseen    : List Nat
  /-- The digest bytes the block has written, by rising address, each with the agents that have read STATUS with DONE = 1
  since; any other agent has yet to (20_memory.md R84 H-3; log 12). -/
  digested  : List DigestByte
  /-- The agent whose accesses are taken (the model's own field, log 12). -/
  agent     : Nat
  /-- The input bytes the present or the last HASH has absorbed, in order (the model's own field, log 12). -/
  taken     : List Byte
  /-- The open parameters (00_scope.md R10). -/
  platform  : Platform
  /-- The events still to come, oldest first (log 1). -/
  inputs    : List Event
  /-- What the last bus access got (log 9). -/
  response  : Response
  /-- How many free values have been drawn (log 4). -/
  draws     : Nat
  deriving DecidableEq, Repr

/-- Why the machine stops with a fault. Both reasons arise only in states no run from reset reaches
(`Safety.lean`'s invariant rules them out); log 11. -/
inductive Fault where
  /-- Raised by an ABSORB or WRITE step whose address is 2^64 or more: there is no such address (20_memory.md R70), and
  HASH is accepted only when its ranges end at 2^64 or below (41_sponge.md R183). Safe. -/
  | dmaOutsideAddressSpace
  /-- Raised by an engine step whose PHASE and OP no acceptance loads (42_host_interface.md R234). Safe. -/
  | sequencerNeverLoaded
  deriving DecidableEq, Repr

/-- Why a step has no meaning. -/
inductive Refusal where
  /-- Raised by exec's arm of an instruction that has no meaning yet. Safe. -/
  | notModelled (mnemonic : String)
  /-- Raised by the acceptance of a HASH whose source or destination range meets the block's own window: 'a model
  refuses such a HASH' (20_memory.md R80; 93_implementation_defined.md U9; log 10). Safe. -/
  | hashRangeMeetsWindow
  deriving DecidableEq, Repr

/-- The machine right after reset (70_reset_and_hazards.md R310). OP, ARG, RND, NBLK, K and WIDX: DESIGN CHOICE (log
5), R310 gives none. `unseen`, `digested`, `agent`, `taken`, `platform`, `inputs`, `response` and `draws`: DESIGN
CHOICE (log 17, 17, 12, 12, 6, 1, 9, 4), not the block's state. -/
def State.reset : State where
  lanes     := Vector.replicate 25 0
  laneAny   := Vector.replicate 25 false
  ieDone    := false
  ieErr     := false
  busy      := false
  done      := false
  err       := false
  errcode   := 0x00
  src       := 0
  len       := 0
  dst       := 0
  blocks    := 0
  faultAddr := 0
  phase     := .idle
  op        := .nop
  arg       := 0
  rnd       := 0
  nblk      := 1
  k         := 0
  widx      := 0
  mem       := []
  raced     := []
  unseen    := []
  digested  := []
  agent     := 0
  taken     := []
  platform  := { basePage := 0x40000, memResp := [], readJoin := [], writeJoin := [], irqRoute := 0 }
  inputs    := []
  response  := .none
  draws     := 0

end Sys2Proof.Machine
end

