-- ==== Sys2Proof/Machine/Flags.lean ====
section
/-! DEFINITION. The flags and the words made of them: IRQ (10_state.md R47), STATUS (R38), CTRL (R37), ID (R44), the
error codes (60_exceptions.md R271). -/

namespace Sys2Proof.Machine

/-- The errors the block records (60_exceptions.md R271). -/
inductive ErrCode where
  | illegalCmd
  | busy
  | range
  | readFault
  | writeFault
  deriving DecidableEq, Repr

/-- ERRCODE (60_exceptions.md R271). -/
def ErrCode.code : ErrCode → BitVec 8
  | .illegalCmd => 0x01
  | .busy => 0x02
  | .range => 0x03
  | .readFault => 0x04
  | .writeFault => 0x05

/-- The two DMA faults, which write FAULT_ADDR (60_exceptions.md R272). -/
def ErrCode.isDma : ErrCode → Bool
  | .illegalCmd => false
  | .busy => false
  | .range => false
  | .readFault => true
  | .writeFault => true

/-- The interrupt output, a level (10_state.md R47). -/
def State.irq (s : State) : Bool := (s.done && s.ieDone) || (s.err && s.ieErr)

/-- Input `n` of the platform's interrupt controller, as far as this block drives it (60_exceptions.md R274). -/
def State.irqInput (s : State) (n : Nat) : Bool := s.irq && n == s.platform.irqRoute

/-- STATUS as it reads: ERRCODE 15:8, IRQ 3, ERR 2, DONE 1, BUSY 0, the rest 0 (10_state.md R38; 42_host_interface.md R240). -/
def State.statusWord (s : State) : Word :=
  0#48 ++ s.errcode ++ 0#4 ++ BitVec.ofBool s.irq ++ BitVec.ofBool s.err ++ BitVec.ofBool s.done
    ++ BitVec.ofBool s.busy

/-- CTRL as it reads: IE_ERR 1, IE_DONE 0, the rest 0 (10_state.md R37; 42_host_interface.md R239). -/
def State.ctrlWord (s : State) : Word :=
  0#62 ++ BitVec.ofBool s.ieErr ++ BitVec.ofBool s.ieDone

/-- ID: MAGIC 63:32, MAJOR 31:24, MINOR 23:16, DBITS 15:0 (10_state.md R44). -/
def idWord : Word := 0x4B454343#32 ++ 0x01#8 ++ 0x00#8 ++ 0x0100#16

/-- A HASH is the command in progress (20_memory.md R84). -/
def State.hashBusy (s : State) : Bool := s.busy && s.op == .hash

end Sys2Proof.Machine
end

