-- ==== Sys2Proof/Machine/Memory.lean ====
section
/-! DEFINITION. The operations on system memory, on sets of addresses and on the record of digest bytes (20_memory.md R70,
R76, R84). -/

namespace Sys2Proof.Machine

/-- What an address that is not listed reads as: any value (DESIGN CHOICE, log 3). -/
def Memory.unlisted : Option Byte := none

/-- The byte at an address; `none` is any value, drawn afresh at each read (00_scope.md R20). -/
def Memory.read : Memory → Nat → Option Byte
  | [], _ => Memory.unlisted
  | (a', b) :: m, a => if a = a' then some b else Memory.read m a

/-- Writing a byte; keeps the canonical form. -/
def Memory.write : Memory → Nat → Byte → Memory
  | [], a, b => [(a, b)]
  | (a', b') :: m, a, b =>
    if a < a' then (a, b) :: (a', b') :: m
    else if a = a' then (a, b) :: m
    else (a', b') :: Memory.write m a b

/-- The `n` bytes from `base` on hold any value from now on (93_implementation_defined.md U6, U7, U10, U11). -/
def Memory.forget (m : Memory) (base n : Nat) : Memory :=
  m.filter fun c => !(base ≤ c.1 && c.1 < base + n)

/-- Adding an address to a rising list of addresses. -/
def addAddr : List Nat → Nat → List Nat
  | [], a => [a]
  | a' :: l, a => if a < a' then a :: a' :: l else if a = a' then a' :: l else a' :: addAddr l a

/-- Noting a digest byte as written to an address: no agent has read STATUS since. -/
def putDigest : List DigestByte → Nat → List DigestByte
  | [], a => [⟨a, []⟩]
  | e :: l, a =>
    if a < e.addr then ⟨a, []⟩ :: e :: l
    else if a = e.addr then ⟨a, []⟩ :: l
    else e :: putDigest l a

/-- Agent `g` has read STATUS with DONE = 1: for it, every digest byte written so far stands. -/
def seenBy (l : List DigestByte) (g : Nat) : List DigestByte :=
  l.map fun e => { e with readers := addAddr e.readers g }

/-- Whether a digest byte stands at `a` that agent `g` has not read STATUS for (20_memory.md R84 H-3). -/
def unreadBy (l : List DigestByte) (g a : Nat) : Bool :=
  l.any fun e => e.addr == a && !e.readers.contains g

end Sys2Proof.Machine
end

