-- ==== Sys2Proof/Machine/Permutation.lean ====
section
/-! DEFINITION. Keccak-f[1600]: the constant tables, the five step mappings, the round and the permutation
(40_permutation.md R130 to R139). -/

namespace Sys2Proof.Machine

/-- Lane i of a state, A[i] (00_scope.md R13). -/
def lane (A : Lanes) (i : Nat) : Word := A[i]?.getD 0

/-- The state whose lane i is `f i`. -/
def lanesOf (f : Nat → Word) : Lanes := Vector.ofFn fun i => f i.val

/-- Lane i replaced. -/
def putLane (A : Lanes) (i : Nat) (v : Word) : Lanes := A.setIfInBounds i v

/-- The zero state (41_sponge.md R182; 70_reset_and_hazards.md R310). -/
def zeroLanes : Lanes := Vector.replicate 25 0

/-- Rotate left (00_scope.md R12). -/
def rotl64 (v : Word) (n : Nat) : Word :=
  (v <<< (n % 64)) ||| (v >>> ((64 - n % 64) % 64))

/-- The round constants in the 12 rows of the spec's table: row r holds RC[r] and RC[r + 12] (40_permutation.md R131). -/
def rcRows : List (Word × Word) :=
  [(0x0000000000000001, 0x000000008000808B),
   (0x0000000000008082, 0x800000000000008B),
   (0x800000000000808A, 0x8000000000008089),
   (0x8000000080008000, 0x8000000000008003),
   (0x000000000000808B, 0x8000000000008002),
   (0x0000000080000001, 0x8000000000000080),
   (0x8000000080008081, 0x000000000000800A),
   (0x8000000000008009, 0x800000008000000A),
   (0x000000000000008A, 0x8000000080008081),
   (0x0000000000000088, 0x8000000000008080),
   (0x0000000080008009, 0x0000000080000001),
   (0x000000008000000A, 0x8000000080008008)]

/-- RC[r], from the left half of its row below 12 and from the right half above. -/
def roundConstant (r : Nat) : Word :=
  if r < 12 then (rcRows.getD r (0, 0)).1 else (rcRows.getD (r - 12) (0, 0)).2

/-- The rotation offsets RHO[x, y] in the spec's rows y = 0..4, of x = 0..4 each (40_permutation.md R132). -/
def rhoRows : List (List Nat) :=
  [[0, 1, 62, 28, 27],
   [36, 44, 6, 55, 20],
   [3, 10, 43, 25, 39],
   [41, 45, 15, 21, 8],
   [18, 2, 61, 56, 14]]

/-- RHO[i], of the lane at (i mod 5, i div 5). -/
def rhoOffset (i : Nat) : Nat := (rhoRows.getD (i / 5) []).getD (i % 5) 0

/-- PI_SRC[i]: the new lane at (x, y) is the old lane at ((x + 3y) mod 5, x) (40_permutation.md R133). -/
def piSource (i : Nat) : Nat := (i % 5 + 3 * (i / 5)) % 5 + 5 * (i % 5)

/-- The column parity C[x] (40_permutation.md R134). -/
def columnParity (A : Lanes) (x : Nat) : Word :=
  lane A x ^^^ lane A (x + 5) ^^^ lane A (x + 10) ^^^ lane A (x + 15) ^^^ lane A (x + 20)

/-- theta (40_permutation.md R134). -/
def theta (A : Lanes) : Lanes :=
  lanesOf fun i =>
    lane A i ^^^ (columnParity A ((i % 5 + 4) % 5) ^^^ rotl64 (columnParity A ((i % 5 + 1) % 5)) 1)

/-- rho (40_permutation.md R135). -/
def rho (A : Lanes) : Lanes := lanesOf fun i => rotl64 (lane A i) (rhoOffset i)

/-- pi, from a snapshot (40_permutation.md R136). -/
def pi (A : Lanes) : Lanes := lanesOf fun i => lane A (piSource i)

/-- chi, from a snapshot (40_permutation.md R137). -/
def chi (A : Lanes) : Lanes :=
  lanesOf fun i =>
    lane A i ^^^ (~~~ lane A ((i % 5 + 1) % 5 + 5 * (i / 5)) &&& lane A ((i % 5 + 2) % 5 + 5 * (i / 5)))

/-- iota with RC[r] (40_permutation.md R138). -/
def iota (A : Lanes) (r : Nat) : Lanes := putLane A 0 (lane A 0 ^^^ roundConstant r)

/-- One round (40_permutation.md R139). -/
def keccakRound (A : Lanes) (r : Nat) : Lanes := iota (chi (pi (rho (theta A)))) r

/-- Rounds `r`, `r + 1`, ..., `r + n - 1`, in that order. -/
def keccakRounds : Nat → Nat → Lanes → Lanes
  | 0, _, A => A
  | n + 1, r, A => keccakRounds n (r + 1) (keccakRound A r)

/-- KeccakF: rounds 0 to 23 (40_permutation.md R139). -/
def keccakF (A : Lanes) : Lanes := keccakRounds 24 0 A

end Sys2Proof.Machine
end

