-- ==== Sys2Proof/Machine/Operands.lean ====
section
/-! DEFINITION. Operands: bytes of lanes (00_scope.md R16), the addresses and ranges of HASH (41_sponge.md R183, R184;
20_memory.md R75, R76), the padding (41_sponge.md R184), the block's own window (20_memory.md R80, R81). -/

namespace Sys2Proof.Machine

/-- Bytes of a block, the rate (00_scope.md R8). -/
def rateBytes : Nat := 136

/-- Bytes of a digest (00_scope.md R8). -/
def digestBytes : Nat := 32

/-- Byte k of a lane, `byte(v, k) = (v >> 8k)[7:0]` (00_scope.md R16). -/
def byteOf (v : Word) (k : Nat) : Byte := v.extractLsb' (8 * k) 8

/-- Digest byte k, `byte(A[k div 8], k mod 8)` (20_memory.md R75). -/
def digestByte (A : Lanes) (k : Nat) : Byte := byteOf (lane A (k / 8)) (k % 8)

/-- NBLK for an input of `l` bytes (41_sponge.md R184, R192). -/
def blockCount (l : Nat) : Nat := l / rateBytes + 1

/-- Byte k of the padded message, `m` being input byte k, or 0 past the input (41_sponge.md R184). -/
def padByte (l nblk k : Nat) (m : Byte) : Byte :=
  m ||| (if k = l then 0x01 else 0x00) ||| (if k = rateBytes * nblk - 1 then 0x80 else 0x00)

/-- The byte `b` XORed into byte position `j` of a block (20_memory.md R74; 41_sponge.md R186). -/
def xorByte (j : Nat) (b : Byte) (v : Word) : Word := v ^^^ (b.setWidth 64 <<< (8 * (j % 8)))

/-- The address of source byte k, SRC + k (20_memory.md R76). -/
def sourceAddr (s : State) (k : Nat) : Nat := s.src.toNat + k

/-- The address of digest byte k, DST + k (20_memory.md R75). -/
def digestAddr (s : State) (k : Nat) : Nat := s.dst.toNat + k

/-- RangeFails: the range check of HASH, without wrap-around (41_sponge.md R183). -/
def rangeFails (s : State) : Bool :=
  (0 < s.len.toNat && s.src.toNat + s.len.toNat > 2 ^ 64) || s.dst.toNat + digestBytes > 2 ^ 64

/-- Whether `n` addresses from `a` and `m` addresses from `b` have one in common. -/
def rangesMeet (a n b m : Nat) : Bool := 0 < n && 0 < m && a < b + m && b < a + n

/-- KECCAK_BASE, a multiple of 0x1000 (20_memory.md R81). -/
def windowBase (s : State) : Nat := s.platform.basePage.toNat * 0x1000

/-- Whether an address is in the block's register window (10_state.md R35). -/
def inWindow (s : State) (a : Nat) : Bool := windowBase s ≤ a && a < windowBase s + 0x1000

/-- Whether HASH's source or destination range meets the window (20_memory.md R80; U9). -/
def hashMeetsWindow (s : State) : Bool :=
  rangesMeet s.src.toNat s.len.toNat (windowBase s) 0x1000
    || rangesMeet s.dst.toNat digestBytes (windowBase s) 0x1000

/-- Whether an address is in [SRC, SRC + LEN). -/
def inSource (s : State) (a : Nat) : Bool := s.src.toNat ≤ a && a < s.src.toNat + s.len.toNat

/-- Whether an address is in [DST, DST + 32). -/
def inDigest (s : State) (a : Nat) : Bool := s.dst.toNat ≤ a && a < s.dst.toNat + digestBytes

end Sys2Proof.Machine
end

