-- ==== Sys2Proof/Machine/Ops.lean ====
section
/-! DEFINITION. The shared operations: answering an access, reading and writing lanes, recording an error (60_exceptions.md
R272, the block's counterpart of taking an exception) and acknowledging one (42_host_interface.md R241, R277, the
counterpart of the return), command acceptance (R234), completion (R248). -/

namespace Sys2Proof.Machine

/-- What a step gives. -/
abbrev Result := Host.Outcome State Fault Refusal

/-- The access is answered with `r`. -/
def State.respond (r : Response) (s : State) : State := { s with response := r }

/-- One free value is drawn when `b` holds: the counter moves on (log 4). -/
def State.drawIf (b : Bool) (s : State) : State := { s with draws := s.draws + b.toNat }

/-! ### The lane file -/

/-- Lane i holds any value (41_sponge.md R190; U5). -/
def State.laneIsAny (s : State) (i : Nat) : Bool := s.laneAny[i]?.getD false

/-- Some lane holds any value. -/
def State.someLaneAny (s : State) : Bool := s.laneAny.toList.any id

/-- What lane i is seen as: A[i], or a free value where it holds any value. -/
def State.laneValue (s : State) (i : Nat) : Word :=
  if s.laneIsAny i then Config.freeWord s.draws i else lane s.lanes i

/-- The 25 lanes as a step mapping sees them. -/
def State.laneValues (s : State) : Lanes := lanesOf s.laneValue

/-- All 25 lanes are written. -/
def State.setLanes (A : Lanes) (s : State) : State :=
  { s with lanes := A, laneAny := Vector.replicate 25 false }

/-- Lane i is written. -/
def State.setLane (i : Nat) (v : Word) (s : State) : State :=
  { s with lanes := putLane s.lanes i v, laneAny := s.laneAny.setIfInBounds i false }

/-- All 25 lanes are read and written in one snapshot step (40_permutation.md R148). -/
def State.mapLanes (f : Lanes → Lanes) (s : State) : State :=
  (s.setLanes (f s.laneValues)).drawIf s.someLaneAny

/-- One lane is read and written. -/
def State.mapLane (i : Nat) (f : Word → Word) (s : State) : State :=
  (s.setLane i (f (s.laneValue i))).drawIf (s.laneIsAny i)

/-- Every lane holds any value from now on (41_sponge.md R190; U5). -/
def State.loseLanes (s : State) : State :=
  { s with lanes := zeroLanes, laneAny := Vector.replicate 25 true }

/-! ### Errors -/

/-- Recording an error, `raise Err(code, addr)` (60_exceptions.md R272): the first since ERR was last cleared wins. -/
def State.recordError (c : ErrCode) (addr : Word) (s : State) : State :=
  { s with
    err := true
    errcode := if s.err then s.errcode else c.code
    faultAddr := if !s.err && c.isDma then addr else s.faultAddr }

/-- An error in a host access: the access has no other effect (60_exceptions.md R272). -/
def State.reject (c : ErrCode) (s : State) : State := (s.recordError c 0).respond .writeDone

/-- The end of an abort: BUSY <- 0, PHASE <- IDLE, DONE stays (60_exceptions.md R272). -/
def State.abort (s : State) : State := { s with busy := false, phase := .idle, raced := [] }

/-- Acknowledging DONE and ERR, a write of v to STATUS (42_host_interface.md R241). -/
def State.acknowledge (v : Word) (s : State) : State :=
  { s with
    done := s.done && !v.getLsbD 1
    err := s.err && !v.getLsbD 2
    errcode := if v.getLsbD 2 then 0x00 else s.errcode }

/-- STATUS is read by the agent whose access it is: with DONE = 1 the digest bytes written stand for that agent
(20_memory.md R84 H-3; log 12). -/
def State.seeStatus (s : State) : State :=
  { s with digested := if s.done then seenBy s.digested s.agent else s.digested }

/-! ### Commands -/

/-- DONE <- 0, every non-NOP CMD write made while idle (42_host_interface.md R234). -/
def State.clearDone (s : State) : State := { s with done := false }

/-- The sequencer of CLEAR, THETA, RHO, PI, CHI, ROUND and IOTA: PHASE <- STEP (42_host_interface.md R234); ARG is
loaded for the two commands that have one. -/
def State.loadStep (op : Op) (r : Nat) (s : State) : State :=
  { s with busy := true, phase := .step, op := op, arg := if op.takesArg then r else s.arg }

/-- The sequencer of PERMUTE: PHASE <- PERM, RND <- 0 (40_permutation.md R147). -/
def State.loadPermute (s : State) : State :=
  { s with busy := true, phase := .perm, op := .permute, rnd := 0 }

/-- The acceptance effects of HASH after DONE <- 0 (41_sponge.md R181). -/
def State.loadHash (s : State) : State :=
  { s with
    busy := true
    op := .hash
    lanes := zeroLanes
    laneAny := Vector.replicate 25 false
    blocks := 0
    nblk := blockCount s.len.toNat
    k := 0
    phase := .absorb
    raced := []
    taken := [] }

/-- Command acceptance of a non-NOP word (42_host_interface.md R234): rejected when busy; else DONE <- 0 and then `start`. -/
def issue (start : State → Result) (s : State) : Result :=
  if s.busy then .next (s.reject .busy) else start s.clearDone

/-- The acceptance of an illegal word while idle (42_host_interface.md R234; 30_encoding.md R104). -/
def startIllegal (s : State) : Result := .next (s.reject .illegalCmd)

/-- The acceptance of a STEP command (42_host_interface.md R234). -/
def startStep (op : Op) (r : Nat) (s : State) : Result := .next ((s.loadStep op r).respond .writeDone)

/-- The acceptance of PERMUTE (42_host_interface.md R234). -/
def startPermute (s : State) : Result := .next (s.loadPermute.respond .writeDone)

/-- The acceptance of HASH: the range check, then the refusal of U9 (log 10), then the effects of 41_sponge.md R181. -/
def startHash (s : State) : Result :=
  if rangeFails s then .next (s.reject .range)
  else if hashMeetsWindow s then .refused .hashRangeMeetsWindow
  else .next (s.loadHash.respond .writeDone)

/-- Completion (42_host_interface.md R248). -/
def State.complete (s : State) : State :=
  { s with phase := .idle, busy := false, done := true, raced := [] }

/-! ### Registers -/

/-- SRC <- v (42_host_interface.md R243). -/
def State.setSrc (v : Word) (s : State) : State := { s with src := v }

/-- LEN <- v (42_host_interface.md R243). -/
def State.setLen (v : Word) (s : State) : State := { s with len := v }

/-- DST <- v (42_host_interface.md R243). -/
def State.setDst (v : Word) (s : State) : State := { s with dst := v }

/-- CTRL.IE_DONE <- v[0], CTRL.IE_ERR <- v[1]; the other bits are ignored (42_host_interface.md R239). -/
def State.setCtrl (v : Word) (s : State) : State :=
  { s with ieDone := v.getLsbD 0, ieErr := v.getLsbD 1 }

/-- A read of a register (20_memory.md R73: no side effect). -/
def readDone (v : Word) (s : State) : Result := .next (s.respond (.readData v))

/-- A write that is ignored (10_state.md R35, R45). -/
def writeIgnored (s : State) : Result := .next (s.respond .writeDone)

/-- A write that is rejected with BUSY while busy (42_host_interface.md R236, R243). -/
def writeWhileIdle (set : State → State) (s : State) : Result :=
  if s.busy then .next (s.reject .busy) else .next ((set s).respond .writeDone)

/-- A read that returns any value, the free value `v` of the next draw (42_host_interface.md R237, R245; U8). -/
def readAny (i : Nat) (s : State) : Result :=
  .next ((s.respond (.readData (Config.freeWord s.draws i))).drawIf true)

end Sys2Proof.Machine
end

