-- ==== Sys2Proof/Machine/Commands.lean ====
section
/-! DEFINITION. The commands as the host gives them: NOP (42_host_interface.md R235), and the acceptance of CLEAR, THETA,
RHO, PI, CHI, IOTA, ROUND, PERMUTE (40_permutation.md R140 to R147) and HASH (41_sponge.md R181). What a command does after
its acceptance is the engine's (`Engine.lean`). -/

namespace Sys2Proof.Machine

/-- NOP (42_host_interface.md R235). -/
def execNop (s : State) : Result := writeIgnored s

/-- CLEAR (40_permutation.md R140). -/
def execClear (s : State) : Result := issue (startStep .clear 0) s

/-- THETA (40_permutation.md R141). -/
def execTheta (s : State) : Result := issue (startStep .theta 0) s

/-- RHO (40_permutation.md R142). -/
def execRho (s : State) : Result := issue (startStep .rho 0) s

/-- PI (40_permutation.md R143). -/
def execPi (s : State) : Result := issue (startStep .pi 0) s

/-- CHI (40_permutation.md R144). -/
def execChi (s : State) : Result := issue (startStep .chi 0) s

/-- IOTA r (40_permutation.md R145); an r of 24 or more is illegal. -/
def execIota (r : Nat) (s : State) : Result :=
  issue (if r ≤ 23 then startStep .iota r else startIllegal) s

/-- ROUND r (40_permutation.md R146); an r of 24 or more is illegal. -/
def execRound (r : Nat) (s : State) : Result :=
  issue (if r ≤ 23 then startStep .round r else startIllegal) s

/-- PERMUTE (40_permutation.md R147). -/
def execPermute (s : State) : Result := issue startPermute s

/-- HASH (41_sponge.md R181, R183). -/
def execHash (s : State) : Result := issue startHash s

end Sys2Proof.Machine
end

