-- ==== Sys2Proof/Machine/Registers.lean ====
section
/-! DEFINITION. The register accesses (42_host_interface.md R234, R236 to R247). -/

namespace Sys2Proof.Machine

/-- WR LANE[i], v (42_host_interface.md R236). -/
def execWrLane (i : Nat) (v : Word) (s : State) : Result := writeWhileIdle (State.setLane i v) s

/-- RD LANE[i] (42_host_interface.md R237): A[i] while idle, any value while busy or after a READ_FAULT (U5, U8). -/
def execRdLane (i : Nat) (s : State) : Result :=
  if s.busy || s.laneIsAny i then readAny i s else readDone (lane s.lanes i) s

/-- RD ID (42_host_interface.md R238). -/
def execRdId (s : State) : Result := readDone idWord s

/-- WR ID, ignored (42_host_interface.md R238). -/
def execWrId (_v : Word) (s : State) : Result := writeIgnored s

/-- RD CTRL (42_host_interface.md R239). -/
def execRdCtrl (s : State) : Result := readDone s.ctrlWord s

/-- WR CTRL, v (42_host_interface.md R239). -/
def execWrCtrl (v : Word) (s : State) : Result :=
  .next ((s.setCtrl v).respond .writeDone)

/-- RD STATUS (42_host_interface.md R240); that it is read is noted for duty H-3 (20_memory.md R84). -/
def execRdStatus (s : State) : Result := readDone s.statusWord s.seeStatus

/-- WR STATUS, v (42_host_interface.md R241). -/
def execWrStatus (v : Word) (s : State) : Result := .next ((s.acknowledge v).respond .writeDone)

/-- RD CMD (42_host_interface.md R242). -/
def execRdCmd (s : State) : Result := readDone 0 s

/-- WR CMD, w (42_host_interface.md R234): decode, then the command's acceptance or ILLEGAL_CMD. -/
def execWrCmd (w : Word) (s : State) : Result :=
  match decodeCommand w with
  | .error _ => issue startIllegal s
  | .ok (.nop, _) => execNop s
  | .ok (.clear, _) => execClear s
  | .ok (.permute, _) => execPermute s
  | .ok (.round, r) => execRound r s
  | .ok (.hash, _) => execHash s
  | .ok (.theta, _) => execTheta s
  | .ok (.rho, _) => execRho s
  | .ok (.pi, _) => execPi s
  | .ok (.chi, _) => execChi s
  | .ok (.iota, r) => execIota r s

/-- WR SRC, v (42_host_interface.md R243). -/
def execWrSrc (v : Word) (s : State) : Result := writeWhileIdle (State.setSrc v) s

/-- RD SRC (42_host_interface.md R244). -/
def execRdSrc (s : State) : Result := readDone s.src s

/-- WR LEN, v (42_host_interface.md R243). -/
def execWrLen (v : Word) (s : State) : Result := writeWhileIdle (State.setLen v) s

/-- RD LEN (42_host_interface.md R244). -/
def execRdLen (s : State) : Result := readDone s.len s

/-- WR DST, v (42_host_interface.md R243). -/
def execWrDst (v : Word) (s : State) : Result := writeWhileIdle (State.setDst v) s

/-- RD DST (42_host_interface.md R244). -/
def execRdDst (s : State) : Result := readDone s.dst s

/-- RD BLOCKS: BLOCKS while idle, any value while busy (42_host_interface.md R245). -/
def execRdBlocks (s : State) : Result := if s.busy then readAny 25 s else readDone s.blocks s

/-- WR BLOCKS, ignored (42_host_interface.md R245). -/
def execWrBlocks (_v : Word) (s : State) : Result := writeIgnored s

/-- RD FAULT_ADDR (42_host_interface.md R246). -/
def execRdFaultAddr (s : State) : Result := readDone s.faultAddr s

/-- WR FAULT_ADDR, ignored (42_host_interface.md R246). -/
def execWrFaultAddr (_v : Word) (s : State) : Result := writeIgnored s

/-- RD reserved returns 0, WR reserved is ignored (42_host_interface.md R247). -/
def execRdWrReserved (d : Dir) (_slot : Nat) (_v : Word) (s : State) : Result :=
  match d with
  | .read => readDone 0 s
  | .write => writeIgnored s

end Sys2Proof.Machine
end

