-- ==== Sys2Proof/Machine/Dispatch.lean ====
section
/-! DEFINITION. exec: one arm per instruction. -/

namespace Sys2Proof.Machine

def exec (i : Instr) (s : State) : Host.Outcome State Fault Refusal :=
  match i with
  | .nop => Sys2Proof.Machine.execNop s
  | .clear => Sys2Proof.Machine.execClear s
  | .permute => Sys2Proof.Machine.execPermute s
  | .hash => Sys2Proof.Machine.execHash s
  | .theta => Sys2Proof.Machine.execTheta s
  | .rho => Sys2Proof.Machine.execRho s
  | .pi => Sys2Proof.Machine.execPi s
  | .chi => Sys2Proof.Machine.execChi s
  | .round r => Sys2Proof.Machine.execRound r s
  | .iota r => Sys2Proof.Machine.execIota r s
  | .wrLane n v => Sys2Proof.Machine.execWrLane n v s
  | .rdLane n => Sys2Proof.Machine.execRdLane n s
  | .rdId => Sys2Proof.Machine.execRdId s
  | .wrId v => Sys2Proof.Machine.execWrId v s
  | .rdCtrl => Sys2Proof.Machine.execRdCtrl s
  | .wrCtrl v => Sys2Proof.Machine.execWrCtrl v s
  | .rdStatus => Sys2Proof.Machine.execRdStatus s
  | .wrStatus v => Sys2Proof.Machine.execWrStatus v s
  | .rdCmd => Sys2Proof.Machine.execRdCmd s
  | .wrCmd w => Sys2Proof.Machine.execWrCmd w s
  | .wrSrc v => Sys2Proof.Machine.execWrSrc v s
  | .rdSrc => Sys2Proof.Machine.execRdSrc s
  | .wrLen v => Sys2Proof.Machine.execWrLen v s
  | .rdLen => Sys2Proof.Machine.execRdLen s
  | .wrDst v => Sys2Proof.Machine.execWrDst v s
  | .rdDst => Sys2Proof.Machine.execRdDst s
  | .rdBlocks => Sys2Proof.Machine.execRdBlocks s
  | .wrBlocks v => Sys2Proof.Machine.execWrBlocks v s
  | .rdFaultAddr => Sys2Proof.Machine.execRdFaultAddr s
  | .wrFaultAddr v => Sys2Proof.Machine.execWrFaultAddr v s
  | .rdWrReserved d slot v => Sys2Proof.Machine.execRdWrReserved d slot v s

end Sys2Proof.Machine
end

