-- ==== Sys2Proof/Machine/Replay.lean ====
section
/-! DEFINITION. The lanes of a HASH in progress as a function of the input bytes it has taken and of how far it has come
(41_sponge.md R184 to R187, R189): what the lanes would be had one of those bytes been another. -/

namespace Sys2Proof.Machine

/-- Byte k of the padded message, of `len` input bytes in `nblk` blocks, XORed into its place (41_sponge.md R184, R186). -/
def absorbAt (len nblk k : Nat) (m : Byte) (A : Lanes) : Lanes :=
  putLane A (k % rateBytes / 8) (xorByte (k % rateBytes) (padByte len nblk k m) (lane A (k % rateBytes / 8)))

/-- The permutation that follows k absorbed bytes: one at the end of a block, none inside (41_sponge.md R186, R187). -/
def permuteFull (k : Nat) (A : Lanes) : Lanes := if 0 < k ∧ k % rateBytes = 0 then keccakF A else A

/-- The lanes once k bytes of the padded message are XORed in, the block they end not yet permuted. -/
def replay (len nblk : Nat) (taken : List Byte) : Nat → Lanes
  | 0 => zeroLanes
  | k + 1 => absorbAt len nblk k (taken.getD k 0) (permuteFull k (replay len nblk taken k))

/-- The lanes of the HASH in progress, from the bytes taken, K, and RND while in PERM (41_sponge.md R187). -/
def State.replayLanes (s : State) : Lanes :=
  if s.phase = .perm then keccakRounds s.rnd 0 (replay s.len.toNat s.nblk s.taken s.k)
  else permuteFull s.k (replay s.len.toNat s.nblk s.taken s.k)

end Sys2Proof.Machine
end

