-- ==== Sys2Proof/Machine/Platform.lean ====
section
/-! DEFINITION. The platform around the block: its answers to DMA accesses (MemResp and DMA_BEAT, 00_scope.md R10, R14;
20_memory.md R76, R80), other agents' memory accesses (20_memory.md R84), reset (70_reset_and_hazards.md R310, R311). -/

namespace Sys2Proof.Machine

/-! ### Bus transactions (DMA_BEAT, log 7) -/

/-- The first byte of the transaction that covers `a`, no lower than `lo`; `n` bounds the joined bytes gone back over. -/
def transFirst (join : List Nat) (lo : Nat) : Nat → Nat → Nat
  | 0, a => a
  | n + 1, a => if lo < a && join.contains a then transFirst join lo n (a - 1) else a

/-- The last byte of the transaction that covers `a`, below `hi`; `n` bounds the joined bytes gone over. -/
def transLast (join : List Nat) (hi : Nat) : Nat → Nat → Nat
  | 0, a => a
  | n + 1, a => if a + 1 < hi && join.contains (a + 1) then transLast join hi n (a + 1) else a

/-- The joined addresses of one direction. DESIGN CHOICE (log 7): the spec is silent on whether DMA_BEAT may group an address
differently from one HASH to the next; the model joins by absolute address, and no event changes the lists. -/
def State.joins (s : State) : Dir → List Nat
  | .read => s.platform.readJoin
  | .write => s.platform.writeJoin

/-- The lowest and the highest byte address of the transaction of direction `d` that covers `a` in [lo, hi)
(20_memory.md R76). -/
def State.transaction (s : State) (d : Dir) (lo hi a : Nat) : Nat × Nat :=
  (transFirst (s.joins d) lo (s.joins d).length a, transLast (s.joins d) hi (s.joins d).length a)

/-! ### MemResp (log 8) -/

/-- A rule that keeps a transaction of direction `d` from ending with data: a bus error or no answer on one of its bytes. -/
def RespRule.blocks (r : RespRule) (d : Dir) (first last : Nat) : Bool :=
  r.dir == d && rangesMeet r.base r.size first (last + 1 - first) &&
    match r.answer with
    | .busError => true
    | .noAnswer => true
    | .data _ => false

/-- The device byte a rule gives a read of `a`. -/
def RespRule.deviceByte (r : RespRule) (a : Nat) : Option Byte :=
  if r.dir == .read && r.base ≤ a && a < r.base + r.size then
    match r.answer with
    | .busError => none
    | .noAnswer => none
    | .data b => some b
  else none

/-- The first rule that blocks the transaction of direction `d` covering [first, last]. -/
def State.blockedBy (s : State) (d : Dir) (first last : Nat) : Option RespRule :=
  s.platform.memResp.find? fun r => r.blocks d first last

/-- The device byte the first rule that has one gives a read of `a` (20_memory.md R80; U15). -/
def State.deviceByte (s : State) (a : Nat) : Option Byte :=
  s.platform.memResp.findSome? (RespRule.deviceByte · a)

/-- What `MemRead(a, 1)` returns once the platform answers with data; `none` is any value. DEDUCED (log 12): where
another agent has stored to `a` while the HASH is busy, or its latest store is not visible, any value wins (R84 H-1, H-2;
U10, U11) over a device's byte (R80, U15), for R84 names no exception. -/
def State.dmaByte (s : State) (a : Nat) : Option Byte :=
  if s.raced.contains a then none
  else
    match s.deviceByte a with
    | some b => if s.unseen.contains a then none else some b
    | none => Memory.read s.mem a

/-- `MemWrite(a, 1, b)` done: the byte is `b`, or any value where another agent has stored to `a` while the HASH is busy
(20_memory.md R84 H-4; U10). No agent has read STATUS with DONE = 1 since (H-3). -/
def State.dmaStore (a : Nat) (b : Byte) (s : State) : State :=
  { s with
    mem := if s.raced.contains a then Memory.forget s.mem a 1 else Memory.write s.mem a b
    digested := putDigest s.digested a }

/-! ### Other agents and reset -/

/-- A byte of the source or destination range is stored to while the HASH is busy: it holds any value, and the block
reads it, or leaves it, as any value until the HASH ends (20_memory.md R84 H-2, H-4; U10). -/
def State.race (a : Nat) (s : State) : State :=
  { s with mem := Memory.forget s.mem a 1, raced := addAddr s.raced a }

/-- The first n digest bytes are those of the lanes, but for raced ones (20_memory.md R75, R84 H-4). -/
def rewriteDigest : Nat → State → State
  | 0, s => s
  | n + 1, s => rewriteDigest n (s.dmaStore (digestAddr s n) (digestByte s.lanes n))

/-- How many digest bytes the HASH in progress has written. -/
def State.digestWritten (s : State) : Nat := if s.phase = .write then s.widx else 0

/-- Source byte i, absorbed already, is stored to (20_memory.md R84 H-2; U10): that byte alone counts as read with any
value, so the lanes, and the digest bytes written so far, are those of the bytes taken with a free value for byte i (DEDUCED,
log 12). -/
def State.rereadByte (i : Nat) (s : State) : State :=
  let t := ({ s with taken := s.taken.set i (Config.freeByte s.draws) }).drawIf true
  rewriteDigest s.digestWritten (t.setLanes t.replayLanes)

/-- A store that races no HASH: the byte, or any value where the store is not visible (20_memory.md R84 H-1; U11); the
address holds no digest byte from now on. -/
def State.landStore (a : Nat) (b : Byte) (visible : Bool) (s : State) : State :=
  { s with
    mem := if visible then Memory.write s.mem a b else Memory.forget s.mem a 1
    digested := s.digested.filter (·.addr != a) }

/-- Whether the latest store to `a` is visible (20_memory.md R84 H-1). -/
def State.noteVisible (a : Nat) (visible : Bool) (s : State) : State :=
  { s with unseen := if visible then s.unseen.filter (· != a) else addAddr s.unseen a }

/-- Another agent stores `b` to `a` (20_memory.md R84). In the block's window it is an access of a wrong width (R71, log
13). DESIGN CHOICE (log 8): MemResp answers the block's own accesses only, so the store lands whatever its rules are. -/
def agentStore (a : Word) (b : Byte) (visible : Bool) (s : State) : State :=
  if inWindow s a.toNat then s.respond .busError
  else
    ((if s.hashBusy && (inSource s a.toNat || inDigest s a.toNat) then
        if inSource s a.toNat && a.toNat < sourceAddr s s.k then (s.race a.toNat).rereadByte (a.toNat - s.src.toNat)
        else s.race a.toNat
      else s.landStore a.toNat b visible).noteVisible a.toNat visible).respond .writeDone

/-- What a load of `a` by the agent whose access it is gets, `none` being any value: in the destination range while a HASH is
busy, and at a digest byte before that agent has read STATUS with DONE = 1 (20_memory.md R84 H-3; log 12). DESIGN CHOICE
(log 8): MemResp answers the block's own accesses only, so the load is of plain memory. -/
def State.agentByte (s : State) (a : Nat) : Option Byte :=
  if (s.hashBusy && inDigest s a) || unreadBy s.digested s.agent a then none else Memory.read s.mem a

/-- Another agent loads the byte at `a` (20_memory.md R84). -/
def agentLoad (a : Word) (s : State) : State :=
  if inWindow s a.toNat then s.respond .busError
  else
    match s.agentByte a.toNat with
    | some b => s.respond (.readData (b.setWidth 64))
    | none => (s.respond (.readData ((Config.freeByte s.draws).setWidth 64))).drawIf true

/-- Visible stores of bytes at rising addresses. -/
def agentStoreBytes : Nat → List Byte → State → State
  | _, [], s => s.respond .writeDone
  | a, b :: bs, s => agentStoreBytes (a + 1) bs (agentStore (BitVec.ofNat 64 a) b true s)

/-- The bytes a load of `n` bytes at rising addresses gets, and the draw counter after them, `d` being that before. -/
def agentBytes (s : State) : Nat → Nat → Nat → List Byte × Nat
  | 0, _, d => ([], d)
  | n + 1, a, d =>
    match s.agentByte a with
    | some b => (b :: (agentBytes s n (a + 1) d).1, (agentBytes s n (a + 1) d).2)
    | none =>
      (Config.freeByte d :: (agentBytes s n (a + 1) (d + 1)).1, (agentBytes s n (a + 1) (d + 1)).2)

/-- A load of `n` bytes at rising addresses. -/
def agentLoadBytes (a n : Nat) (s : State) : State :=
  { s with
    response := .readBytes (agentBytes s n a s.draws).1
    draws := (agentBytes s n a s.draws).2 }

/-- Reset (70_reset_and_hazards.md R310, R311): every piece of the block's state takes its reset value; the platform's
memory keeps its bytes, but the 32 digest bytes of a HASH reset in WRITE hold any value (U7; log 17). -/
def resetBlock (s : State) : State :=
  { State.reset with
    mem :=
      if s.hashBusy && s.phase == .write then Memory.forget s.mem s.dst.toNat digestBytes else s.mem
    unseen := s.unseen
    digested := s.digested
    agent := s.agent
    platform := s.platform
    inputs := s.inputs
    response := s.response
    draws := s.draws }

/-- The platform's answers change (00_scope.md R10). -/
def setMemResp (rules : List RespRule) (s : State) : State :=
  { s with platform := { s.platform with memResp := rules } }

/-- The accesses that follow are those of agent `g` (20_memory.md R84 H-3; log 12). -/
def setAgent (g : Nat) (s : State) : State := { s with agent := g }

/-- The bus error response: no effect on the block (20_memory.md R71). -/
def busErrorResponse (s : State) : State := s.respond .busError

end Sys2Proof.Machine
end

