-- ==== Sys2Proof/Machine/Bus.lean ====
section
/-! DEFINITION. The host's accesses: one to the window by offset and value, as 42_host_interface.md R230 has it, and one
over the bus by byte address and bytes, as 20_memory.md R72 lays the registers out. -/

namespace Sys2Proof.Machine

/-- A host access, one atomic step (42_host_interface.md R230): decode it and run the instruction; an access the
decoder does not accept gets a bus error response (20_memory.md R71). -/
def runAccess (a : Access) (s : State) : Result :=
  match decodeAccess a with
  | .ok i => exec i s
  | .error _ => .next (busErrorResponse s)

/-- The access to the window that a bus transaction from the byte address `addr` is: the register at offset o has its byte
k, 0 the least significant, at KECCAK_BASE + o + k (20_memory.md R72). -/
def busAccess (s : State) (d : Dir) (addr : Word) (bytes : List Byte) : Access where
  dir := d
  width := 8 * bytes.length
  offset := BitVec.ofNat 12 (addr.toNat - windowBase s)
  value := BitVec.ofNat 64 (leNat bytes)

/-- The value of a register read as the bytes of the bus, least significant first (20_memory.md R72). -/
def State.answerInBytes (s : State) : State :=
  match s.response with
  | .readData v => s.respond (.readBytes (leBytes 8 v.toNat))
  | .none => s
  | .readBytes _ => s
  | .writeDone => s
  | .busError => s

/-- The answer of a register read, over the bus. -/
def answerOverBus : Result → Result
  | .next s => .next s.answerInBytes
  | .fault f => .fault f
  | .refused r => .refused r

/-- A transaction from outside the window that runs into it, or past the address space (log 19). -/
def busGoesWrong (s : State) (addr n : Nat) : Bool :=
  rangesMeet addr n (windowBase s) 0x1000 || addr + n > 2 ^ 64

/-- A bus write: an access to the window (20_memory.md R71, R72), or stores to system memory (log 19). -/
def runBusWrite (addr : Word) (bytes : List Byte) (s : State) : Result :=
  if inWindow s addr.toNat then runAccess (busAccess s .write addr bytes) s
  else if busGoesWrong s addr.toNat bytes.length then .next (busErrorResponse s)
  else .next (agentStoreBytes addr.toNat bytes s)

/-- A bus read: an access to the window (20_memory.md R71, R72), or loads from system memory (log 19). -/
def runBusRead (addr : Word) (n : Nat) (s : State) : Result :=
  if inWindow s addr.toNat then
    answerOverBus (runAccess (busAccess s .read addr (List.replicate n 0)) s)
  else if busGoesWrong s addr.toNat n then .next (busErrorResponse s)
  else .next (agentLoadBytes addr.toNat n s)

end Sys2Proof.Machine
end

