-- ==== Sys2Proof/Machine/Engine.lean ====
section
/-! DEFINITION. The engine: what each phase of the sequencer does in one step (40_permutation.md R140 to R148; 41_sponge.md
R186 to R191; 42_host_interface.md R248, R249). -/

namespace Sys2Proof.Machine

/-- STEP: the one step of CLEAR, THETA, RHO, PI, CHI, IOTA and ROUND, then completion (40_permutation.md R140 to R148). -/
def stepPhase (s : State) : Result :=
  match s.op with
  | .clear => .next (s.setLanes zeroLanes).complete
  | .theta => .next (s.mapLanes theta).complete
  | .rho => .next (s.mapLanes rho).complete
  | .pi => .next (s.mapLanes pi).complete
  | .chi => .next (s.mapLanes chi).complete
  | .iota => .next (s.mapLane 0 (· ^^^ roundConstant s.arg)).complete
  | .round => .next (s.mapLanes (keccakRound · s.arg)).complete
  | .nop => .fault .sequencerNeverLoaded
  | .permute => .fault .sequencerNeverLoaded
  | .hash => .fault .sequencerNeverLoaded

/-- A <- Round(A, RND) (40_permutation.md R147; 41_sponge.md R187). -/
def State.applyRound (s : State) : State := s.mapLanes (keccakRound · s.rnd)

/-- RND <- RND + 1. -/
def State.nextRound (s : State) : State := { s with rnd := s.rnd + 1 }

/-- The end of a block's permutation: BLOCKS <- BLOCKS + 1, then WRITE or ABSORB (41_sponge.md R187). -/
def State.endBlock (s : State) : State :=
  { s with
    blocks := s.blocks + 1
    phase := if s.k = rateBytes * s.nblk then .write else .absorb
    widx := if s.k = rateBytes * s.nblk then 0 else s.widx }

/-- PERM: one round (40_permutation.md R147; 41_sponge.md R187). -/
def permPhase (s : State) : Result :=
  match s.op with
  | .permute => .next (if s.rnd = 23 then s.applyRound.complete else s.applyRound.nextRound)
  | .hash => .next (if s.rnd < 23 then s.applyRound.nextRound else s.applyRound.endBlock)
  | .nop => .fault .sequencerNeverLoaded
  | .clear => .fault .sequencerNeverLoaded
  | .round => .fault .sequencerNeverLoaded
  | .theta => .fault .sequencerNeverLoaded
  | .rho => .fault .sequencerNeverLoaded
  | .pi => .fault .sequencerNeverLoaded
  | .chi => .fault .sequencerNeverLoaded
  | .iota => .fault .sequencerNeverLoaded

/-- K <- K + 1; after the 136th byte of a block PHASE <- PERM and RND <- 0 (41_sponge.md R186). -/
def State.nextByte (s : State) : State :=
  { s with
    k := s.k + 1
    phase := if s.k % rateBytes = 135 then .perm else s.phase
    rnd := if s.k % rateBytes = 135 then 0 else s.rnd }

/-- The XOR of padded-message byte K, `m` being the input byte (41_sponge.md R184, R186). -/
def State.absorbByte (m : Byte) (s : State) : State :=
  (s.mapLane (s.k % rateBytes / 8)
    (xorByte (s.k % rateBytes) (padByte s.len.toNat s.nblk s.k m))).nextByte

/-- A source read got a bus error: READ_FAULT with the lowest address of the transaction, the lanes hold any value, abort
(41_sponge.md R190; 20_memory.md R76). -/
def State.readFault (first : Nat) (s : State) : State :=
  (s.recordError .readFault (BitVec.ofNat 64 first)).loseLanes.abort

/-- A digest write got a bus error: WRITE_FAULT with the lowest address of the transaction, the digest bytes from there
on hold any value and those before it the digest's, abort (41_sponge.md R191; 20_memory.md R76). -/
def State.writeFault (first : Nat) (s : State) : State :=
  { (s.recordError .writeFault (BitVec.ofNat 64 first)).abort with
    mem := Memory.forget s.mem first (digestAddr s digestBytes - first)
    digested := s.digested.filter fun e => !inDigest s e.addr }

/-- An input byte is absorbed and noted as taken. -/
def State.takeByte (m : Byte) (s : State) : State :=
  { s.absorbByte m with taken := s.taken ++ [m] }

/-- `MemRead(SRC + K, 1)` has returned: its byte is absorbed, a free value where it is any value. -/
def State.absorbRead (s : State) : State :=
  match s.dmaByte (sourceAddr s s.k) with
  | some b => s.takeByte b
  | none => (s.drawIf true).takeByte (Config.freeByte s.draws)

/-- ABSORB of an input byte: the platform answers the transaction that covers SRC + K (41_sponge.md R186, R190). DESIGN CHOICE
(log 7): the spec does not say at which byte's step; the model asks at each byte's step, for the whole transaction. -/
def absorbInput (s : State) : Result :=
  if 2 ^ 64 ≤ sourceAddr s s.k then .fault .dmaOutsideAddressSpace
  else
    let t := s.transaction .read (sourceAddr s 0) (sourceAddr s s.len.toNat) (sourceAddr s s.k)
    match (s.blockedBy .read t.1 t.2).map RespRule.answer with
    | some .busError => .next (s.readFault t.1)
    | some .noAnswer => .next s
    | some (.data _) => .next s.absorbRead
    | none => .next s.absorbRead

/-- ABSORB (41_sponge.md R184, R186): an input byte while K < LEN, else a byte of padding. -/
def absorbPhase (s : State) : Result :=
  match s.op with
  | .hash => if s.k < s.len.toNat then absorbInput s else .next (s.absorbByte 0)
  | .nop => .fault .sequencerNeverLoaded
  | .clear => .fault .sequencerNeverLoaded
  | .permute => .fault .sequencerNeverLoaded
  | .round => .fault .sequencerNeverLoaded
  | .theta => .fault .sequencerNeverLoaded
  | .rho => .fault .sequencerNeverLoaded
  | .pi => .fault .sequencerNeverLoaded
  | .chi => .fault .sequencerNeverLoaded
  | .iota => .fault .sequencerNeverLoaded

/-- WIDX <- WIDX + 1. -/
def State.nextDigestByte (s : State) : State := { s with widx := s.widx + 1 }

/-- `MemWrite(DST + WIDX, 1, ...)` done; after the 32nd byte, completion (41_sponge.md R188). -/
def State.writeByte (s : State) : State :=
  let t :=
    ((s.dmaStore (digestAddr s s.widx) (byteOf (s.laneValue (s.widx / 8)) (s.widx % 8))).drawIf
      (s.laneIsAny (s.widx / 8))).nextDigestByte
  if s.widx + 1 = digestBytes then t.complete else t

/-- WRITE: the platform answers the transaction that covers DST + WIDX (41_sponge.md R188, R191). DESIGN CHOICE (log 7): the spec
does not say at which byte's step; the model asks at each byte's step, for the whole transaction. -/
def writeDigest (s : State) : Result :=
  if 2 ^ 64 ≤ digestAddr s s.widx then .fault .dmaOutsideAddressSpace
  else
    let t := s.transaction .write (digestAddr s 0) (digestAddr s digestBytes) (digestAddr s s.widx)
    match (s.blockedBy .write t.1 t.2).map RespRule.answer with
    | some .busError => .next (s.writeFault t.1)
    | some .noAnswer => .next s
    | some (.data _) => .next s.writeByte
    | none => .next s.writeByte

/-- WRITE, of a HASH only (41_sponge.md R188). -/
def writePhase (s : State) : Result :=
  match s.op with
  | .hash => writeDigest s
  | .nop => .fault .sequencerNeverLoaded
  | .clear => .fault .sequencerNeverLoaded
  | .permute => .fault .sequencerNeverLoaded
  | .round => .fault .sequencerNeverLoaded
  | .theta => .fault .sequencerNeverLoaded
  | .rho => .fault .sequencerNeverLoaded
  | .pi => .fault .sequencerNeverLoaded
  | .chi => .fault .sequencerNeverLoaded
  | .iota => .fault .sequencerNeverLoaded

/-- The engine's step, the one PHASE gives while BUSY = 1; without one the state stays (42_host_interface.md R249). -/
def engineStep (s : State) : Result :=
  if s.busy then
    match s.phase with
    | .idle => .fault .sequencerNeverLoaded
    | .step => stepPhase s
    | .perm => permPhase s
    | .absorb => absorbPhase s
    | .write => writePhase s
  else .next s

end Sys2Proof.Machine
end

