-- ==== Sys2Proof/Machine/Step.lean ====
section
/-! DEFINITION. One step of the machine: the next event from outside, or, when none is waiting, the engine's turn
(00_scope.md R17; 42_host_interface.md R230, R249; log 1). -/

namespace Sys2Proof.Machine

/-- The events still to come are `es`. -/
def State.withInputs (es : List Event) (s : State) : State := { s with inputs := es }

/-- One event. -/
def runEvent (e : Event) (s : State) : Host.Outcome State Fault Refusal :=
  match e with
  | .access a => runAccess a s
  | .engine => engineStep s
  | .reset => .next (resetBlock s)
  | .memStore a b visible => .next (agentStore a b visible s)
  | .memLoad a => .next (agentLoad a s)
  | .busWrite addr bytes => runBusWrite addr bytes s
  | .busRead addr n => runBusRead addr n s
  | .memResp rules => .next (setMemResp rules s)
  | .agent g => .next (setAgent g s)

/-- One step of the machine. -/
def step (s : State) : Host.Outcome State Fault Refusal :=
  match s.inputs with
  | [] => engineStep s
  | e :: es => runEvent e (s.withInputs es)

/-- `s` with the access of a table row's word as its next event (log 2). -/
def State.withFetchWord (s : State) (nbits w : Nat) : State :=
  { s with inputs := .access (tableAccess nbits w) :: s.inputs }

end Sys2Proof.Machine
end

