-- ==== Sys2Proof/Machine/HostProgram.lean ====
section
/-! DEFINITION. Host programs as events: the statements and pseudo-instructions of 30_encoding.md R108 and R109, and the
source's call `keccak256(input, length, output)` (42_host_interface.md R250). -/

namespace Sys2Proof.Machine

/-- The register names of the assembler syntax (30_encoding.md R108). -/
inductive Reg where
  | lane (i : Nat)
  | id
  | ctrl
  | status
  | cmd
  | src
  | len
  | dst
  | blocks
  | faultAddr
  deriving DecidableEq, Repr

/-- The offset a register name stands for (10_state.md R35). -/
def Reg.offset : Reg → BitVec 12
  | .lane i => BitVec.ofNat 12 (8 * i)
  | .id => 0x100
  | .ctrl => 0x108
  | .status => 0x110
  | .cmd => 0x118
  | .src => 0x120
  | .len => 0x128
  | .dst => 0x130
  | .blocks => 0x138
  | .faultAddr => 0x140

/-- `wr reg, imm` (30_encoding.md R108). -/
def wr (r : Reg) (v : Word) : Event := .access { dir := .write, width := 64, offset := r.offset, value := v }

/-- `rd reg` (30_encoding.md R108). -/
def rd (r : Reg) : Event := .access { dir := .read, width := 64, offset := r.offset, value := 0 }

/-- `mem addr, bytes` (30_encoding.md R108): a host store of a byte string, one bus write. DESIGN CHOICE (log 19): R108 is
silent on bytes that run past address 2^64 - 1; the write gets a bus error, as every bus write that runs past it does. -/
def memBytes (a : Word) (bytes : List Byte) : List Event := [.busWrite a bytes]

/-- The pseudo-instructions (30_encoding.md R109). -/
inductive Pseudo where
  | cmd (op : Op) (r : Nat)
  | lane (i : Nat) (v : Word)
  | wait
  | ack
  | hash (s n d : Word)
  | perm
  deriving DecidableEq, Repr

/-- The call of the source as a host sequence, up to the wait (42_host_interface.md R250). -/
def keccakCall (s n d : Word) : List Event :=
  [wr .src s, wr .len n, wr .dst d, wr .cmd (commandWord .hash 0)]

/-- The expansions (30_encoding.md R109). `wait` is one poll of STATUS: its loop is the host's own control flow. -/
def Pseudo.expand : Pseudo → List Event
  | .cmd op r => [wr .cmd (commandWord op r)]
  | .lane i v => [wr (.lane i) v]
  | .wait => [rd .status]
  | .ack => [wr .status 0x6]
  | .hash s n d => keccakCall s n d ++ [rd .status]
  | .perm => [wr .cmd (commandWord .permute 0), rd .status]

end Sys2Proof.Machine
end

