-- ==== Sys2Proof/Safety.lean ====
section
/-! DEFINITION. What a sound state and a safe run are: the invariant the spec gives the registers and the sequencer
(10_state.md R38, R50; 41_sponge.md R183 to R188, R198), and the ways the engine moves. -/

namespace Sys2Proof.Machine

/-- STATUS (10_state.md R38, R50): PHASE is IDLE exactly when BUSY = 0; DONE and BUSY are never both 1; ERRCODE is 0
exactly when ERR is 0, and one of 0x01 to 0x05 otherwise. -/
structure StatusOk (s : State) : Prop where
  idle_iff  : s.phase = .idle ↔ s.busy = false
  not_both  : ¬(s.done = true ∧ s.busy = true)
  no_error  : s.err = false → s.errcode = 0
  the_error : s.err = true → 1 ≤ s.errcode.toNat ∧ s.errcode.toNat ≤ 5

/-- The sequencer of a command that is not HASH (10_state.md R50; 42_host_interface.md R234). -/
structure StepOk (s : State) : Prop where
  step_op : s.phase = .step →
    s.op = .clear ∨ s.op = .theta ∨ s.op = .rho ∨ s.op = .pi ∨ s.op = .chi ∨ s.op = .iota ∨ s.op = .round
  arg_le  : s.phase = .step → (s.op = .iota ∨ s.op = .round) → s.arg ≤ 23
  perm_op : s.phase = .perm → s.op = .permute ∨ s.op = .hash
  rnd_le  : s.phase = .perm → s.rnd ≤ 23

/-- The sequencer of a HASH in progress (10_state.md R50; 41_sponge.md R183 to R188). -/
structure HashOk (s : State) : Prop where
  op_hash   : s.phase = .absorb ∨ s.phase = .write → s.op = .hash
  ranges    : s.hashBusy = true → rangeFails s = false ∧ hashMeetsWindow s = false
  nblk_eq   : s.hashBusy = true → s.nblk = blockCount s.len.toNat
  absorbing : s.phase = .absorb → s.k < rateBytes * s.nblk ∧ s.blocks.toNat = s.k / rateBytes
  permuting : s.phase = .perm → s.op = .hash →
    s.k = rateBytes * (s.blocks.toNat + 1) ∧ s.k ≤ rateBytes * s.nblk
  writing   : s.phase = .write →
    s.k = rateBytes * s.nblk ∧ s.blocks.toNat = s.nblk ∧ s.widx < digestBytes

/-- The lanes of a HASH in progress are those of the bytes it has taken (41_sponge.md R184 to R187, R189): the first K
bytes of the input, or all. -/
structure ReplayOk (s : State) : Prop where
  taken_len : s.hashBusy = true → s.taken.length = min s.k s.len.toNat
  known     : s.hashBusy = true → s.laneAny = Vector.replicate 25 false
  lanes_eq  : s.hashBusy = true → s.lanes = s.replayLanes

/-- The memory is in canonical form, and no race is on record unless a HASH is busy (20_memory.md R70, R84). -/
structure MemoryOk (s : State) : Prop where
  mem_wf   : Memory.wf s.mem
  no_races : s.hashBusy = false → s.raced = []

/-- The invariant of the machine. -/
structure Inv (s : State) : Prop where
  status : StatusOk s
  seq    : StepOk s
  hash   : HashOk s
  replay : ReplayOk s
  memory : MemoryOk s

/-- A step that is no fault: a next state, or the refusal of 93_implementation_defined.md U9. -/
def SafeStep (s : State) : Prop := ∀ f : Fault, step s ≠ .fault f

/-- `n` engine steps, as `step` makes them when no event waits. -/
def engineRun : Nat → State → Host.Outcome State Fault Refusal
  | 0, s => .next s
  | n + 1, s =>
    match engineStep s with
    | .next s' => engineRun n s'
    | .fault f => .fault f
    | .refused r => .refused r

end Sys2Proof.Machine
end

