-- ==== Sys2Proof/Certificates/Slice0/Obligations.lean ====
section
/-! DEFINITION. The statements about the machine. `Sys2Proof.Spec` holds what they need in the spec's own terms, written
apart from the machine's functions: the coordinates of a lane, the generators of the tables, the padding, the sponge. -/

namespace Sys2Proof.Spec

open Sys2Proof.Machine

/-- A[x, y] (00_scope.md R13). -/
def at2 (A : Lanes) (x y : Nat) : Word := lane A (x + 5 * y)

/-- The XOR of column x, C[x] (40_permutation.md R134). -/
def parity (A : Lanes) (x : Nat) : Word := at2 A x 0 ^^^ at2 A x 1 ^^^ at2 A x 2 ^^^ at2 A x 3 ^^^ at2 A x 4

/-- One shift of the LFSR x^8 + x^6 + x^5 + x^4 + 1 (40_permutation.md R131). -/
def lfsrNext (r : Nat) : Nat := if 2 * r < 256 then 2 * r else (2 * r % 256) ^^^ 0x71

/-- The LFSR after t shifts, from 1. -/
def lfsr : Nat → Nat
  | 0 => 1
  | t + 1 => lfsrNext (lfsr t)

/-- rc(t), the output bit (40_permutation.md R131). -/
def rcBit (t : Nat) : Nat := lfsr (t % 255) % 2

/-- RC[r] from the generator: bit 2^j - 1 is rc(j + 7r), for j = 0..6 (40_permutation.md R131). -/
def rcOf (r : Nat) : Nat := ((List.range 7).map fun j => rcBit (j + 7 * r) * 2 ^ (2 ^ j - 1)).sum

/-- The walk of the rho generator: the cell (x, y) at time t (40_permutation.md R132). -/
def rhoCell : Nat → Nat × Nat
  | 0 => (1, 0)
  | t + 1 => ((rhoCell t).2, (2 * (rhoCell t).1 + 3 * (rhoCell t).2) % 5)

/-- No lane holds any value (93_implementation_defined.md U5). -/
def LanesKnown (s : State) : Prop := s.laneAny = Vector.replicate 25 false

/-- What lane i is seen as by draw number n: A[i], or a free value where the lane holds any value (93_implementation_defined.md
U5; log 4). -/
def seen (s : State) (n i : Nat) : Word :=
  if s.laneAny[i]? = some true then Config.freeWord n i else lane s.lanes i

/-- The 25 lanes as seen by the next draw. -/
def seenLanes (s : State) : Lanes := lanesOf (seen s s.draws)

/-- The draws of a step that sees all 25 lanes. -/
def lanesDrawn (s : State) : Nat := if s.laneAny = Vector.replicate 25 false then 0 else 1

/-- The draws of a step that sees lane i. -/
def laneDrawn (s : State) (i : Nat) : Nat := if s.laneAny[i]? = some true then 1 else 0

/-- The padding of an input of `l` bytes, in the two cases of 41_sponge.md R185. -/
def padding (l : Nat) : List Byte :=
  if l % 136 = 135 then [0x81] else 0x01 :: (List.replicate (134 - l % 136) 0x00 ++ [0x80])

/-- The padded message P (41_sponge.md R184). -/
def padded (M : List Byte) : List Byte := M ++ padding M.length

/-- LE64(P, o) (00_scope.md R16). -/
def le64 (P : List Byte) (o : Nat) : Word := BitVec.ofNat 64 (leNat ((P.drop o).take 8))

/-- Block b XORed into the first 17 lanes (41_sponge.md R189). -/
def absorbBlock (P : List Byte) (b : Nat) (A : Lanes) : Lanes :=
  lanesOf fun j => if j < 17 then lane A j ^^^ le64 P (136 * b + 8 * j) else lane A j

/-- The 24 rounds in increasing order (40_permutation.md R139). -/
def permuted (A : Lanes) : Lanes := (List.range 24).foldl keccakRound A

/-- The state after `n` blocks (41_sponge.md R189). -/
def sponge (P : List Byte) : Nat → Lanes
  | 0 => zeroLanes
  | n + 1 => permuted (absorbBlock P n (sponge P n))

/-- The final state of HASH on the message M (41_sponge.md R189). -/
def finalLanes (M : List Byte) : Lanes := sponge (padded M) (M.length / 136 + 1)

/-- Digest byte k of the message M (41_sponge.md R189; 20_memory.md R75). -/
def digest (M : List Byte) (k : Nat) : Byte :=
  BitVec.ofNat 8 ((lane (finalLanes M) (k / 8)).toNat / 2 ^ (8 * (k % 8)))

/-- The state after a rejection with the error code `c` (60_exceptions.md R272); the response is the model's own field. -/
def rejected (c : BitVec 8) (s : State) : State :=
  { s with err := true, errcode := if s.err then s.errcode else c, response := .writeDone }

/-- The state after the acceptance of a STEP command (42_host_interface.md R234). -/
def stepAccepted (op : Op) (r : Nat) (s : State) : State :=
  { s with busy := true, done := false, phase := .step, op := op, arg := r, response := .writeDone }

/-- The state after a STEP command has completed with the lanes A (42_host_interface.md R248). -/
def stepCompleted (op : Op) (r : Nat) (A : Lanes) (s : State) : State :=
  { s with
    lanes := A, busy := false, done := true, phase := .idle, op := op, arg := r, raced := [],
    response := .writeDone }

/-- The state after the acceptance of PERMUTE (40_permutation.md R147). -/
def permuteAccepted (s : State) : State :=
  { s with busy := true, done := false, phase := .perm, op := .permute, rnd := 0, response := .writeDone }

/-- The state after the acceptance of HASH (41_sponge.md R181, R182). -/
def hashAccepted (s : State) : State :=
  { s with
    busy := true, done := false, op := .hash, lanes := Vector.replicate 25 0,
    laneAny := Vector.replicate 25 false, blocks := 0, nblk := s.len.toNat / 136 + 1, k := 0,
    phase := .absorb, raced := [], taken := [], response := .writeDone }

/-- The range check of HASH fails (41_sponge.md R183). -/
def RangeError (s : State) : Prop :=
  (0 < s.len.toNat ∧ s.src.toNat + s.len.toNat > 2 ^ 64) ∨ s.dst.toNat + 32 > 2 ^ 64

/-- An address of HASH's source or destination range lies in the block's window (20_memory.md R80; U9). -/
def MeetsWindow (s : State) : Prop :=
  ∃ a, s.platform.basePage.toNat * 0x1000 ≤ a ∧ a < s.platform.basePage.toNat * 0x1000 + 0x1000 ∧
    ((s.src.toNat ≤ a ∧ a < s.src.toNat + s.len.toNat) ∨ (s.dst.toNat ≤ a ∧ a < s.dst.toNat + 32))

/-- The address lies in the block's window (20_memory.md R70, R81). -/
def InWindow (s : State) (a : Nat) : Prop :=
  s.platform.basePage.toNat * 0x1000 ≤ a ∧ a < s.platform.basePage.toNat * 0x1000 + 0x1000

/-- A digest byte stands at the address that agent g has yet to read STATUS with DONE = 1 for (20_memory.md R84 H-3; the
record is the model's own, log 12). -/
def UnreadBy (s : State) (g a : Nat) : Prop := ∃ e ∈ s.digested, e.addr = a ∧ g ∉ e.readers

/-- A CLEAR, THETA, RHO, PI, CHI, IOTA or ROUND command: accepted, then done in one engine step with the lanes A. -/
def RunsInOneStep (i : Instr) (op : Op) (r : Nat) (A : Lanes) (s : State) : Prop :=
  exec i s = .next (stepAccepted op r s) ∧
    engineStep (stepAccepted op r s) = .next (stepCompleted op r A s)

/-- A rule of MemResp by which a transaction of direction d over [first, last] ends without data (00_scope.md R10; log 8). -/
def Blocks (r : RespRule) (d : Dir) (first last : Nat) : Prop :=
  r.dir = d ∧ (r.answer = .busError ∨ r.answer = .noAnswer) ∧
    ∃ x, first ≤ x ∧ x ≤ last ∧ r.base ≤ x ∧ x < r.base + r.size

/-- The first such rule gives the answer `ans`. -/
def GetsAnswer (s : State) (d : Dir) (first last : Nat) (ans : Answer) : Prop :=
  ∃ pre r post, s.platform.memResp = pre ++ r :: post ∧ r.answer = ans ∧ Blocks r d first last ∧
    ∀ q ∈ pre, ¬Blocks q d first last

/-- No rule is such a rule: the transaction ends with data. -/
def GetsData (s : State) (d : Dir) (first last : Nat) : Prop :=
  ∀ q ∈ s.platform.memResp, ¬Blocks q d first last

/-- A rule by which a device answers a read of the byte at a with b (20_memory.md R80). -/
def Gives (r : RespRule) (a : Nat) (b : Byte) : Prop :=
  r.dir = .read ∧ r.answer = .data b ∧ r.base ≤ a ∧ a < r.base + r.size

/-- What the block reads at a, `none` being any value: any value for a raced byte (20_memory.md R84 H-2), the byte of the
first device rule, or any value there for an unseen store (H-1), else the byte in memory. The order is log 12's. -/
def ReadsAs (s : State) (a : Nat) (v : Option Byte) : Prop :=
  (a ∈ s.raced ∧ v = none) ∨
  (a ∉ s.raced ∧ ∃ pre r post b, s.platform.memResp = pre ++ r :: post ∧ Gives r a b ∧
    (∀ q ∈ pre, ∀ b', ¬Gives q a b') ∧ v = if a ∈ s.unseen then none else some b) ∨
  (a ∉ s.raced ∧ (∀ q ∈ s.platform.memResp, ∀ b', ¬Gives q a b') ∧ v = Memory.read s.mem a)

/-- The transaction of the next source read covers [first, last] (20_memory.md R76). -/
def ReadCovers (s : State) (first last : Nat) : Prop :=
  s.transaction .read s.src.toNat (s.src.toNat + s.len.toNat) (s.src.toNat + s.k) = (first, last)

/-- The transaction of the next digest write covers [first, last] (20_memory.md R76). -/
def WriteCovers (s : State) (first last : Nat) : Prop :=
  s.transaction .write s.dst.toNat (s.dst.toNat + 32) (s.dst.toNat + s.widx) = (first, last)

/-- The engine is at an ABSORB step of a HASH. -/
def Absorbing (s : State) : Prop := s.busy = true ∧ s.phase = .absorb ∧ s.op = .hash

/-- The engine is at a WRITE step of a HASH. -/
def Writing (s : State) : Prop := s.busy = true ∧ s.phase = .write ∧ s.op = .hash

/-- The commands other than NOP, as instructions. -/
def workCommands (r : Nat) : List Instr :=
  [.clear, .permute, .hash, .theta, .rho, .pi, .chi, .round r, .iota r]

/-- The next event is a reset. -/
def ResetNext (s : State) : Prop := ∃ es, s.inputs = .reset :: es

/-- A write of w to CMD is the next event. -/
def cmd (op : Op) (r : Nat) : Event := wr .cmd (commandWord op r)

end Sys2Proof.Spec

open Sys2Proof Sys2Proof.Machine Sys2Proof.Spec

/-! ### Decoding -/

/-- The next event being an access that decodes to i, the step is exec of i once the event is taken; a CMD write of a
legal word is exec of its command (42_host_interface.md R230, R234). -/
def Obligations.StepRunsTheDecodedInstruction : Prop :=
  ∀ (s : State) (a : Access) (es : List Event), s.inputs = .access a :: es →
    (∀ i, decodeAccess a = .ok i → step s = exec i { s with inputs := es }) ∧
    (∀ op r, a.dir = .write → a.width = 64 → a.offset = 0x118 → decodeCommand a.value = .ok (op, r) →
      step s = exec (commandInstr op r) { s with inputs := es })

/-- Words written out from the spec's encodings decode to the instruction they stand for (30_encoding.md R102, R107). -/
def Obligations.WrittenOutWordsDecode : Prop :=
  decodeCommand 0x0000000000001703 = .ok (.round, 23) ∧
  decodeCommand 0x0000000000000514 = .ok (.iota, 5) ∧
  decodeTableWord 64 0x0000000000000004 = some .hash ∧
  decodeTableWord 64 0x0000000000000013 = some .chi ∧
  decodeTableWord 16 0x10C0 = some (.wrLane 24 0) ∧
  decodeTableWord 16 0x0110 = some .rdStatus ∧
  decodeTableWord 16 0x1130 = some (.wrDst 0) ∧
  decodeTableWord 16 0x0FF8 = some (.rdWrReserved .read 511 0)

/-- Decoding the encoding of a well-formed instruction gives the instruction back, with every operand. -/
def Obligations.DecodeOfEncodeIsTheInstruction : Prop :=
  ∀ i : Instr, i.wellFormed = true → decode (encode i) = .ok i

/-- The command decoder accepts exactly the ten command words, ROUND and IOTA with r in 0..23 (30_encoding.md R103). -/
def Obligations.CommandWordsDecodeExactly : Prop :=
  ∀ (w : Word) (op : Op) (r : Nat),
    decodeCommand w = .ok (op, r) ↔
      (w = commandWord op r ∧ if op = .round ∨ op = .iota then r ≤ 23 else r = 0)

/-- The illegal words are those of 30_encoding.md R104 (a) to (d), and while idle one records ILLEGAL_CMD and does
nothing else (DONE is cleared, 42_host_interface.md R234). -/
def Obligations.IllegalWordsByCause : Prop :=
  ∀ w : Word,
    ((∃ e, decodeCommand w = .error e) ↔
      (w.toNat / 2 ^ 13 ≠ 0 ∨
       w.toNat % 256 ∉ [0x00, 0x01, 0x02, 0x03, 0x04, 0x10, 0x11, 0x12, 0x13, 0x14] ∨
       (w.toNat / 256 % 32 ≠ 0 ∧ w.toNat % 256 ≠ 0x03 ∧ w.toNat % 256 ≠ 0x14) ∨
       ((w.toNat % 256 = 0x03 ∨ w.toNat % 256 = 0x14) ∧ 24 ≤ w.toNat / 256 % 32))) ∧
    ((∃ e, decodeCommand w = .error e) → ∀ s : State, s.busy = false →
      exec (.wrCmd w) s = .next (rejected 0x01 { s with done := false }))

/-- The offset of an access selects the register of 30_encoding.md R107. -/
def Obligations.OffsetsSelectRegisters : Prop :=
  ∀ (a : Access) (o : Nat), o = a.offset.toNat →
    ((o % 8 ≠ 0 ∨ a.width ≠ 64) → ∃ e, decodeAccess a = .error e) ∧
    (o % 8 = 0 → a.width = 64 →
      (o ≤ 0x0C0 → a.dir = .write → decodeAccess a = .ok (.wrLane (o / 8) a.value)) ∧
      (o ≤ 0x0C0 → a.dir = .read → decodeAccess a = .ok (.rdLane (o / 8))) ∧
      ((0x0C8 ≤ o ∧ o ≤ 0x0F8 ∨ 0x148 ≤ o) → a.dir = .write →
        decodeAccess a = .ok (.rdWrReserved .write (o / 8) a.value)) ∧
      ((0x0C8 ≤ o ∧ o ≤ 0x0F8 ∨ 0x148 ≤ o) → a.dir = .read →
        decodeAccess a = .ok (.rdWrReserved .read (o / 8) 0)) ∧
      (o = 0x100 → decodeAccess a = .ok (if a.dir = .write then .wrId a.value else .rdId)) ∧
      (o = 0x108 → decodeAccess a = .ok (if a.dir = .write then .wrCtrl a.value else .rdCtrl)) ∧
      (o = 0x110 → decodeAccess a = .ok (if a.dir = .write then .wrStatus a.value else .rdStatus)) ∧
      (o = 0x118 → decodeAccess a = .ok (if a.dir = .write then .wrCmd a.value else .rdCmd)) ∧
      (o = 0x120 → decodeAccess a = .ok (if a.dir = .write then .wrSrc a.value else .rdSrc)) ∧
      (o = 0x128 → decodeAccess a = .ok (if a.dir = .write then .wrLen a.value else .rdLen)) ∧
      (o = 0x130 → decodeAccess a = .ok (if a.dir = .write then .wrDst a.value else .rdDst)) ∧
      (o = 0x138 → decodeAccess a = .ok (if a.dir = .write then .wrBlocks a.value else .rdBlocks)) ∧
      (o = 0x140 →
        decodeAccess a = .ok (if a.dir = .write then .wrFaultAddr a.value else .rdFaultAddr)))

/-- An access at an offset that is no multiple of 8, or not 64 bits wide, gets a bus error response and changes no
state of the block (20_memory.md R71). -/
def Obligations.WrongAccessesGetABusError : Prop :=
  ∀ (s : State) (a : Access) (es : List Event), s.inputs = .access a :: es →
    (a.offset.toNat % 8 ≠ 0 ∨ a.width ≠ 64) →
      step s = .next { s with inputs := es, response := .busError }

/-- Over the bus, byte k of the register at offset o is at the bus address KECCAK_BASE + o + k, byte 0 the least significant:
a bus write of 8 bytes there is the access that writes their value, and a bus read of 8 bytes there answers with the bytes
of the value the access reads (20_memory.md R72). The event's form is log 19's. -/
def Obligations.BusBytesAreLittleEndian : Prop :=
  ∀ (s : State) (es : List Event) (o : BitVec 12) (addr v : Word) (bytes : List Byte) (h8 : bytes.length = 8),
    addr.toNat = s.platform.basePage.toNat * 0x1000 + o.toNat →
    (∀ k (hk : k < 8), bytes[k] = BitVec.ofNat 8 (v.toNat / 256 ^ k)) →
    (s.inputs = .busWrite addr bytes :: es →
      step s = step { s with inputs := .access ⟨.write, 64, o, v⟩ :: es }) ∧
    (s.inputs = .busRead addr 8 :: es →
      ∀ t, step { s with inputs := .access ⟨.read, 64, o, 0⟩ :: es } = .next t →
        t.response = .readData v → step s = .next { t with response := .readBytes bytes })

/-! ### The permutation -/

/-- theta (40_permutation.md R134). -/
def Obligations.ThetaAddsTwoColumnParities : Prop :=
  ∀ (A : Lanes) (x y : Nat), x ≤ 4 → y ≤ 4 →
    at2 (theta A) x y =
      at2 A x y ^^^ (parity A ((x + 4) % 5) ^^^ (parity A ((x + 1) % 5)).rotateLeft 1)

/-- rho (40_permutation.md R135): each lane is rotated left by its offset, lane 0 is unchanged. -/
def Obligations.RhoRotatesEachLane : Prop :=
  ∀ (A : Lanes) (i : Nat), i ≤ 24 →
    lane (rho A) i = (lane A i).rotateLeft (rhoOffset i) ∧ lane (rho A) 0 = lane A 0

/-- pi, both forms of its index map (40_permutation.md R133, R136). -/
def Obligations.PiRelocatesLanes : Prop :=
  ∀ (A : Lanes) (x y : Nat), x ≤ 4 → y ≤ 4 →
    at2 (pi A) y ((2 * x + 3 * y) % 5) = at2 A x y ∧
    at2 (pi A) x y = at2 A ((x + 3 * y) % 5) x

/-- chi (40_permutation.md R137). -/
def Obligations.ChiCombinesARow : Prop :=
  ∀ (A : Lanes) (x y : Nat), x ≤ 4 → y ≤ 4 →
    at2 (chi A) x y = at2 A x y ^^^ (~~~ at2 A ((x + 1) % 5) y &&& at2 A ((x + 2) % 5) y)

/-- iota changes lane 0 only (40_permutation.md R138), and RC[r] is the generator's constant (R131). -/
def Obligations.IotaAddsTheRoundConstant : Prop :=
  ∀ (A : Lanes) (r : Nat), r ≤ 23 →
    lane (iota A r) 0 = lane A 0 ^^^ BitVec.ofNat 64 (rcOf r) ∧
    ∀ i, 1 ≤ i → lane (iota A r) i = lane A i

/-- RHO[0] = 0 and the other 24 offsets are those of the walk (40_permutation.md R132). -/
def Obligations.RhoOffsetsAreTheWalk : Prop :=
  rhoOffset 0 = 0 ∧
    ∀ t, t ≤ 23 → rhoOffset ((rhoCell t).1 + 5 * (rhoCell t).2) = (t + 1) * (t + 2) / 2 % 64

/-! ### Commands -/

/-- NOP (42_host_interface.md R235). -/
def Obligations.NopDoesNothing : Prop :=
  (∀ s : State, exec .nop s = .next { s with response := .writeDone }) ∧
  (∀ s : State, exec (.wrCmd 0) s = .next { s with response := .writeDone }) ∧
  ∀ w : Word, w.toNat % 256 = 0x00 → w ≠ 0 → ∃ e, decodeCommand w = .error e

/-- CLEAR, THETA, RHO, PI, CHI, IOTA r and ROUND r on known lanes: accepted while idle, and done in one engine step with
the lanes of the rule; nothing else changes but STATUS and the sequencer (40_permutation.md R140 to R146, R148). -/
def Obligations.StageCommandsRunInOneStep : Prop :=
  ∀ s : State, s.busy = false → LanesKnown s →
    RunsInOneStep .clear .clear s.arg (Vector.replicate 25 0) s ∧
    RunsInOneStep .theta .theta s.arg (theta s.lanes) s ∧
    RunsInOneStep .rho .rho s.arg (rho s.lanes) s ∧
    RunsInOneStep .pi .pi s.arg (pi s.lanes) s ∧
    RunsInOneStep .chi .chi s.arg (chi s.lanes) s ∧
    ∀ r, r ≤ 23 →
      RunsInOneStep (.iota r) .iota r (iota s.lanes r) s ∧
      RunsInOneStep (.round r) .round r (iota (chi (pi (rho (theta s.lanes)))) r) s

/-- Every stage command is accepted while idle whatever the lanes hold. Its engine step sees a free value for each lane
that holds any value and leaves no lane it writes with any value: CLEAR leaves all 25 zero, IOTA writes lane 0 alone
(40_permutation.md R140 to R146; 93_implementation_defined.md U5; log 4). -/
def Obligations.StageCommandsRunOnAnyLanes : Prop :=
  ∀ s : State, s.busy = false →
    (exec .clear s = .next (stepAccepted .clear s.arg s) ∧
      engineStep (stepAccepted .clear s.arg s) =
        .next { stepCompleted .clear s.arg (Vector.replicate 25 0) s with laneAny := Vector.replicate 25 false }) ∧
    (∀ p ∈ [(Instr.theta, Op.theta, theta), (.rho, .rho, rho), (.pi, .pi, pi), (.chi, .chi, chi)],
      exec p.1 s = .next (stepAccepted p.2.1 s.arg s) ∧
      engineStep (stepAccepted p.2.1 s.arg s) =
        .next { stepCompleted p.2.1 s.arg (p.2.2 (seenLanes s)) s with
          laneAny := Vector.replicate 25 false, draws := s.draws + lanesDrawn s }) ∧
    ∀ r, r ≤ 23 →
      (exec (.round r) s = .next (stepAccepted .round r s) ∧
        engineStep (stepAccepted .round r s) =
          .next { stepCompleted .round r (iota (chi (pi (rho (theta (seenLanes s))))) r) s with
            laneAny := Vector.replicate 25 false, draws := s.draws + lanesDrawn s }) ∧
      exec (.iota r) s = .next (stepAccepted .iota r s) ∧
      ∃ t, engineStep (stepAccepted .iota r s) = .next t ∧
        lane t.lanes 0 = seen s s.draws 0 ^^^ BitVec.ofNat 64 (rcOf r) ∧ t.laneAny[0]? = some false ∧
        (∀ i, 1 ≤ i → lane t.lanes i = lane s.lanes i ∧ t.laneAny[i]? = s.laneAny[i]?) ∧
        t = { stepCompleted .iota r t.lanes s with
          laneAny := t.laneAny, draws := s.draws + laneDrawn s 0 }

/-- PERMUTE: accepted while idle, and after 24 engine steps the lanes are KeccakF of the lanes, seen with a free value
where a lane holds any value (40_permutation.md R147; 93_implementation_defined.md U5; log 4). -/
def Obligations.PermuteComputesKeccakF : Prop :=
  ∀ s : State, s.busy = false →
    exec .permute s = .next (permuteAccepted s) ∧
    engineRun 24 (permuteAccepted s) =
      .next { s with
        lanes := permuted (seenLanes s), laneAny := Vector.replicate 25 false, busy := false, done := true,
        phase := .idle, op := .permute, rnd := 23, raced := [], response := .writeDone,
        draws := s.draws + lanesDrawn s }

/-- HASH is accepted while idle when its range check passes and its ranges miss the window (41_sponge.md R181, R182). -/
def Obligations.HashIsAccepted : Prop :=
  ∀ s : State, s.busy = false → ¬RangeError s → ¬MeetsWindow s →
    exec .hash s = .next (hashAccepted s)

/-- A HASH whose range check fails is rejected with RANGE while idle (41_sponge.md R183; 60_exceptions.md R271). -/
def Obligations.HashRangeErrorIsRejected : Prop :=
  ∀ s : State, s.busy = false → RangeError s →
    exec .hash s = .next (rejected 0x03 { s with done := false })

/-- A HASH that passes the range check and meets the block's window is refused (20_memory.md R80; log 10). -/
def Obligations.HashOverTheWindowIsRefused : Prop :=
  ∀ s : State, s.busy = false → ¬RangeError s → MeetsWindow s →
    exec .hash s = .refused .hashRangeMeetsWindow

/-- While busy every command but NOP is rejected with BUSY and the running command goes on (42_host_interface.md R234;
60_exceptions.md R271); so is an illegal word. -/
def Obligations.CommandsAreRejectedWhileBusy : Prop :=
  ∀ s : State, s.busy = true →
    (∀ r, ∀ i ∈ workCommands r, exec i s = .next (rejected 0x02 s)) ∧
    ∀ w : Word, w ≠ 0 → exec (.wrCmd w) s = .next (rejected 0x02 s)

/-- A CMD write of a legal word other than NOP's is accepted while idle (42_host_interface.md R234), for HASH when the range
check passes and the ranges miss the window (log 10). ARG keeps its value for a command without one (log 5). -/
def Obligations.CmdWriteAcceptsItsCommand : Prop :=
  ∀ s : State, s.busy = false →
    (∀ op, op ∈ [Op.clear, .theta, .rho, .pi, .chi] →
      exec (.wrCmd (commandWord op 0)) s = .next (stepAccepted op s.arg s)) ∧
    (∀ op r, op ∈ [Op.iota, .round] → r ≤ 23 →
      exec (.wrCmd (commandWord op r)) s = .next (stepAccepted op r s)) ∧
    exec (.wrCmd 0x2) s = .next (permuteAccepted s) ∧
    (RangeError s → exec (.wrCmd 0x4) s = .next (rejected 0x03 { s with done := false })) ∧
    (¬RangeError s → ¬MeetsWindow s → exec (.wrCmd 0x4) s = .next (hashAccepted s))

/-- THETA, RHO, PI, CHI, IOTA r, each run to completion, leave the lanes of ROUND r, the same free values being drawn for
lanes that hold any value (40_permutation.md R146; log 4). -/
def Obligations.FiveStagesEqualARound : Prop :=
  ∀ (s : State) (r : Nat), s.busy = false → r ≤ 23 →
    ∃ t u : State,
      core.run 10 { s with inputs := [cmd .theta 0, .engine, cmd .rho 0, .engine, cmd .pi 0, .engine,
        cmd .chi 0, .engine, cmd .iota r, .engine] } = .next t ∧
      core.run 2 { s with inputs := [cmd .round r, .engine] } = .next u ∧
      t.lanes = u.lanes ∧ t.done = true ∧ u.done = true ∧ t.busy = false ∧ u.busy = false

/-- ROUND 0 to ROUND 23 in that order equal PERMUTE, the same free values being drawn for lanes that hold any value
(40_permutation.md R146; log 4). -/
def Obligations.RoundsInOrderEqualPermute : Prop :=
  ∀ s : State, s.busy = false →
    ∃ t u : State,
      core.run 48 { s with inputs := (List.range 24).flatMap fun r => [cmd .round r, .engine] } = .next t ∧
      core.run 25 { s with inputs := cmd .permute 0 :: List.replicate 24 .engine } = .next u ∧
      t.lanes = u.lanes ∧ t.done = true ∧ u.done = true

/-- IOTA r applied twice restores the lanes, where none holds any value (40_permutation.md R145). -/
def Obligations.IotaTwiceRestores : Prop :=
  ∀ (s : State) (r : Nat), s.busy = false → LanesKnown s → r ≤ 23 →
    ∃ t, core.run 4 { s with inputs := [cmd .iota r, .engine, cmd .iota r, .engine] } = .next t ∧
      t.lanes = s.lanes

/-! ### Register accesses -/

/-- WR LANE[i] while idle writes lane i alone, and a read then returns the value; while busy it is rejected with BUSY
(42_host_interface.md R236; 60_exceptions.md R272). That a rejected write is answered write done is the model's choice (log 9). -/
def Obligations.LaneWrites : Prop :=
  ∀ (s : State) (i : Nat) (v : Word), i ≤ 24 →
    (s.busy = false →
      ∃ t, exec (.wrLane i v) s = .next t ∧ lane t.lanes i = v ∧
        (∀ j, j ≠ i → lane t.lanes j = lane s.lanes j ∧ t.laneAny[j]? = s.laneAny[j]?) ∧
        t = { s with lanes := t.lanes, laneAny := t.laneAny, response := .writeDone } ∧
        exec (.rdLane i) t = .next { t with response := .readData v }) ∧
    (s.busy = true → exec (.wrLane i v) s = .next (rejected 0x02 s))

/-- RD LANE[i] returns A[i] while idle, and any value, a free value, while busy or where the lane holds any value
(42_host_interface.md R237; 93_implementation_defined.md U5, U8). -/
def Obligations.LaneReads : Prop :=
  ∀ (s : State) (i : Nat), i ≤ 24 →
    (s.busy = false → s.laneAny[i]? = some false →
      exec (.rdLane i) s = .next { s with response := .readData (lane s.lanes i) }) ∧
    (s.busy = true ∨ s.laneAny[i]? = some true →
      exec (.rdLane i) s =
        .next { s with response := .readData (Config.freeWord s.draws i), draws := s.draws + 1 })

/-- RD ID and WR ID (42_host_interface.md R238). -/
def Obligations.IdIsConstant : Prop :=
  ∀ (s : State) (v : Word),
    exec .rdId s = .next { s with response := .readData 0x4B45434301000100 } ∧
    exec (.wrId v) s = .next { s with response := .writeDone }

/-- WR CTRL sets the two enables and nothing else, and IRQ follows at once; RD CTRL returns them
(42_host_interface.md R239). -/
def Obligations.CtrlHoldsTheEnables : Prop :=
  ∀ (s : State) (v : Word),
    (∃ t, exec (.wrCtrl v) s = .next t ∧
      t = { s with ieDone := v.getLsbD 0, ieErr := v.getLsbD 1, response := .writeDone } ∧
      t.irq = ((s.done && v.getLsbD 0) || (s.err && v.getLsbD 1))) ∧
    ∃ x : Word, exec .rdCtrl s = .next { s with response := .readData x } ∧
      x.toNat = 2 * s.ieErr.toNat + s.ieDone.toNat

/-- RD STATUS: ERRCODE, IRQ, ERR, DONE and BUSY, IRQ being the level of 10_state.md R47 (42_host_interface.md R240).
With DONE = 1 the digest bytes written so far are no longer unread by the agent that reads, and stay so by any other
(20_memory.md R84 H-3; the record is the model's own, log 12). -/
def Obligations.StatusReads : Prop :=
  ∀ s : State, ∃ (x : Word) (t : State), exec .rdStatus s = .next t ∧
    t = { s with response := .readData x, digested := t.digested } ∧
    (s.done = false → t.digested = s.digested) ∧
    (s.done = true → ∀ g a, UnreadBy t g a ↔ UnreadBy s g a ∧ g ≠ s.agent) ∧
    x.toNat = 256 * s.errcode.toNat +
      8 * ((s.done && s.ieDone) || (s.err && s.ieErr)).toNat +
      4 * s.err.toNat + 2 * s.done.toNat + s.busy.toNat

/-- WR STATUS: bit 1 clears DONE, bit 2 clears ERR and ERRCODE, every other bit is ignored (42_host_interface.md R241). -/
def Obligations.StatusAcknowledges : Prop :=
  ∀ (s : State) (v : Word),
    exec (.wrStatus v) s =
      .next { s with
        done := if v.getLsbD 1 then false else s.done
        err := if v.getLsbD 2 then false else s.err
        errcode := if v.getLsbD 2 then 0 else s.errcode
        response := .writeDone }

/-- RD CMD returns 0 and has no effect (42_host_interface.md R242). -/
def Obligations.CmdReadsZero : Prop :=
  ∀ s : State, exec .rdCmd s = .next { s with response := .readData 0 }

/-- WR SRC, LEN and DST set their register while idle and are rejected with BUSY while busy (42_host_interface.md R243;
60_exceptions.md R272). That a rejected write is answered write done is the model's choice (log 9). -/
def Obligations.OperandWrites : Prop :=
  ∀ (s : State) (v : Word),
    (s.busy = false →
      exec (.wrSrc v) s = .next { s with src := v, response := .writeDone } ∧
      exec (.wrLen v) s = .next { s with len := v, response := .writeDone } ∧
      exec (.wrDst v) s = .next { s with dst := v, response := .writeDone }) ∧
    (s.busy = true →
      exec (.wrSrc v) s = .next (rejected 0x02 s) ∧
      exec (.wrLen v) s = .next (rejected 0x02 s) ∧
      exec (.wrDst v) s = .next (rejected 0x02 s))

/-- RD SRC, LEN and DST return their register in every state (42_host_interface.md R244). -/
def Obligations.OperandReads : Prop :=
  ∀ s : State,
    exec .rdSrc s = .next { s with response := .readData s.src } ∧
    exec .rdLen s = .next { s with response := .readData s.len } ∧
    exec .rdDst s = .next { s with response := .readData s.dst }

/-- RD BLOCKS returns BLOCKS while idle and any value, a free value, while busy; WR BLOCKS is ignored
(42_host_interface.md R245; 93_implementation_defined.md U8). -/
def Obligations.BlocksReads : Prop :=
  ∀ (s : State) (v : Word),
    (s.busy = false → exec .rdBlocks s = .next { s with response := .readData s.blocks }) ∧
    (s.busy = true →
      exec .rdBlocks s =
        .next { s with response := .readData (Config.freeWord s.draws 25), draws := s.draws + 1 }) ∧
    exec (.wrBlocks v) s = .next { s with response := .writeDone }

/-- RD FAULT_ADDR returns FAULT_ADDR in every state; WR FAULT_ADDR is ignored (42_host_interface.md R246). -/
def Obligations.FaultAddrReads : Prop :=
  ∀ (s : State) (v : Word),
    exec .rdFaultAddr s = .next { s with response := .readData s.faultAddr } ∧
    exec (.wrFaultAddr v) s = .next { s with response := .writeDone }

/-- RD reserved returns 0 and WR reserved is ignored (42_host_interface.md R247). -/
def Obligations.ReservedOffsets : Prop :=
  ∀ (s : State) (slot : Nat) (v : Word), reservedSlot slot = true →
    exec (.rdWrReserved .read slot 0) s = .next { s with response := .readData 0 } ∧
    exec (.rdWrReserved .write slot v) s = .next { s with response := .writeDone }

/-- A read changes nothing but the model's own response and draw counter, and for STATUS its record of digest bytes
(20_memory.md R73; log 9, 4, 12). -/
def Obligations.ReadsHaveNoSideEffect : Prop :=
  ∀ (s : State) (i : Nat),
    ∀ rdr ∈ [Instr.rdLane i, .rdId, .rdCtrl, .rdStatus, .rdCmd, .rdSrc, .rdLen, .rdDst, .rdBlocks,
      .rdFaultAddr, .rdWrReserved .read i 0],
      ∃ (v : Word) (n : Nat) (d : List DigestByte),
        exec rdr s = .next { s with response := .readData v, draws := n, digested := d } ∧
        (rdr ≠ .rdStatus → d = s.digested)

/-- The frame of an instruction that answers next: no byte of memory, no event and no parameter changes, nor FAULT_ADDR;
SRC, LEN, DST, CTRL and the lanes change only by their own write (and the lanes and BLOCKS by a HASH word); the
sequencer and BUSY only by a command; ERR and ERRCODE only by a command, a write while busy or a write of STATUS (42_host_interface.md R234 to R247; 10_state.md R32, R43). -/
def Obligations.InstructionFrame : Prop :=
  ∀ (i : Instr) (s t : State), exec i s = .next t →
    (∀ a, Memory.read t.mem a = Memory.read s.mem a) ∧
    t.inputs = s.inputs ∧ t.platform = s.platform ∧ t.faultAddr = s.faultAddr ∧
    ((∀ v, i ≠ .wrSrc v) → t.src = s.src) ∧
    ((∀ v, i ≠ .wrLen v) → t.len = s.len) ∧
    ((∀ v, i ≠ .wrDst v) → t.dst = s.dst) ∧
    ((∀ v, i ≠ .wrCtrl v) → t.ieDone = s.ieDone ∧ t.ieErr = s.ieErr) ∧
    (i ≠ .hash → i ≠ .wrCmd 0x4 → t.blocks = s.blocks ∧ t.nblk = s.nblk ∧ t.k = s.k ∧ t.taken = s.taken) ∧
    (i ≠ .hash → i ≠ .wrCmd 0x4 → (∀ n v, i ≠ .wrLane n v) →
      t.lanes = s.lanes ∧ t.laneAny = s.laneAny) ∧
    ((∀ r, i ∉ workCommands r) → (∀ w, i ≠ .wrCmd w) →
      t.busy = s.busy ∧ t.phase = s.phase ∧ t.op = s.op ∧ t.arg = s.arg ∧ t.rnd = s.rnd ∧
      t.raced = s.raced ∧ ((∀ v, i ≠ .wrStatus v) → t.done = s.done)) ∧
    ((∀ r, i ∉ workCommands r) → (∀ w, i ≠ .wrCmd w) → (∀ v, i ≠ .wrStatus v) →
      (s.busy = true →
        (∀ n v, i ≠ .wrLane n v) ∧ (∀ v, i ≠ .wrSrc v) ∧ (∀ v, i ≠ .wrLen v) ∧ ∀ v, i ≠ .wrDst v) →
      t.err = s.err ∧ t.errcode = s.errcode) ∧
    t.widx = s.widx ∧ t.unseen = s.unseen ∧ t.agent = s.agent ∧ (i ≠ .rdStatus → t.digested = s.digested)

/-! ### The engine -/

/-- While BUSY = 0 the engine has no step: the state stays (42_host_interface.md R249). -/
def Obligations.IdleEngineHasNoStep : Prop :=
  ∀ s : State, s.busy = false →
    engineStep s = .next s ∧ (s.inputs = [] → step s = .next s)

/-- An ABSORB step: padded-message byte K, read at SRC + K while K < LEN, is XORed into its place, and after the 136th byte
of a block the permutation starts (41_sponge.md R184, R186; 20_memory.md R74, R80). A byte that reads as any value, and a
lane that holds any value, are free values of the next draws (log 3, 4), and the record of the bytes taken is log 12's. -/
def Obligations.AbsorbStepXorsOneByte : Prop :=
  ∀ (s : State) (m : Byte) (n i : Nat), Absorbing s → i = s.k % 136 / 8 →
    (if s.k < s.len.toNat then
      s.src.toNat + s.k < 2 ^ 64 ∧ (∀ first last, ReadCovers s first last → GetsData s .read first last) ∧
      ((ReadsAs s (s.src.toNat + s.k) (some m) ∧ n = 0) ∨
       (ReadsAs s (s.src.toNat + s.k) none ∧ m = Config.freeByte s.draws ∧ n = 1))
     else m = 0x00 ∧ n = 0) →
    ∃ b : Byte,
      b = m ||| (if s.k = s.len.toNat then 0x01 else 0x00)
            ||| (if s.k = 136 * s.nblk - 1 then 0x80 else 0x00) ∧
      ∃ t, engineStep s = .next t ∧
        lane t.lanes i = seen s (s.draws + n) i ^^^ (b.setWidth 64 <<< (8 * (s.k % 136 % 8))) ∧
        t.laneAny[i]? = some false ∧
        (∀ j, j ≠ i → lane t.lanes j = lane s.lanes j ∧ t.laneAny[j]? = s.laneAny[j]?) ∧
        t = { s with
          lanes := t.lanes
          laneAny := t.laneAny
          draws := s.draws + n + laneDrawn s i
          k := s.k + 1
          taken := if s.k < s.len.toNat then s.taken ++ [m] else s.taken
          phase := if s.k % 136 = 135 then .perm else .absorb
          rnd := if s.k % 136 = 135 then 0 else s.rnd }

/-- A PERM step of HASH: one round, and after round 23 one more block, then WRITE after the last block and ABSORB after
any other (41_sponge.md R187). A lane that holds any value is a free value of the next draw (log 4). -/
def Obligations.HashPermStepRunsOneRound : Prop :=
  ∀ s t : State, s.busy = true → s.phase = .perm → s.op = .hash → s.rnd ≤ 23 →
    t = { s with
      lanes := keccakRound (seenLanes s) s.rnd, laneAny := Vector.replicate 25 false
      draws := s.draws + lanesDrawn s } →
    (s.rnd < 23 → engineStep s = .next { t with rnd := s.rnd + 1 }) ∧
    (s.rnd = 23 → s.k = 136 * s.nblk →
      engineStep s = .next { t with blocks := s.blocks + 1, phase := .write, widx := 0 }) ∧
    (s.rnd = 23 → s.k ≠ 136 * s.nblk →
      engineStep s = .next { t with blocks := s.blocks + 1, phase := .absorb })

/-- A WRITE step stores digest byte WIDX at DST + WIDX and nothing else, changes no lane, and completes the command at
the 32nd byte (41_sponge.md R188; 20_memory.md R75; 42_host_interface.md R248). A raced byte is left with any value
(20_memory.md R84 H-4), and the byte of a lane that holds any value is of the next draw (log 4). -/
def Obligations.WriteStepStoresOneByte : Prop :=
  ∀ s : State, Writing s → s.dst.toNat + s.widx < 2 ^ 64 → s.widx ≤ 31 →
    (∀ first last, WriteCovers s first last → GetsData s .write first last) →
    ∃ t, engineStep s = .next t ∧
      (∀ a, Memory.read t.mem a =
        if a = s.dst.toNat + s.widx then
          if a ∈ s.raced then none
          else some (BitVec.ofNat 8 ((seen s s.draws (s.widx / 8)).toNat / 2 ^ (8 * (s.widx % 8))))
        else Memory.read s.mem a) ∧
      (∀ g a, UnreadBy t g a ↔ a = s.dst.toNat + s.widx ∨ UnreadBy s g a) ∧
      t = { s with
        mem := t.mem
        digested := t.digested
        draws := s.draws + laneDrawn s (s.widx / 8)
        widx := s.widx + 1
        raced := if s.widx = 31 then [] else s.raced
        busy := if s.widx = 31 then false else true
        done := if s.widx = 31 then true else s.done
        phase := if s.widx = 31 then .idle else .write }

/-- A bus error on a source read: READ_FAULT with the lowest address of the failing transaction unless an error is on
record, the command aborts, DONE and BLOCKS stay, no byte of memory changes, every lane holds any value (41_sponge.md R190;
60_exceptions.md R272; 20_memory.md R76). -/
def Obligations.ReadFaultAborts : Prop :=
  ∀ (s : State) (first last : Nat), Absorbing s → s.k < s.len.toNat → s.src.toNat + s.k < 2 ^ 64 →
    ReadCovers s first last → GetsAnswer s .read first last .busError →
    ∃ t, engineStep s = .next t ∧
      t = { s with
        err := true
        errcode := if s.err then s.errcode else 0x04
        faultAddr := if s.err then s.faultAddr else BitVec.ofNat 64 first
        busy := false
        phase := .idle
        raced := []
        lanes := t.lanes
        laneAny := Vector.replicate 25 true }

/-- A bus error on a digest write: WRITE_FAULT with the lowest address of the failing transaction unless an error is on
record, the command aborts, the digest bytes from that address on hold any value, every other byte and every lane stays
(41_sponge.md R191; 60_exceptions.md R272; 20_memory.md R76). -/
def Obligations.WriteFaultAborts : Prop :=
  ∀ (s : State) (first last : Nat), Writing s → s.widx ≤ 31 → s.dst.toNat + s.widx < 2 ^ 64 →
    WriteCovers s first last → GetsAnswer s .write first last .busError →
    ∃ t, engineStep s = .next t ∧
      (∀ a, Memory.read t.mem a =
        if first ≤ a ∧ a < s.dst.toNat + 32 then none else Memory.read s.mem a) ∧
      (∀ g a, UnreadBy t g a ↔ UnreadBy s g a ∧ ¬(s.dst.toNat ≤ a ∧ a < s.dst.toNat + 32)) ∧
      t = { s with
        digested := t.digested
        err := true
        errcode := if s.err then s.errcode else 0x05
        faultAddr := if s.err then s.faultAddr else BitVec.ofNat 64 first
        busy := false
        phase := .idle
        raced := []
        mem := t.mem }

/-- A memory that does not answer a DMA access leaves the engine without a step: the state stays (42_host_interface.md
R249; 70_reset_and_hazards.md R330; U13). -/
def Obligations.UnansweredAccessWaits : Prop :=
  ∀ (s : State) (first last : Nat),
    (Absorbing s → s.k < s.len.toNat → s.src.toNat + s.k < 2 ^ 64 → ReadCovers s first last →
      GetsAnswer s .read first last .noAnswer → engineStep s = .next s) ∧
    (Writing s → s.widx ≤ 31 → s.dst.toNat + s.widx < 2 ^ 64 → WriteCovers s first last →
      GetsAnswer s .write first last .noAnswer → engineStep s = .next s)

/-- The transaction that covers an address of a range: the longest run of joined bytes around it inside the range
(20_memory.md R76; DMA_BEAT, log 7). Its first byte is what a failing transaction reports. -/
def Obligations.TransactionIsTheJoinedRun : Prop :=
  ∀ (s : State) (d : Dir) (lo hi a : Nat), lo ≤ a → a < hi →
    ∃ first last, s.transaction d lo hi a = (first, last) ∧
      lo ≤ first ∧ first ≤ a ∧ a ≤ last ∧ last < hi ∧
      (∀ x, first < x → x ≤ last → x ∈ s.joins d) ∧
      (first = lo ∨ first ∉ s.joins d) ∧ (last + 1 = hi ∨ last + 1 ∉ s.joins d)

/-- Another agent's store and load. A store that is not visible leaves any value, and the block reads any value there
(20_memory.md R84 H-1; U11). A store to a busy HASH's source makes that byte any value. Where the block has absorbed the byte,
it counts as taken with a free value, and the lanes and the digest bytes written are those of the bytes taken: before its
block is permuted, no lane changes but the one it entered (H-2; U10). A store to the destination leaves any value, whatever
the block writes there later (H-4). Any other store puts its byte, and every other byte stays. A load of the destination
while busy, or of a digest byte before the loading agent has read STATUS with DONE = 1, gets any value (H-3), any other load
the byte in memory, or any value where memory holds none (log 3). The form of the races, and of which agent an access is, is
log 12's. That the store lands and the load is of memory whatever MemResp's rules say of the address is the choice of log 8,
the responses are log 9's, and the bus error inside the window is log 13's. -/
def Obligations.RacesGiveAnyValue : Prop :=
  ∀ (s : State) (a : Word) (es : List Event),
    (∀ (b : Byte) (visible : Bool), s.inputs = .memStore a b visible :: es →
      (InWindow s a.toNat → step s = .next { s with inputs := es, response := .busError }) ∧
      (¬InWindow s a.toNat → ∃ t, step s = .next t ∧
        t = { s with
          inputs := es, response := .writeDone
          mem := t.mem, raced := t.raced, unseen := t.unseen, digested := t.digested
          taken := t.taken, draws := t.draws, lanes := t.lanes, laneAny := t.laneAny } ∧
        (visible = false → Memory.read t.mem a.toNat = none ∧ t.dmaByte a.toNat = none) ∧
        (s.busy = true → s.op = .hash → s.src.toNat ≤ a.toNat → a.toNat < s.src.toNat + s.len.toNat →
          Memory.read t.mem a.toNat = none ∧ t.dmaByte a.toNat = none ∧
          (s.src.toNat + s.k ≤ a.toNat →
            t.lanes = s.lanes ∧ t.laneAny = s.laneAny ∧ t.taken = s.taken ∧ t.draws = s.draws) ∧
          (a.toNat < s.src.toNat + s.k →
            t.taken = s.taken.set (a.toNat - s.src.toNat) (Config.freeByte s.draws) ∧ t.draws = s.draws + 1 ∧
            t.laneAny = Vector.replicate 25 false ∧ t.lanes = t.replayLanes ∧
            (Inv s → s.phase = .absorb → (a.toNat - s.src.toNat) / 136 = s.k / 136 →
              ∀ j, j ≠ (a.toNat - s.src.toNat) % 136 / 8 → lane t.lanes j = lane s.lanes j) ∧
            (s.phase = .write → ∀ x, x < s.widx → s.dst.toNat + x ≠ a.toNat →
              Memory.read t.mem (s.dst.toNat + x) =
                if s.dst.toNat + x ∈ s.raced then none
                else some (BitVec.ofNat 8 ((lane t.lanes (x / 8)).toNat / 2 ^ (8 * (x % 8))))))) ∧
        (s.busy = true → s.op = .hash → s.dst.toNat ≤ a.toNat → a.toNat < s.dst.toNat + 32 →
          Memory.read t.mem a.toNat = none ∧
          ∀ b', Memory.read (t.dmaStore a.toNat b').mem a.toNat = none) ∧
        (visible = true →
          ¬(s.busy = true ∧ s.op = .hash ∧
            ((s.src.toNat ≤ a.toNat ∧ a.toNat < s.src.toNat + s.len.toNat) ∨
             (s.dst.toNat ≤ a.toNat ∧ a.toNat < s.dst.toNat + 32))) →
          t.lanes = s.lanes ∧ t.laneAny = s.laneAny ∧ t.taken = s.taken ∧ t.draws = s.draws ∧
          Memory.read t.mem a.toNat = some b ∧
          ∀ g x, UnreadBy t g x ↔ UnreadBy s g x ∧ x ≠ a.toNat) ∧
        ∀ x, x ≠ a.toNat →
          ¬(s.busy = true ∧ s.op = .hash ∧ s.phase = .write ∧
            s.src.toNat ≤ a.toNat ∧ a.toNat < s.src.toNat + s.len.toNat ∧
            s.dst.toNat ≤ x ∧ x < s.dst.toNat + s.widx) →
          Memory.read t.mem x = Memory.read s.mem x)) ∧
    (s.inputs = .memLoad a :: es →
      (InWindow s a.toNat → step s = .next { s with inputs := es, response := .busError }) ∧
      (¬InWindow s a.toNat →
        ((s.busy = true ∧ s.op = .hash ∧ s.dst.toNat ≤ a.toNat ∧ a.toNat < s.dst.toNat + 32) ∨
          UnreadBy s s.agent a.toNat ∨ Memory.read s.mem a.toNat = none →
          step s = .next { s with
            inputs := es, response := .readData ((Config.freeByte s.draws).setWidth 64)
            draws := s.draws + 1 }) ∧
        (¬(s.busy = true ∧ s.op = .hash ∧ s.dst.toNat ≤ a.toNat ∧ a.toNat < s.dst.toNat + 32) →
          ¬UnreadBy s s.agent a.toNat → ∀ b, Memory.read s.mem a.toNat = some b →
          step s = .next { s with inputs := es, response := .readData (b.setWidth 64) }))) ∧
    ∀ g, s.inputs = .agent g :: es → step s = .next { s with inputs := es, agent := g }

/-! ### Reset -/

/-- Reset puts every piece of the block's state to its value, whatever the block was doing, and leaves the platform's
memory (70_reset_and_hazards.md R310), but for the digest bytes of a HASH reset in WRITE, which hold any value (R311). That the parameters and the events to come
are kept is the model's choice (log 17). -/
def Obligations.ResetPutsEveryRegister : Prop :=
  ∀ (s : State) (es : List Event), s.inputs = .reset :: es →
    ∃ t, step s = .next t ∧ t.inputs = es ∧ t.platform = s.platform ∧
      (∀ i, i ≤ 24 → lane t.lanes i = 0 ∧ t.laneAny[i]? = some false) ∧
      t.ieDone = false ∧ t.ieErr = false ∧ t.busy = false ∧ t.done = false ∧ t.err = false ∧
      t.errcode = 0 ∧ t.src = 0 ∧ t.len = 0 ∧ t.dst = 0 ∧ t.blocks = 0 ∧ t.faultAddr = 0 ∧
      t.phase = .idle ∧ t.irq = false ∧
      ∀ a, Memory.read t.mem a =
        if s.busy = true ∧ s.op = .hash ∧ s.phase = .write ∧ s.dst.toNat ≤ a ∧ a < s.dst.toNat + 32
        then none else Memory.read s.mem a

/-! ### The whole machine -/

/-- An error on record stays the one on record until ERR is cleared: the first wins (60_exceptions.md R272). -/
def Obligations.FirstErrorStays : Prop :=
  ∀ s t : State, s.err = true → step s = .next t → t.err = true →
    t.errcode = s.errcode ∧ t.faultAddr = s.faultAddr

/-- FAULT_ADDR changes only when a READ_FAULT or WRITE_FAULT is recorded while ERR = 0, or by reset (10_state.md R46). -/
def Obligations.FaultAddrChangesOnlyByADmaFault : Prop :=
  ∀ s t : State, step s = .next t → t.faultAddr ≠ s.faultAddr →
    (s.err = false ∧ t.err = true ∧ (t.errcode = 0x04 ∨ t.errcode = 0x05)) ∨ ResetNext s

/-- SRC, LEN and DST cannot change while busy, but by reset (10_state.md R51). -/
def Obligations.OperandsStayWhileBusy : Prop :=
  ∀ s t : State, s.busy = true → step s = .next t → ¬ResetNext s →
    t.src = s.src ∧ t.len = s.len ∧ t.dst = s.dst

/-- BLOCKS changes only by the acceptance of a HASH, by the end of a block's permutation, or by reset (10_state.md R43). -/
def Obligations.BlocksChangesOnlyByHash : Prop :=
  ∀ s t : State, step s = .next t → t.blocks ≠ s.blocks →
    (s.busy = false ∧ t.busy = true ∧ t.op = .hash ∧ t.blocks = 0) ∨
    (s.busy = true ∧ s.op = .hash ∧ s.phase = .perm ∧ s.rnd ≥ 23 ∧ t.blocks = s.blocks + 1) ∨
    ResetNext s

/-- The engine changes no byte of memory but in a WRITE step, and there only in [DST, DST + 32): the source buffer is
never written (20_memory.md R76; 41_sponge.md R196). -/
def Obligations.EngineWritesOnlyTheDigest : Prop :=
  ∀ s t : State, Inv s → engineStep s = .next t →
    ∀ a, ¬(s.busy = true ∧ s.phase = .write ∧ s.dst.toNat ≤ a ∧ a < s.dst.toNat + 32) →
      Memory.read t.mem a = Memory.read s.mem a

/-- The invariant holds at reset. -/
def Obligations.InvHoldsAtReset : Prop := Inv State.reset

/-- Every step keeps the invariant; that the lanes of a HASH are those of the bytes it has taken rests on the model's record of
them (log 12). -/
def Obligations.EveryStepKeepsInv : Prop :=
  ∀ s t : State, Inv s → step s = .next t → Inv t

/-- From a state that meets the invariant a step is no fault, and the only refusal is that of a HASH over the window. -/
def Obligations.NoFaultFromInv : Prop :=
  ∀ s : State, Inv s →
    SafeStep s ∧ ∀ r : Refusal, step s = .refused r → r = .hashRangeMeetsWindow ∧ s.busy = false

/-- The host's call (42_host_interface.md R250): from an idle machine the four accesses set SRC, LEN and DST and start
the HASH. -/
def Obligations.CallSequenceStartsTheHash : Prop :=
  ∀ (s : State) (a n d : Word) (es : List Event), s.busy = false → s.inputs = keccakCall a n d ++ es →
    ¬RangeError { s with src := a, len := n, dst := d } →
    ¬MeetsWindow { s with src := a, len := n, dst := d } →
    core.run 4 s = .next (hashAccepted { s with src := a, len := n, dst := d, inputs := es })

/-- HASH computes Keccak-256 (41_sponge.md R189, R197): from an idle machine whose memory holds the message M at SRC and
answers every access, HASH is accepted, and after 160 * NBLK + 32 engine steps the digest of M is at DST, every other
byte is as it was, the lanes hold the final state, BLOCKS = NBLK, DONE = 1, BUSY = 0, PHASE = IDLE, and the error registers,
the operands and the enables are as they were. -/
def Obligations.HashComputesKeccak256 : Prop :=
  ∀ (s : State) (M : List Byte), s.busy = false → ¬RangeError s → ¬MeetsWindow s →
    s.platform.memResp = [] → M.length = s.len.toNat →
    (∀ k (h : k < M.length), Memory.read s.mem (s.src.toNat + k) = some M[k]) →
    ∃ u, exec .hash s = .next (hashAccepted s) ∧
      engineRun (160 * (M.length / 136 + 1) + 32) (hashAccepted s) = .next u ∧
      (∀ a, Memory.read u.mem a =
        if s.dst.toNat ≤ a ∧ a < s.dst.toNat + 32 then some (digest M (a - s.dst.toNat))
        else Memory.read s.mem a) ∧
      u.lanes = finalLanes M ∧ LanesKnown u ∧ u.blocks.toNat = M.length / 136 + 1 ∧
      u.done = true ∧ u.busy = false ∧ u.phase = .idle ∧
      u.err = s.err ∧ u.errcode = s.errcode ∧ u.faultAddr = s.faultAddr ∧
      u.src = s.src ∧ u.len = s.len ∧ u.dst = s.dst ∧ u.ieDone = s.ieDone ∧ u.ieErr = s.ieErr
end

