-- ==== Sys2Proof/Laws/Bytes.lean ====
section
/-! SUPPORT. The laws of little-endian byte strings (00_scope.md R16) and of the lengths of encodings. -/

namespace Sys2Proof

@[simp] theorem leBytes_length (n v : Nat) : (leBytes n v).length = n := by
  induction n generalizing v with
  | zero => rfl
  | succ n ih => simp [leBytes, ih]

/-- The number of the low n bytes of v is v modulo 256^n. -/
@[simp] theorem leNat_leBytes (n v : Nat) : leNat (leBytes n v) = v % 256 ^ n := by
  induction n generalizing v with
  | zero => simp [leBytes, leNat, Nat.mod_one]
  | succ n ih =>
    simp only [leBytes, leNat, ih, BitVec.toNat_ofNat]
    show v % 256 + 256 * (v / 256 % 256 ^ n) = v % 256 ^ (n + 1)
    rw [Nat.pow_succ, Nat.mul_comm (256 ^ n) 256, Nat.mod_mul]

theorem leNat_lt (bs : List Byte) : leNat bs < 256 ^ bs.length := by
  induction bs with
  | nil => simp [leNat]
  | cons b bs ih =>
    have hb : b.toNat < 256 := b.isLt
    simp only [leNat, List.length_cons, Nat.pow_succ]
    omega

@[simp] theorem commandBytes_length (op : Op) (r : Nat) : (commandBytes op r).length = 8 := by
  simp [commandBytes]

@[simp] theorem accessBytes_length (d : Dir) (slot : Nat) (v : Word) :
    (accessBytes d slot v).length = 10 := by
  simp [accessBytes]

/-- The first two bytes of a register access are its key. -/
@[simp] theorem accessBytes_take (d : Dir) (slot : Nat) (v : Word) :
    (accessBytes d slot v).take 2 = leBytes 2 (accessKey d slot) := by
  simp [accessBytes]

/-- The other eight bytes of a register access are its data. -/
@[simp] theorem accessBytes_drop (d : Dir) (slot : Nat) (v : Word) :
    (accessBytes d slot v).drop 2 = leBytes 8 v.toNat := by
  simp [accessBytes]

end Sys2Proof
end

