-- ==== Sys2Proof/Laws/Memory.lean ====
section
/-! SUPPORT. The laws of system memory: what a read sees after a write or a forget, and that both keep the canonical form. -/

namespace Sys2Proof.Machine

@[simp] theorem read_nil (a : Nat) : Memory.read [] a = none := rfl

theorem read_write (m : Memory) (a x : Nat) (b : Byte) :
    Memory.read (Memory.write m a b) x = if x = a then some b else Memory.read m x := by
  induction m with
  | nil => simp [Memory.write, Memory.read]
  | cons c m ih =>
    obtain ⟨a', b'⟩ := c
    by_cases h1 : a < a'
    · simp [Memory.write, Memory.read, h1]
    · by_cases h2 : a = a'
      · subst h2
        by_cases hx : x = a <;> simp [Memory.write, Memory.read, hx]
      · simp only [Memory.write, h1, h2, if_false, Memory.read, ih]
        by_cases hx : x = a'
        · have : x ≠ a := fun h => h2 (h ▸ hx)
          simp [hx, Ne.symm h2]
        · simp [hx]

@[simp] theorem read_write_same (m : Memory) (a : Nat) (b : Byte) :
    Memory.read (Memory.write m a b) a = some b := by simp [read_write]

theorem read_write_other (m : Memory) {a x : Nat} (b : Byte) (h : x ≠ a) :
    Memory.read (Memory.write m a b) x = Memory.read m x := by simp [read_write, h]

theorem read_forget (m : Memory) (base n x : Nat) :
    Memory.read (Memory.forget m base n) x =
      if base ≤ x ∧ x < base + n then none else Memory.read m x := by
  induction m with
  | nil => simp [Memory.forget, Memory.read, Memory.unlisted]
  | cons c m ih =>
    obtain ⟨a', b'⟩ := c
    simp only [Memory.forget] at ih ⊢
    by_cases hc : base ≤ a' ∧ a' < base + n
    · rw [List.filter_cons_of_neg (by simp [hc]), ih]
      by_cases hx : base ≤ x ∧ x < base + n
      · simp [hx]
      · have : x ≠ a' := fun h => hx (h ▸ hc)
        simp [hx, Memory.read, this]
    · rw [List.filter_cons_of_pos (by simp only [Bool.not_eq_true', Bool.and_eq_false_iff, decide_eq_false_iff_not]; tauto)]
      by_cases hx : x = a'
      · subst hx
        simp [Memory.read, hc]
      · simp only [Memory.read, hx, if_false, ih]

/-- Every entry of a written memory is the new one or an old one. -/
theorem mem_write (m : Memory) (a : Nat) (b : Byte) {c : Host.Cell}
    (h : c ∈ Memory.write m a b) : c = (a, b) ∨ c ∈ m := by
  induction m with
  | nil => simpa [Memory.write] using h
  | cons d m ih =>
    obtain ⟨a', b'⟩ := d
    simp only [Memory.write] at h
    split at h
    · simpa using h
    · split at h
      · rcases List.mem_cons.1 h with h | h
        · exact .inl h
        · exact .inr (List.mem_cons_of_mem _ h)
      · rcases List.mem_cons.1 h with h | h
        · exact .inr (h ▸ List.mem_cons_self)
        · exact (ih h).imp_right (List.mem_cons_of_mem _)

theorem write_sorted (m : Memory) (a : Nat) (b : Byte)
    (h : m.Pairwise (fun x y => x.1 < y.1)) :
    (Memory.write m a b).Pairwise (fun x y => x.1 < y.1) := by
  induction m with
  | nil => simp [Memory.write]
  | cons d m ih =>
    obtain ⟨a', b'⟩ := d
    obtain ⟨hd, hm⟩ := List.pairwise_cons.1 h
    simp only [Memory.write]
    split
    · rename_i hlt
      refine List.pairwise_cons.2 ⟨fun c hc => ?_, h⟩
      rcases List.mem_cons.1 hc with rfl | hc
      · exact hlt
      · exact Nat.lt_trans hlt (hd c hc)
    · split
      · rename_i _ heq
        subst heq
        exact List.pairwise_cons.2 ⟨hd, hm⟩
      · refine List.pairwise_cons.2 ⟨fun c hc => ?_, ih hm⟩
        rcases mem_write m a b hc with rfl | hc
        · simp only
          omega
        · exact hd c hc

/-- A write below 2^64 keeps the canonical form. -/
theorem write_wf (m : Memory) (a : Nat) (b : Byte) (ha : a < 2 ^ 64) (h : Memory.wf m) :
    Memory.wf (Memory.write m a b) :=
  ⟨write_sorted m a b h.1, fun c hc => by
    rcases mem_write m a b hc with rfl | hc
    · exact ha
    · exact h.2 c hc⟩

/-- Forgetting bytes keeps the canonical form. -/
theorem forget_wf (m : Memory) (base n : Nat) (h : Memory.wf m) : Memory.wf (Memory.forget m base n) :=
  ⟨h.1.filter _, fun c hc => h.2 c (List.mem_filter.1 hc).1⟩

/-- What is on the list once an address is added. -/
theorem mem_addAddr (l : List Nat) (a x : Nat) : x ∈ addAddr l a ↔ x = a ∨ x ∈ l := by
  induction l with
  | nil => simp [addAddr]
  | cons b l ih =>
    simp only [addAddr]
    split
    · simp
    · split
      · rename_i h
        subst h
        simp
      · simp [ih]
        tauto

/-- An added address is on the list. -/
theorem contains_addAddr (l : List Nat) (a : Nat) : (addAddr l a).contains a = true := by
  simp [mem_addAddr]

/-! ### The record of digest bytes (20_memory.md R84 H-3) -/

/-- What it is for a digest byte to be unread by an agent. -/
theorem unreadBy_iff (l : List DigestByte) (g a : Nat) :
    unreadBy l g a = true ↔ ∃ e ∈ l, e.addr = a ∧ g ∉ e.readers := by
  simp [unreadBy]

/-- A digest byte just written is unread by every agent; the others are as they were. -/
theorem unreadBy_putDigest (l : List DigestByte) (b g a : Nat) :
    unreadBy (putDigest l b) g a = true ↔ a = b ∨ unreadBy l g a = true := by
  have hcons : ∀ (e : DigestByte) (l : List DigestByte), unreadBy (e :: l) g a = true ↔
      (e.addr = a ∧ g ∉ e.readers) ∨ unreadBy l g a = true := fun e l => by simp [unreadBy_iff]
  induction l with
  | nil => simp [putDigest, unreadBy_iff, @eq_comm _ b]
  | cons e l ih =>
    simp only [putDigest]
    split
    · rw [hcons]
      simp [@eq_comm _ b]
    · split
      · rename_i h
        rw [hcons, hcons, h]
        simp only [List.not_mem_nil, not_false_eq_true, and_true]
        tauto
      · simp only [hcons, ih]
        tauto

/-- An agent that has read STATUS with DONE = 1 has no digest byte unread; the others are as they were. -/
theorem unreadBy_seenBy (l : List DigestByte) (h g a : Nat) :
    unreadBy (seenBy l h) g a = true ↔ unreadBy l g a = true ∧ g ≠ h := by
  simp only [unreadBy_iff, seenBy, List.mem_map]
  constructor
  · rintro ⟨_, ⟨e, he, rfl⟩, ha, hg⟩
    rw [mem_addAddr] at hg
    exact ⟨⟨e, he, ha, fun h => hg (.inr h)⟩, fun h => hg (.inl h)⟩
  · rintro ⟨⟨e, he, ha, hg⟩, hn⟩
    exact ⟨_, ⟨e, he, rfl⟩, ha, by simp [mem_addAddr, hg, hn]⟩

/-- Striking digest bytes off the record by their addresses. -/
theorem unreadBy_filter (l : List DigestByte) (p : Nat → Bool) (g a : Nat) :
    unreadBy (l.filter fun e => p e.addr) g a = true ↔ unreadBy l g a = true ∧ p a = true := by
  simp only [unreadBy_iff, List.mem_filter]
  constructor
  · rintro ⟨e, ⟨he, hp⟩, rfl, hg⟩
    exact ⟨⟨e, he, rfl, hg⟩, hp⟩
  · rintro ⟨⟨e, he, rfl, hg⟩, hp⟩
    exact ⟨e, ⟨he, hp⟩, rfl, hg⟩

theorem reset_mem_wf : Memory.wf State.reset.mem := by simp [State.reset, Memory.wf]

/-- Two memories in canonical form that read alike at every address are equal: the form is canonical. -/
theorem eq_of_read_eq {m₁ m₂ : Memory} (h₁ : m₁.Pairwise (fun x y => x.1 < y.1))
    (h₂ : m₂.Pairwise (fun x y => x.1 < y.1)) (h : ∀ a, Memory.read m₁ a = Memory.read m₂ a) :
    m₁ = m₂ := by
  have below : ∀ (m : Memory) (a : Nat), (∀ c ∈ m, a < c.1) → Memory.read m a = none := by
    intro m a
    induction m with
    | nil => intro _; rfl
    | cons c m ih =>
      intro hc
      have h1 := hc c List.mem_cons_self
      simp [Memory.read, Nat.ne_of_lt h1, ih fun d hd => hc d (List.mem_cons_of_mem _ hd)]
  induction m₁ generalizing m₂ with
  | nil =>
    cases m₂ with
    | nil => rfl
    | cons c m => simpa [Memory.read, Memory.unlisted] using h c.1
  | cons c m ih =>
    cases m₂ with
    | nil => simpa [Memory.read, Memory.unlisted] using h c.1
    | cons d m' =>
      obtain ⟨hc, hm⟩ := List.pairwise_cons.1 h₁
      obtain ⟨hd, hm'⟩ := List.pairwise_cons.1 h₂
      obtain ⟨a, b⟩ := c
      obtain ⟨a', b'⟩ := d
      have haa : a = a' := by
        rcases Nat.lt_trichotomy a a' with hlt | heq | hgt
        · have := h a
          simp [Memory.read, Nat.ne_of_lt hlt,
            below m' a fun e he => Nat.lt_trans hlt (hd e he)] at this
        · exact heq
        · have := h a'
          simp [Memory.read, Nat.ne_of_lt hgt,
            below m a' fun e he => Nat.lt_trans hgt (hc e he)] at this
      subst haa
      have hb : b = b' := by simpa [Memory.read] using h a
      subst hb
      refine congrArg _ (ih hm hm' fun x => ?_)
      by_cases hx : x = a
      · subst hx
        rw [below m x hc, below m' x hd]
      · simpa [Memory.read, hx] using h x

end Sys2Proof.Machine
end

