-- ==== Sys2Proof/Laws/Permutation.lean ====
section
/-! SUPPORT. The laws of the lane file: what a lane of a built or changed state is. -/

namespace Sys2Proof.Machine

theorem lane_lanesOf (f : Nat → Word) (i : Nat) : lane (lanesOf f) i = if i < 25 then f i else 0 := by
  unfold lane lanesOf
  split <;> rename_i h <;> simp [h]

theorem lane_putLane (A : Lanes) (i j : Nat) (v : Word) :
    lane (putLane A i v) j = if i = j ∧ j < 25 then v else lane A j := by
  unfold lane putLane
  by_cases hj : j < 25
  · by_cases hij : i = j
    · subst hij
      simp [hj]
    · simp [hj, hij]
  · simp [hj]

theorem lane_zeroLanes (i : Nat) : lane zeroLanes i = 0 := by
  unfold lane zeroLanes
  by_cases hi : i < 25 <;> simp [hi]

/-- Two lane files with the same 25 lanes are the same. -/
theorem lanes_ext {A B : Lanes} (h : ∀ i, i < 25 → lane A i = lane B i) : A = B := by
  apply Vector.ext
  intro i hi
  have := h i hi
  simpa [lane, hi] using this

theorem lanesOf_lane (A : Lanes) : lanesOf (lane A) = A :=
  lanes_ext fun i hi => by rw [lane_lanesOf, if_pos hi]

end Sys2Proof.Machine
end

