-- ==== Sys2Proof/Laws/State.lean ====
section
/-! SUPPORT. What each update of the state does to each field, one lemma a field, so that no proof unfolds an update. -/

namespace Sys2Proof.Machine

/-! ### respond -/

@[simp] theorem respond_lanes (r : Response) (s : State) : (s.respond r).lanes = s.lanes := rfl
@[simp] theorem respond_laneAny (r : Response) (s : State) : (s.respond r).laneAny = s.laneAny := rfl
@[simp] theorem respond_ieDone (r : Response) (s : State) : (s.respond r).ieDone = s.ieDone := rfl
@[simp] theorem respond_ieErr (r : Response) (s : State) : (s.respond r).ieErr = s.ieErr := rfl
@[simp] theorem respond_busy (r : Response) (s : State) : (s.respond r).busy = s.busy := rfl
@[simp] theorem respond_done (r : Response) (s : State) : (s.respond r).done = s.done := rfl
@[simp] theorem respond_err (r : Response) (s : State) : (s.respond r).err = s.err := rfl
@[simp] theorem respond_errcode (r : Response) (s : State) : (s.respond r).errcode = s.errcode := rfl
@[simp] theorem respond_src (r : Response) (s : State) : (s.respond r).src = s.src := rfl
@[simp] theorem respond_len (r : Response) (s : State) : (s.respond r).len = s.len := rfl
@[simp] theorem respond_dst (r : Response) (s : State) : (s.respond r).dst = s.dst := rfl
@[simp] theorem respond_blocks (r : Response) (s : State) : (s.respond r).blocks = s.blocks := rfl
@[simp] theorem respond_faultAddr (r : Response) (s : State) : (s.respond r).faultAddr = s.faultAddr := rfl
@[simp] theorem respond_phase (r : Response) (s : State) : (s.respond r).phase = s.phase := rfl
@[simp] theorem respond_op (r : Response) (s : State) : (s.respond r).op = s.op := rfl
@[simp] theorem respond_arg (r : Response) (s : State) : (s.respond r).arg = s.arg := rfl
@[simp] theorem respond_rnd (r : Response) (s : State) : (s.respond r).rnd = s.rnd := rfl
@[simp] theorem respond_nblk (r : Response) (s : State) : (s.respond r).nblk = s.nblk := rfl
@[simp] theorem respond_k (r : Response) (s : State) : (s.respond r).k = s.k := rfl
@[simp] theorem respond_widx (r : Response) (s : State) : (s.respond r).widx = s.widx := rfl
@[simp] theorem respond_mem (r : Response) (s : State) : (s.respond r).mem = s.mem := rfl
@[simp] theorem respond_raced (r : Response) (s : State) : (s.respond r).raced = s.raced := rfl
@[simp] theorem respond_unseen (r : Response) (s : State) : (s.respond r).unseen = s.unseen := rfl
@[simp] theorem respond_digested (r : Response) (s : State) : (s.respond r).digested = s.digested := rfl
@[simp] theorem respond_agent (r : Response) (s : State) : (s.respond r).agent = s.agent := rfl
@[simp] theorem respond_taken (r : Response) (s : State) : (s.respond r).taken = s.taken := rfl
@[simp] theorem respond_platform (r : Response) (s : State) : (s.respond r).platform = s.platform := rfl
@[simp] theorem respond_inputs (r : Response) (s : State) : (s.respond r).inputs = s.inputs := rfl
@[simp] theorem respond_response (r : Response) (s : State) : (s.respond r).response = r := rfl
@[simp] theorem respond_draws (r : Response) (s : State) : (s.respond r).draws = s.draws := rfl

/-! ### drawIf -/

@[simp] theorem drawIf_lanes (b : Bool) (s : State) : (s.drawIf b).lanes = s.lanes := rfl
@[simp] theorem drawIf_laneAny (b : Bool) (s : State) : (s.drawIf b).laneAny = s.laneAny := rfl
@[simp] theorem drawIf_ieDone (b : Bool) (s : State) : (s.drawIf b).ieDone = s.ieDone := rfl
@[simp] theorem drawIf_ieErr (b : Bool) (s : State) : (s.drawIf b).ieErr = s.ieErr := rfl
@[simp] theorem drawIf_busy (b : Bool) (s : State) : (s.drawIf b).busy = s.busy := rfl
@[simp] theorem drawIf_done (b : Bool) (s : State) : (s.drawIf b).done = s.done := rfl
@[simp] theorem drawIf_err (b : Bool) (s : State) : (s.drawIf b).err = s.err := rfl
@[simp] theorem drawIf_errcode (b : Bool) (s : State) : (s.drawIf b).errcode = s.errcode := rfl
@[simp] theorem drawIf_src (b : Bool) (s : State) : (s.drawIf b).src = s.src := rfl
@[simp] theorem drawIf_len (b : Bool) (s : State) : (s.drawIf b).len = s.len := rfl
@[simp] theorem drawIf_dst (b : Bool) (s : State) : (s.drawIf b).dst = s.dst := rfl
@[simp] theorem drawIf_blocks (b : Bool) (s : State) : (s.drawIf b).blocks = s.blocks := rfl
@[simp] theorem drawIf_faultAddr (b : Bool) (s : State) : (s.drawIf b).faultAddr = s.faultAddr := rfl
@[simp] theorem drawIf_phase (b : Bool) (s : State) : (s.drawIf b).phase = s.phase := rfl
@[simp] theorem drawIf_op (b : Bool) (s : State) : (s.drawIf b).op = s.op := rfl
@[simp] theorem drawIf_arg (b : Bool) (s : State) : (s.drawIf b).arg = s.arg := rfl
@[simp] theorem drawIf_rnd (b : Bool) (s : State) : (s.drawIf b).rnd = s.rnd := rfl
@[simp] theorem drawIf_nblk (b : Bool) (s : State) : (s.drawIf b).nblk = s.nblk := rfl
@[simp] theorem drawIf_k (b : Bool) (s : State) : (s.drawIf b).k = s.k := rfl
@[simp] theorem drawIf_widx (b : Bool) (s : State) : (s.drawIf b).widx = s.widx := rfl
@[simp] theorem drawIf_mem (b : Bool) (s : State) : (s.drawIf b).mem = s.mem := rfl
@[simp] theorem drawIf_raced (b : Bool) (s : State) : (s.drawIf b).raced = s.raced := rfl
@[simp] theorem drawIf_unseen (b : Bool) (s : State) : (s.drawIf b).unseen = s.unseen := rfl
@[simp] theorem drawIf_digested (b : Bool) (s : State) : (s.drawIf b).digested = s.digested := rfl
@[simp] theorem drawIf_agent (b : Bool) (s : State) : (s.drawIf b).agent = s.agent := rfl
@[simp] theorem drawIf_taken (b : Bool) (s : State) : (s.drawIf b).taken = s.taken := rfl
@[simp] theorem drawIf_platform (b : Bool) (s : State) : (s.drawIf b).platform = s.platform := rfl
@[simp] theorem drawIf_inputs (b : Bool) (s : State) : (s.drawIf b).inputs = s.inputs := rfl
@[simp] theorem drawIf_response (b : Bool) (s : State) : (s.drawIf b).response = s.response := rfl
@[simp] theorem drawIf_draws (b : Bool) (s : State) : (s.drawIf b).draws = s.draws + b.toNat := rfl

/-! ### setLanes -/

@[simp] theorem setLanes_lanes (A : Lanes) (s : State) : (s.setLanes A).lanes = A := rfl
@[simp] theorem setLanes_laneAny (A : Lanes) (s : State) : (s.setLanes A).laneAny = Vector.replicate 25 false := rfl
@[simp] theorem setLanes_ieDone (A : Lanes) (s : State) : (s.setLanes A).ieDone = s.ieDone := rfl
@[simp] theorem setLanes_ieErr (A : Lanes) (s : State) : (s.setLanes A).ieErr = s.ieErr := rfl
@[simp] theorem setLanes_busy (A : Lanes) (s : State) : (s.setLanes A).busy = s.busy := rfl
@[simp] theorem setLanes_done (A : Lanes) (s : State) : (s.setLanes A).done = s.done := rfl
@[simp] theorem setLanes_err (A : Lanes) (s : State) : (s.setLanes A).err = s.err := rfl
@[simp] theorem setLanes_errcode (A : Lanes) (s : State) : (s.setLanes A).errcode = s.errcode := rfl
@[simp] theorem setLanes_src (A : Lanes) (s : State) : (s.setLanes A).src = s.src := rfl
@[simp] theorem setLanes_len (A : Lanes) (s : State) : (s.setLanes A).len = s.len := rfl
@[simp] theorem setLanes_dst (A : Lanes) (s : State) : (s.setLanes A).dst = s.dst := rfl
@[simp] theorem setLanes_blocks (A : Lanes) (s : State) : (s.setLanes A).blocks = s.blocks := rfl
@[simp] theorem setLanes_faultAddr (A : Lanes) (s : State) : (s.setLanes A).faultAddr = s.faultAddr := rfl
@[simp] theorem setLanes_phase (A : Lanes) (s : State) : (s.setLanes A).phase = s.phase := rfl
@[simp] theorem setLanes_op (A : Lanes) (s : State) : (s.setLanes A).op = s.op := rfl
@[simp] theorem setLanes_arg (A : Lanes) (s : State) : (s.setLanes A).arg = s.arg := rfl
@[simp] theorem setLanes_rnd (A : Lanes) (s : State) : (s.setLanes A).rnd = s.rnd := rfl
@[simp] theorem setLanes_nblk (A : Lanes) (s : State) : (s.setLanes A).nblk = s.nblk := rfl
@[simp] theorem setLanes_k (A : Lanes) (s : State) : (s.setLanes A).k = s.k := rfl
@[simp] theorem setLanes_widx (A : Lanes) (s : State) : (s.setLanes A).widx = s.widx := rfl
@[simp] theorem setLanes_mem (A : Lanes) (s : State) : (s.setLanes A).mem = s.mem := rfl
@[simp] theorem setLanes_raced (A : Lanes) (s : State) : (s.setLanes A).raced = s.raced := rfl
@[simp] theorem setLanes_unseen (A : Lanes) (s : State) : (s.setLanes A).unseen = s.unseen := rfl
@[simp] theorem setLanes_digested (A : Lanes) (s : State) : (s.setLanes A).digested = s.digested := rfl
@[simp] theorem setLanes_agent (A : Lanes) (s : State) : (s.setLanes A).agent = s.agent := rfl
@[simp] theorem setLanes_taken (A : Lanes) (s : State) : (s.setLanes A).taken = s.taken := rfl
@[simp] theorem setLanes_platform (A : Lanes) (s : State) : (s.setLanes A).platform = s.platform := rfl
@[simp] theorem setLanes_inputs (A : Lanes) (s : State) : (s.setLanes A).inputs = s.inputs := rfl
@[simp] theorem setLanes_response (A : Lanes) (s : State) : (s.setLanes A).response = s.response := rfl
@[simp] theorem setLanes_draws (A : Lanes) (s : State) : (s.setLanes A).draws = s.draws := rfl

/-! ### setLane -/

@[simp] theorem setLane_lanes (i : Nat) (v : Word) (s : State) : (s.setLane i v).lanes = putLane s.lanes i v := rfl
@[simp] theorem setLane_laneAny (i : Nat) (v : Word) (s : State) : (s.setLane i v).laneAny = s.laneAny.setIfInBounds i false := rfl
@[simp] theorem setLane_ieDone (i : Nat) (v : Word) (s : State) : (s.setLane i v).ieDone = s.ieDone := rfl
@[simp] theorem setLane_ieErr (i : Nat) (v : Word) (s : State) : (s.setLane i v).ieErr = s.ieErr := rfl
@[simp] theorem setLane_busy (i : Nat) (v : Word) (s : State) : (s.setLane i v).busy = s.busy := rfl
@[simp] theorem setLane_done (i : Nat) (v : Word) (s : State) : (s.setLane i v).done = s.done := rfl
@[simp] theorem setLane_err (i : Nat) (v : Word) (s : State) : (s.setLane i v).err = s.err := rfl
@[simp] theorem setLane_errcode (i : Nat) (v : Word) (s : State) : (s.setLane i v).errcode = s.errcode := rfl
@[simp] theorem setLane_src (i : Nat) (v : Word) (s : State) : (s.setLane i v).src = s.src := rfl
@[simp] theorem setLane_len (i : Nat) (v : Word) (s : State) : (s.setLane i v).len = s.len := rfl
@[simp] theorem setLane_dst (i : Nat) (v : Word) (s : State) : (s.setLane i v).dst = s.dst := rfl
@[simp] theorem setLane_blocks (i : Nat) (v : Word) (s : State) : (s.setLane i v).blocks = s.blocks := rfl
@[simp] theorem setLane_faultAddr (i : Nat) (v : Word) (s : State) : (s.setLane i v).faultAddr = s.faultAddr := rfl
@[simp] theorem setLane_phase (i : Nat) (v : Word) (s : State) : (s.setLane i v).phase = s.phase := rfl
@[simp] theorem setLane_op (i : Nat) (v : Word) (s : State) : (s.setLane i v).op = s.op := rfl
@[simp] theorem setLane_arg (i : Nat) (v : Word) (s : State) : (s.setLane i v).arg = s.arg := rfl
@[simp] theorem setLane_rnd (i : Nat) (v : Word) (s : State) : (s.setLane i v).rnd = s.rnd := rfl
@[simp] theorem setLane_nblk (i : Nat) (v : Word) (s : State) : (s.setLane i v).nblk = s.nblk := rfl
@[simp] theorem setLane_k (i : Nat) (v : Word) (s : State) : (s.setLane i v).k = s.k := rfl
@[simp] theorem setLane_widx (i : Nat) (v : Word) (s : State) : (s.setLane i v).widx = s.widx := rfl
@[simp] theorem setLane_mem (i : Nat) (v : Word) (s : State) : (s.setLane i v).mem = s.mem := rfl
@[simp] theorem setLane_raced (i : Nat) (v : Word) (s : State) : (s.setLane i v).raced = s.raced := rfl
@[simp] theorem setLane_unseen (i : Nat) (v : Word) (s : State) : (s.setLane i v).unseen = s.unseen := rfl
@[simp] theorem setLane_digested (i : Nat) (v : Word) (s : State) : (s.setLane i v).digested = s.digested := rfl
@[simp] theorem setLane_agent (i : Nat) (v : Word) (s : State) : (s.setLane i v).agent = s.agent := rfl
@[simp] theorem setLane_taken (i : Nat) (v : Word) (s : State) : (s.setLane i v).taken = s.taken := rfl
@[simp] theorem setLane_platform (i : Nat) (v : Word) (s : State) : (s.setLane i v).platform = s.platform := rfl
@[simp] theorem setLane_inputs (i : Nat) (v : Word) (s : State) : (s.setLane i v).inputs = s.inputs := rfl
@[simp] theorem setLane_response (i : Nat) (v : Word) (s : State) : (s.setLane i v).response = s.response := rfl
@[simp] theorem setLane_draws (i : Nat) (v : Word) (s : State) : (s.setLane i v).draws = s.draws := rfl

/-! ### mapLanes -/

@[simp] theorem mapLanes_lanes (f : Lanes → Lanes) (s : State) : (s.mapLanes f).lanes = f s.laneValues := rfl
@[simp] theorem mapLanes_laneAny (f : Lanes → Lanes) (s : State) : (s.mapLanes f).laneAny = Vector.replicate 25 false := rfl
@[simp] theorem mapLanes_ieDone (f : Lanes → Lanes) (s : State) : (s.mapLanes f).ieDone = s.ieDone := rfl
@[simp] theorem mapLanes_ieErr (f : Lanes → Lanes) (s : State) : (s.mapLanes f).ieErr = s.ieErr := rfl
@[simp] theorem mapLanes_busy (f : Lanes → Lanes) (s : State) : (s.mapLanes f).busy = s.busy := rfl
@[simp] theorem mapLanes_done (f : Lanes → Lanes) (s : State) : (s.mapLanes f).done = s.done := rfl
@[simp] theorem mapLanes_err (f : Lanes → Lanes) (s : State) : (s.mapLanes f).err = s.err := rfl
@[simp] theorem mapLanes_errcode (f : Lanes → Lanes) (s : State) : (s.mapLanes f).errcode = s.errcode := rfl
@[simp] theorem mapLanes_src (f : Lanes → Lanes) (s : State) : (s.mapLanes f).src = s.src := rfl
@[simp] theorem mapLanes_len (f : Lanes → Lanes) (s : State) : (s.mapLanes f).len = s.len := rfl
@[simp] theorem mapLanes_dst (f : Lanes → Lanes) (s : State) : (s.mapLanes f).dst = s.dst := rfl
@[simp] theorem mapLanes_blocks (f : Lanes → Lanes) (s : State) : (s.mapLanes f).blocks = s.blocks := rfl
@[simp] theorem mapLanes_faultAddr (f : Lanes → Lanes) (s : State) : (s.mapLanes f).faultAddr = s.faultAddr := rfl
@[simp] theorem mapLanes_phase (f : Lanes → Lanes) (s : State) : (s.mapLanes f).phase = s.phase := rfl
@[simp] theorem mapLanes_op (f : Lanes → Lanes) (s : State) : (s.mapLanes f).op = s.op := rfl
@[simp] theorem mapLanes_arg (f : Lanes → Lanes) (s : State) : (s.mapLanes f).arg = s.arg := rfl
@[simp] theorem mapLanes_rnd (f : Lanes → Lanes) (s : State) : (s.mapLanes f).rnd = s.rnd := rfl
@[simp] theorem mapLanes_nblk (f : Lanes → Lanes) (s : State) : (s.mapLanes f).nblk = s.nblk := rfl
@[simp] theorem mapLanes_k (f : Lanes → Lanes) (s : State) : (s.mapLanes f).k = s.k := rfl
@[simp] theorem mapLanes_widx (f : Lanes → Lanes) (s : State) : (s.mapLanes f).widx = s.widx := rfl
@[simp] theorem mapLanes_mem (f : Lanes → Lanes) (s : State) : (s.mapLanes f).mem = s.mem := rfl
@[simp] theorem mapLanes_raced (f : Lanes → Lanes) (s : State) : (s.mapLanes f).raced = s.raced := rfl
@[simp] theorem mapLanes_unseen (f : Lanes → Lanes) (s : State) : (s.mapLanes f).unseen = s.unseen := rfl
@[simp] theorem mapLanes_digested (f : Lanes → Lanes) (s : State) : (s.mapLanes f).digested = s.digested := rfl
@[simp] theorem mapLanes_agent (f : Lanes → Lanes) (s : State) : (s.mapLanes f).agent = s.agent := rfl
@[simp] theorem mapLanes_taken (f : Lanes → Lanes) (s : State) : (s.mapLanes f).taken = s.taken := rfl
@[simp] theorem mapLanes_platform (f : Lanes → Lanes) (s : State) : (s.mapLanes f).platform = s.platform := rfl
@[simp] theorem mapLanes_inputs (f : Lanes → Lanes) (s : State) : (s.mapLanes f).inputs = s.inputs := rfl
@[simp] theorem mapLanes_response (f : Lanes → Lanes) (s : State) : (s.mapLanes f).response = s.response := rfl
@[simp] theorem mapLanes_draws (f : Lanes → Lanes) (s : State) : (s.mapLanes f).draws = s.draws + s.someLaneAny.toNat := rfl

/-! ### mapLane -/

@[simp] theorem mapLane_lanes (i : Nat) (f : Word → Word) (s : State) : (s.mapLane i f).lanes = putLane s.lanes i (f (s.laneValue i)) := rfl
@[simp] theorem mapLane_laneAny (i : Nat) (f : Word → Word) (s : State) : (s.mapLane i f).laneAny = s.laneAny.setIfInBounds i false := rfl
@[simp] theorem mapLane_ieDone (i : Nat) (f : Word → Word) (s : State) : (s.mapLane i f).ieDone = s.ieDone := rfl
@[simp] theorem mapLane_ieErr (i : Nat) (f : Word → Word) (s : State) : (s.mapLane i f).ieErr = s.ieErr := rfl
@[simp] theorem mapLane_busy (i : Nat) (f : Word → Word) (s : State) : (s.mapLane i f).busy = s.busy := rfl
@[simp] theorem mapLane_done (i : Nat) (f : Word → Word) (s : State) : (s.mapLane i f).done = s.done := rfl
@[simp] theorem mapLane_err (i : Nat) (f : Word → Word) (s : State) : (s.mapLane i f).err = s.err := rfl
@[simp] theorem mapLane_errcode (i : Nat) (f : Word → Word) (s : State) : (s.mapLane i f).errcode = s.errcode := rfl
@[simp] theorem mapLane_src (i : Nat) (f : Word → Word) (s : State) : (s.mapLane i f).src = s.src := rfl
@[simp] theorem mapLane_len (i : Nat) (f : Word → Word) (s : State) : (s.mapLane i f).len = s.len := rfl
@[simp] theorem mapLane_dst (i : Nat) (f : Word → Word) (s : State) : (s.mapLane i f).dst = s.dst := rfl
@[simp] theorem mapLane_blocks (i : Nat) (f : Word → Word) (s : State) : (s.mapLane i f).blocks = s.blocks := rfl
@[simp] theorem mapLane_faultAddr (i : Nat) (f : Word → Word) (s : State) : (s.mapLane i f).faultAddr = s.faultAddr := rfl
@[simp] theorem mapLane_phase (i : Nat) (f : Word → Word) (s : State) : (s.mapLane i f).phase = s.phase := rfl
@[simp] theorem mapLane_op (i : Nat) (f : Word → Word) (s : State) : (s.mapLane i f).op = s.op := rfl
@[simp] theorem mapLane_arg (i : Nat) (f : Word → Word) (s : State) : (s.mapLane i f).arg = s.arg := rfl
@[simp] theorem mapLane_rnd (i : Nat) (f : Word → Word) (s : State) : (s.mapLane i f).rnd = s.rnd := rfl
@[simp] theorem mapLane_nblk (i : Nat) (f : Word → Word) (s : State) : (s.mapLane i f).nblk = s.nblk := rfl
@[simp] theorem mapLane_k (i : Nat) (f : Word → Word) (s : State) : (s.mapLane i f).k = s.k := rfl
@[simp] theorem mapLane_widx (i : Nat) (f : Word → Word) (s : State) : (s.mapLane i f).widx = s.widx := rfl
@[simp] theorem mapLane_mem (i : Nat) (f : Word → Word) (s : State) : (s.mapLane i f).mem = s.mem := rfl
@[simp] theorem mapLane_raced (i : Nat) (f : Word → Word) (s : State) : (s.mapLane i f).raced = s.raced := rfl
@[simp] theorem mapLane_unseen (i : Nat) (f : Word → Word) (s : State) : (s.mapLane i f).unseen = s.unseen := rfl
@[simp] theorem mapLane_digested (i : Nat) (f : Word → Word) (s : State) : (s.mapLane i f).digested = s.digested := rfl
@[simp] theorem mapLane_agent (i : Nat) (f : Word → Word) (s : State) : (s.mapLane i f).agent = s.agent := rfl
@[simp] theorem mapLane_taken (i : Nat) (f : Word → Word) (s : State) : (s.mapLane i f).taken = s.taken := rfl
@[simp] theorem mapLane_platform (i : Nat) (f : Word → Word) (s : State) : (s.mapLane i f).platform = s.platform := rfl
@[simp] theorem mapLane_inputs (i : Nat) (f : Word → Word) (s : State) : (s.mapLane i f).inputs = s.inputs := rfl
@[simp] theorem mapLane_response (i : Nat) (f : Word → Word) (s : State) : (s.mapLane i f).response = s.response := rfl
@[simp] theorem mapLane_draws (i : Nat) (f : Word → Word) (s : State) : (s.mapLane i f).draws = s.draws + (s.laneIsAny i).toNat := rfl

/-! ### loseLanes -/

@[simp] theorem loseLanes_lanes (s : State) : s.loseLanes.lanes = zeroLanes := rfl
@[simp] theorem loseLanes_laneAny (s : State) : s.loseLanes.laneAny = Vector.replicate 25 true := rfl
@[simp] theorem loseLanes_ieDone (s : State) : s.loseLanes.ieDone = s.ieDone := rfl
@[simp] theorem loseLanes_ieErr (s : State) : s.loseLanes.ieErr = s.ieErr := rfl
@[simp] theorem loseLanes_busy (s : State) : s.loseLanes.busy = s.busy := rfl
@[simp] theorem loseLanes_done (s : State) : s.loseLanes.done = s.done := rfl
@[simp] theorem loseLanes_err (s : State) : s.loseLanes.err = s.err := rfl
@[simp] theorem loseLanes_errcode (s : State) : s.loseLanes.errcode = s.errcode := rfl
@[simp] theorem loseLanes_src (s : State) : s.loseLanes.src = s.src := rfl
@[simp] theorem loseLanes_len (s : State) : s.loseLanes.len = s.len := rfl
@[simp] theorem loseLanes_dst (s : State) : s.loseLanes.dst = s.dst := rfl
@[simp] theorem loseLanes_blocks (s : State) : s.loseLanes.blocks = s.blocks := rfl
@[simp] theorem loseLanes_faultAddr (s : State) : s.loseLanes.faultAddr = s.faultAddr := rfl
@[simp] theorem loseLanes_phase (s : State) : s.loseLanes.phase = s.phase := rfl
@[simp] theorem loseLanes_op (s : State) : s.loseLanes.op = s.op := rfl
@[simp] theorem loseLanes_arg (s : State) : s.loseLanes.arg = s.arg := rfl
@[simp] theorem loseLanes_rnd (s : State) : s.loseLanes.rnd = s.rnd := rfl
@[simp] theorem loseLanes_nblk (s : State) : s.loseLanes.nblk = s.nblk := rfl
@[simp] theorem loseLanes_k (s : State) : s.loseLanes.k = s.k := rfl
@[simp] theorem loseLanes_widx (s : State) : s.loseLanes.widx = s.widx := rfl
@[simp] theorem loseLanes_mem (s : State) : s.loseLanes.mem = s.mem := rfl
@[simp] theorem loseLanes_raced (s : State) : s.loseLanes.raced = s.raced := rfl
@[simp] theorem loseLanes_unseen (s : State) : s.loseLanes.unseen = s.unseen := rfl
@[simp] theorem loseLanes_digested (s : State) : s.loseLanes.digested = s.digested := rfl
@[simp] theorem loseLanes_agent (s : State) : s.loseLanes.agent = s.agent := rfl
@[simp] theorem loseLanes_taken (s : State) : s.loseLanes.taken = s.taken := rfl
@[simp] theorem loseLanes_platform (s : State) : s.loseLanes.platform = s.platform := rfl
@[simp] theorem loseLanes_inputs (s : State) : s.loseLanes.inputs = s.inputs := rfl
@[simp] theorem loseLanes_response (s : State) : s.loseLanes.response = s.response := rfl
@[simp] theorem loseLanes_draws (s : State) : s.loseLanes.draws = s.draws := rfl

/-! ### recordError -/

@[simp] theorem recordError_lanes (c : ErrCode) (a : Word) (s : State) : (s.recordError c a).lanes = s.lanes := rfl
@[simp] theorem recordError_laneAny (c : ErrCode) (a : Word) (s : State) : (s.recordError c a).laneAny = s.laneAny := rfl
@[simp] theorem recordError_ieDone (c : ErrCode) (a : Word) (s : State) : (s.recordError c a).ieDone = s.ieDone := rfl
@[simp] theorem recordError_ieErr (c : ErrCode) (a : Word) (s : State) : (s.recordError c a).ieErr = s.ieErr := rfl
@[simp] theorem recordError_busy (c : ErrCode) (a : Word) (s : State) : (s.recordError c a).busy = s.busy := rfl
@[simp] theorem recordError_done (c : ErrCode) (a : Word) (s : State) : (s.recordError c a).done = s.done := rfl
@[simp] theorem recordError_err (c : ErrCode) (a : Word) (s : State) : (s.recordError c a).err = true := rfl
@[simp] theorem recordError_errcode (c : ErrCode) (a : Word) (s : State) : (s.recordError c a).errcode = if s.err then s.errcode else c.code := rfl
@[simp] theorem recordError_src (c : ErrCode) (a : Word) (s : State) : (s.recordError c a).src = s.src := rfl
@[simp] theorem recordError_len (c : ErrCode) (a : Word) (s : State) : (s.recordError c a).len = s.len := rfl
@[simp] theorem recordError_dst (c : ErrCode) (a : Word) (s : State) : (s.recordError c a).dst = s.dst := rfl
@[simp] theorem recordError_blocks (c : ErrCode) (a : Word) (s : State) : (s.recordError c a).blocks = s.blocks := rfl
@[simp] theorem recordError_faultAddr (c : ErrCode) (a : Word) (s : State) : (s.recordError c a).faultAddr = if !s.err && c.isDma then a else s.faultAddr := rfl
@[simp] theorem recordError_phase (c : ErrCode) (a : Word) (s : State) : (s.recordError c a).phase = s.phase := rfl
@[simp] theorem recordError_op (c : ErrCode) (a : Word) (s : State) : (s.recordError c a).op = s.op := rfl
@[simp] theorem recordError_arg (c : ErrCode) (a : Word) (s : State) : (s.recordError c a).arg = s.arg := rfl
@[simp] theorem recordError_rnd (c : ErrCode) (a : Word) (s : State) : (s.recordError c a).rnd = s.rnd := rfl
@[simp] theorem recordError_nblk (c : ErrCode) (a : Word) (s : State) : (s.recordError c a).nblk = s.nblk := rfl
@[simp] theorem recordError_k (c : ErrCode) (a : Word) (s : State) : (s.recordError c a).k = s.k := rfl
@[simp] theorem recordError_widx (c : ErrCode) (a : Word) (s : State) : (s.recordError c a).widx = s.widx := rfl
@[simp] theorem recordError_mem (c : ErrCode) (a : Word) (s : State) : (s.recordError c a).mem = s.mem := rfl
@[simp] theorem recordError_raced (c : ErrCode) (a : Word) (s : State) : (s.recordError c a).raced = s.raced := rfl
@[simp] theorem recordError_unseen (c : ErrCode) (a : Word) (s : State) : (s.recordError c a).unseen = s.unseen := rfl
@[simp] theorem recordError_digested (c : ErrCode) (a : Word) (s : State) : (s.recordError c a).digested = s.digested := rfl
@[simp] theorem recordError_agent (c : ErrCode) (a : Word) (s : State) : (s.recordError c a).agent = s.agent := rfl
@[simp] theorem recordError_taken (c : ErrCode) (a : Word) (s : State) : (s.recordError c a).taken = s.taken := rfl
@[simp] theorem recordError_platform (c : ErrCode) (a : Word) (s : State) : (s.recordError c a).platform = s.platform := rfl
@[simp] theorem recordError_inputs (c : ErrCode) (a : Word) (s : State) : (s.recordError c a).inputs = s.inputs := rfl
@[simp] theorem recordError_response (c : ErrCode) (a : Word) (s : State) : (s.recordError c a).response = s.response := rfl
@[simp] theorem recordError_draws (c : ErrCode) (a : Word) (s : State) : (s.recordError c a).draws = s.draws := rfl

/-! ### abort -/

@[simp] theorem abort_lanes (s : State) : s.abort.lanes = s.lanes := rfl
@[simp] theorem abort_laneAny (s : State) : s.abort.laneAny = s.laneAny := rfl
@[simp] theorem abort_ieDone (s : State) : s.abort.ieDone = s.ieDone := rfl
@[simp] theorem abort_ieErr (s : State) : s.abort.ieErr = s.ieErr := rfl
@[simp] theorem abort_busy (s : State) : s.abort.busy = false := rfl
@[simp] theorem abort_done (s : State) : s.abort.done = s.done := rfl
@[simp] theorem abort_err (s : State) : s.abort.err = s.err := rfl
@[simp] theorem abort_errcode (s : State) : s.abort.errcode = s.errcode := rfl
@[simp] theorem abort_src (s : State) : s.abort.src = s.src := rfl
@[simp] theorem abort_len (s : State) : s.abort.len = s.len := rfl
@[simp] theorem abort_dst (s : State) : s.abort.dst = s.dst := rfl
@[simp] theorem abort_blocks (s : State) : s.abort.blocks = s.blocks := rfl
@[simp] theorem abort_faultAddr (s : State) : s.abort.faultAddr = s.faultAddr := rfl
@[simp] theorem abort_phase (s : State) : s.abort.phase = .idle := rfl
@[simp] theorem abort_op (s : State) : s.abort.op = s.op := rfl
@[simp] theorem abort_arg (s : State) : s.abort.arg = s.arg := rfl
@[simp] theorem abort_rnd (s : State) : s.abort.rnd = s.rnd := rfl
@[simp] theorem abort_nblk (s : State) : s.abort.nblk = s.nblk := rfl
@[simp] theorem abort_k (s : State) : s.abort.k = s.k := rfl
@[simp] theorem abort_widx (s : State) : s.abort.widx = s.widx := rfl
@[simp] theorem abort_mem (s : State) : s.abort.mem = s.mem := rfl
@[simp] theorem abort_raced (s : State) : s.abort.raced = [] := rfl
@[simp] theorem abort_unseen (s : State) : s.abort.unseen = s.unseen := rfl
@[simp] theorem abort_digested (s : State) : s.abort.digested = s.digested := rfl
@[simp] theorem abort_agent (s : State) : s.abort.agent = s.agent := rfl
@[simp] theorem abort_taken (s : State) : s.abort.taken = s.taken := rfl
@[simp] theorem abort_platform (s : State) : s.abort.platform = s.platform := rfl
@[simp] theorem abort_inputs (s : State) : s.abort.inputs = s.inputs := rfl
@[simp] theorem abort_response (s : State) : s.abort.response = s.response := rfl
@[simp] theorem abort_draws (s : State) : s.abort.draws = s.draws := rfl

/-! ### acknowledge -/

@[simp] theorem acknowledge_lanes (v : Word) (s : State) : (s.acknowledge v).lanes = s.lanes := rfl
@[simp] theorem acknowledge_laneAny (v : Word) (s : State) : (s.acknowledge v).laneAny = s.laneAny := rfl
@[simp] theorem acknowledge_ieDone (v : Word) (s : State) : (s.acknowledge v).ieDone = s.ieDone := rfl
@[simp] theorem acknowledge_ieErr (v : Word) (s : State) : (s.acknowledge v).ieErr = s.ieErr := rfl
@[simp] theorem acknowledge_busy (v : Word) (s : State) : (s.acknowledge v).busy = s.busy := rfl
@[simp] theorem acknowledge_done (v : Word) (s : State) : (s.acknowledge v).done = (s.done && !v.getLsbD 1) := rfl
@[simp] theorem acknowledge_err (v : Word) (s : State) : (s.acknowledge v).err = (s.err && !v.getLsbD 2) := rfl
@[simp] theorem acknowledge_errcode (v : Word) (s : State) : (s.acknowledge v).errcode = if v.getLsbD 2 then 0x00 else s.errcode := rfl
@[simp] theorem acknowledge_src (v : Word) (s : State) : (s.acknowledge v).src = s.src := rfl
@[simp] theorem acknowledge_len (v : Word) (s : State) : (s.acknowledge v).len = s.len := rfl
@[simp] theorem acknowledge_dst (v : Word) (s : State) : (s.acknowledge v).dst = s.dst := rfl
@[simp] theorem acknowledge_blocks (v : Word) (s : State) : (s.acknowledge v).blocks = s.blocks := rfl
@[simp] theorem acknowledge_faultAddr (v : Word) (s : State) : (s.acknowledge v).faultAddr = s.faultAddr := rfl
@[simp] theorem acknowledge_phase (v : Word) (s : State) : (s.acknowledge v).phase = s.phase := rfl
@[simp] theorem acknowledge_op (v : Word) (s : State) : (s.acknowledge v).op = s.op := rfl
@[simp] theorem acknowledge_arg (v : Word) (s : State) : (s.acknowledge v).arg = s.arg := rfl
@[simp] theorem acknowledge_rnd (v : Word) (s : State) : (s.acknowledge v).rnd = s.rnd := rfl
@[simp] theorem acknowledge_nblk (v : Word) (s : State) : (s.acknowledge v).nblk = s.nblk := rfl
@[simp] theorem acknowledge_k (v : Word) (s : State) : (s.acknowledge v).k = s.k := rfl
@[simp] theorem acknowledge_widx (v : Word) (s : State) : (s.acknowledge v).widx = s.widx := rfl
@[simp] theorem acknowledge_mem (v : Word) (s : State) : (s.acknowledge v).mem = s.mem := rfl
@[simp] theorem acknowledge_raced (v : Word) (s : State) : (s.acknowledge v).raced = s.raced := rfl
@[simp] theorem acknowledge_unseen (v : Word) (s : State) : (s.acknowledge v).unseen = s.unseen := rfl
@[simp] theorem acknowledge_digested (v : Word) (s : State) : (s.acknowledge v).digested = s.digested := rfl
@[simp] theorem acknowledge_agent (v : Word) (s : State) : (s.acknowledge v).agent = s.agent := rfl
@[simp] theorem acknowledge_taken (v : Word) (s : State) : (s.acknowledge v).taken = s.taken := rfl
@[simp] theorem acknowledge_platform (v : Word) (s : State) : (s.acknowledge v).platform = s.platform := rfl
@[simp] theorem acknowledge_inputs (v : Word) (s : State) : (s.acknowledge v).inputs = s.inputs := rfl
@[simp] theorem acknowledge_response (v : Word) (s : State) : (s.acknowledge v).response = s.response := rfl
@[simp] theorem acknowledge_draws (v : Word) (s : State) : (s.acknowledge v).draws = s.draws := rfl

/-! ### seeStatus -/

@[simp] theorem seeStatus_lanes (s : State) : s.seeStatus.lanes = s.lanes := rfl
@[simp] theorem seeStatus_laneAny (s : State) : s.seeStatus.laneAny = s.laneAny := rfl
@[simp] theorem seeStatus_ieDone (s : State) : s.seeStatus.ieDone = s.ieDone := rfl
@[simp] theorem seeStatus_ieErr (s : State) : s.seeStatus.ieErr = s.ieErr := rfl
@[simp] theorem seeStatus_busy (s : State) : s.seeStatus.busy = s.busy := rfl
@[simp] theorem seeStatus_done (s : State) : s.seeStatus.done = s.done := rfl
@[simp] theorem seeStatus_err (s : State) : s.seeStatus.err = s.err := rfl
@[simp] theorem seeStatus_errcode (s : State) : s.seeStatus.errcode = s.errcode := rfl
@[simp] theorem seeStatus_src (s : State) : s.seeStatus.src = s.src := rfl
@[simp] theorem seeStatus_len (s : State) : s.seeStatus.len = s.len := rfl
@[simp] theorem seeStatus_dst (s : State) : s.seeStatus.dst = s.dst := rfl
@[simp] theorem seeStatus_blocks (s : State) : s.seeStatus.blocks = s.blocks := rfl
@[simp] theorem seeStatus_faultAddr (s : State) : s.seeStatus.faultAddr = s.faultAddr := rfl
@[simp] theorem seeStatus_phase (s : State) : s.seeStatus.phase = s.phase := rfl
@[simp] theorem seeStatus_op (s : State) : s.seeStatus.op = s.op := rfl
@[simp] theorem seeStatus_arg (s : State) : s.seeStatus.arg = s.arg := rfl
@[simp] theorem seeStatus_rnd (s : State) : s.seeStatus.rnd = s.rnd := rfl
@[simp] theorem seeStatus_nblk (s : State) : s.seeStatus.nblk = s.nblk := rfl
@[simp] theorem seeStatus_k (s : State) : s.seeStatus.k = s.k := rfl
@[simp] theorem seeStatus_widx (s : State) : s.seeStatus.widx = s.widx := rfl
@[simp] theorem seeStatus_mem (s : State) : s.seeStatus.mem = s.mem := rfl
@[simp] theorem seeStatus_raced (s : State) : s.seeStatus.raced = s.raced := rfl
@[simp] theorem seeStatus_unseen (s : State) : s.seeStatus.unseen = s.unseen := rfl
@[simp] theorem seeStatus_digested (s : State) : s.seeStatus.digested = if s.done then seenBy s.digested s.agent else s.digested := rfl
@[simp] theorem seeStatus_agent (s : State) : s.seeStatus.agent = s.agent := rfl
@[simp] theorem seeStatus_taken (s : State) : s.seeStatus.taken = s.taken := rfl
@[simp] theorem seeStatus_platform (s : State) : s.seeStatus.platform = s.platform := rfl
@[simp] theorem seeStatus_inputs (s : State) : s.seeStatus.inputs = s.inputs := rfl
@[simp] theorem seeStatus_response (s : State) : s.seeStatus.response = s.response := rfl
@[simp] theorem seeStatus_draws (s : State) : s.seeStatus.draws = s.draws := rfl

/-! ### clearDone -/

@[simp] theorem clearDone_lanes (s : State) : s.clearDone.lanes = s.lanes := rfl
@[simp] theorem clearDone_laneAny (s : State) : s.clearDone.laneAny = s.laneAny := rfl
@[simp] theorem clearDone_ieDone (s : State) : s.clearDone.ieDone = s.ieDone := rfl
@[simp] theorem clearDone_ieErr (s : State) : s.clearDone.ieErr = s.ieErr := rfl
@[simp] theorem clearDone_busy (s : State) : s.clearDone.busy = s.busy := rfl
@[simp] theorem clearDone_done (s : State) : s.clearDone.done = false := rfl
@[simp] theorem clearDone_err (s : State) : s.clearDone.err = s.err := rfl
@[simp] theorem clearDone_errcode (s : State) : s.clearDone.errcode = s.errcode := rfl
@[simp] theorem clearDone_src (s : State) : s.clearDone.src = s.src := rfl
@[simp] theorem clearDone_len (s : State) : s.clearDone.len = s.len := rfl
@[simp] theorem clearDone_dst (s : State) : s.clearDone.dst = s.dst := rfl
@[simp] theorem clearDone_blocks (s : State) : s.clearDone.blocks = s.blocks := rfl
@[simp] theorem clearDone_faultAddr (s : State) : s.clearDone.faultAddr = s.faultAddr := rfl
@[simp] theorem clearDone_phase (s : State) : s.clearDone.phase = s.phase := rfl
@[simp] theorem clearDone_op (s : State) : s.clearDone.op = s.op := rfl
@[simp] theorem clearDone_arg (s : State) : s.clearDone.arg = s.arg := rfl
@[simp] theorem clearDone_rnd (s : State) : s.clearDone.rnd = s.rnd := rfl
@[simp] theorem clearDone_nblk (s : State) : s.clearDone.nblk = s.nblk := rfl
@[simp] theorem clearDone_k (s : State) : s.clearDone.k = s.k := rfl
@[simp] theorem clearDone_widx (s : State) : s.clearDone.widx = s.widx := rfl
@[simp] theorem clearDone_mem (s : State) : s.clearDone.mem = s.mem := rfl
@[simp] theorem clearDone_raced (s : State) : s.clearDone.raced = s.raced := rfl
@[simp] theorem clearDone_unseen (s : State) : s.clearDone.unseen = s.unseen := rfl
@[simp] theorem clearDone_digested (s : State) : s.clearDone.digested = s.digested := rfl
@[simp] theorem clearDone_agent (s : State) : s.clearDone.agent = s.agent := rfl
@[simp] theorem clearDone_taken (s : State) : s.clearDone.taken = s.taken := rfl
@[simp] theorem clearDone_platform (s : State) : s.clearDone.platform = s.platform := rfl
@[simp] theorem clearDone_inputs (s : State) : s.clearDone.inputs = s.inputs := rfl
@[simp] theorem clearDone_response (s : State) : s.clearDone.response = s.response := rfl
@[simp] theorem clearDone_draws (s : State) : s.clearDone.draws = s.draws := rfl

/-! ### loadStep -/

@[simp] theorem loadStep_lanes (o : Op) (r : Nat) (s : State) : (s.loadStep o r).lanes = s.lanes := rfl
@[simp] theorem loadStep_laneAny (o : Op) (r : Nat) (s : State) : (s.loadStep o r).laneAny = s.laneAny := rfl
@[simp] theorem loadStep_ieDone (o : Op) (r : Nat) (s : State) : (s.loadStep o r).ieDone = s.ieDone := rfl
@[simp] theorem loadStep_ieErr (o : Op) (r : Nat) (s : State) : (s.loadStep o r).ieErr = s.ieErr := rfl
@[simp] theorem loadStep_busy (o : Op) (r : Nat) (s : State) : (s.loadStep o r).busy = true := rfl
@[simp] theorem loadStep_done (o : Op) (r : Nat) (s : State) : (s.loadStep o r).done = s.done := rfl
@[simp] theorem loadStep_err (o : Op) (r : Nat) (s : State) : (s.loadStep o r).err = s.err := rfl
@[simp] theorem loadStep_errcode (o : Op) (r : Nat) (s : State) : (s.loadStep o r).errcode = s.errcode := rfl
@[simp] theorem loadStep_src (o : Op) (r : Nat) (s : State) : (s.loadStep o r).src = s.src := rfl
@[simp] theorem loadStep_len (o : Op) (r : Nat) (s : State) : (s.loadStep o r).len = s.len := rfl
@[simp] theorem loadStep_dst (o : Op) (r : Nat) (s : State) : (s.loadStep o r).dst = s.dst := rfl
@[simp] theorem loadStep_blocks (o : Op) (r : Nat) (s : State) : (s.loadStep o r).blocks = s.blocks := rfl
@[simp] theorem loadStep_faultAddr (o : Op) (r : Nat) (s : State) : (s.loadStep o r).faultAddr = s.faultAddr := rfl
@[simp] theorem loadStep_phase (o : Op) (r : Nat) (s : State) : (s.loadStep o r).phase = .step := rfl
@[simp] theorem loadStep_op (o : Op) (r : Nat) (s : State) : (s.loadStep o r).op = o := rfl
@[simp] theorem loadStep_arg (o : Op) (r : Nat) (s : State) : (s.loadStep o r).arg = if o.takesArg then r else s.arg := rfl
@[simp] theorem loadStep_rnd (o : Op) (r : Nat) (s : State) : (s.loadStep o r).rnd = s.rnd := rfl
@[simp] theorem loadStep_nblk (o : Op) (r : Nat) (s : State) : (s.loadStep o r).nblk = s.nblk := rfl
@[simp] theorem loadStep_k (o : Op) (r : Nat) (s : State) : (s.loadStep o r).k = s.k := rfl
@[simp] theorem loadStep_widx (o : Op) (r : Nat) (s : State) : (s.loadStep o r).widx = s.widx := rfl
@[simp] theorem loadStep_mem (o : Op) (r : Nat) (s : State) : (s.loadStep o r).mem = s.mem := rfl
@[simp] theorem loadStep_raced (o : Op) (r : Nat) (s : State) : (s.loadStep o r).raced = s.raced := rfl
@[simp] theorem loadStep_unseen (o : Op) (r : Nat) (s : State) : (s.loadStep o r).unseen = s.unseen := rfl
@[simp] theorem loadStep_digested (o : Op) (r : Nat) (s : State) : (s.loadStep o r).digested = s.digested := rfl
@[simp] theorem loadStep_agent (o : Op) (r : Nat) (s : State) : (s.loadStep o r).agent = s.agent := rfl
@[simp] theorem loadStep_taken (o : Op) (r : Nat) (s : State) : (s.loadStep o r).taken = s.taken := rfl
@[simp] theorem loadStep_platform (o : Op) (r : Nat) (s : State) : (s.loadStep o r).platform = s.platform := rfl
@[simp] theorem loadStep_inputs (o : Op) (r : Nat) (s : State) : (s.loadStep o r).inputs = s.inputs := rfl
@[simp] theorem loadStep_response (o : Op) (r : Nat) (s : State) : (s.loadStep o r).response = s.response := rfl
@[simp] theorem loadStep_draws (o : Op) (r : Nat) (s : State) : (s.loadStep o r).draws = s.draws := rfl

/-! ### loadPermute -/

@[simp] theorem loadPermute_lanes (s : State) : s.loadPermute.lanes = s.lanes := rfl
@[simp] theorem loadPermute_laneAny (s : State) : s.loadPermute.laneAny = s.laneAny := rfl
@[simp] theorem loadPermute_ieDone (s : State) : s.loadPermute.ieDone = s.ieDone := rfl
@[simp] theorem loadPermute_ieErr (s : State) : s.loadPermute.ieErr = s.ieErr := rfl
@[simp] theorem loadPermute_busy (s : State) : s.loadPermute.busy = true := rfl
@[simp] theorem loadPermute_done (s : State) : s.loadPermute.done = s.done := rfl
@[simp] theorem loadPermute_err (s : State) : s.loadPermute.err = s.err := rfl
@[simp] theorem loadPermute_errcode (s : State) : s.loadPermute.errcode = s.errcode := rfl
@[simp] theorem loadPermute_src (s : State) : s.loadPermute.src = s.src := rfl
@[simp] theorem loadPermute_len (s : State) : s.loadPermute.len = s.len := rfl
@[simp] theorem loadPermute_dst (s : State) : s.loadPermute.dst = s.dst := rfl
@[simp] theorem loadPermute_blocks (s : State) : s.loadPermute.blocks = s.blocks := rfl
@[simp] theorem loadPermute_faultAddr (s : State) : s.loadPermute.faultAddr = s.faultAddr := rfl
@[simp] theorem loadPermute_phase (s : State) : s.loadPermute.phase = .perm := rfl
@[simp] theorem loadPermute_op (s : State) : s.loadPermute.op = .permute := rfl
@[simp] theorem loadPermute_arg (s : State) : s.loadPermute.arg = s.arg := rfl
@[simp] theorem loadPermute_rnd (s : State) : s.loadPermute.rnd = 0 := rfl
@[simp] theorem loadPermute_nblk (s : State) : s.loadPermute.nblk = s.nblk := rfl
@[simp] theorem loadPermute_k (s : State) : s.loadPermute.k = s.k := rfl
@[simp] theorem loadPermute_widx (s : State) : s.loadPermute.widx = s.widx := rfl
@[simp] theorem loadPermute_mem (s : State) : s.loadPermute.mem = s.mem := rfl
@[simp] theorem loadPermute_raced (s : State) : s.loadPermute.raced = s.raced := rfl
@[simp] theorem loadPermute_unseen (s : State) : s.loadPermute.unseen = s.unseen := rfl
@[simp] theorem loadPermute_digested (s : State) : s.loadPermute.digested = s.digested := rfl
@[simp] theorem loadPermute_agent (s : State) : s.loadPermute.agent = s.agent := rfl
@[simp] theorem loadPermute_taken (s : State) : s.loadPermute.taken = s.taken := rfl
@[simp] theorem loadPermute_platform (s : State) : s.loadPermute.platform = s.platform := rfl
@[simp] theorem loadPermute_inputs (s : State) : s.loadPermute.inputs = s.inputs := rfl
@[simp] theorem loadPermute_response (s : State) : s.loadPermute.response = s.response := rfl
@[simp] theorem loadPermute_draws (s : State) : s.loadPermute.draws = s.draws := rfl

/-! ### loadHash -/

@[simp] theorem loadHash_lanes (s : State) : s.loadHash.lanes = zeroLanes := rfl
@[simp] theorem loadHash_laneAny (s : State) : s.loadHash.laneAny = Vector.replicate 25 false := rfl
@[simp] theorem loadHash_ieDone (s : State) : s.loadHash.ieDone = s.ieDone := rfl
@[simp] theorem loadHash_ieErr (s : State) : s.loadHash.ieErr = s.ieErr := rfl
@[simp] theorem loadHash_busy (s : State) : s.loadHash.busy = true := rfl
@[simp] theorem loadHash_done (s : State) : s.loadHash.done = s.done := rfl
@[simp] theorem loadHash_err (s : State) : s.loadHash.err = s.err := rfl
@[simp] theorem loadHash_errcode (s : State) : s.loadHash.errcode = s.errcode := rfl
@[simp] theorem loadHash_src (s : State) : s.loadHash.src = s.src := rfl
@[simp] theorem loadHash_len (s : State) : s.loadHash.len = s.len := rfl
@[simp] theorem loadHash_dst (s : State) : s.loadHash.dst = s.dst := rfl
@[simp] theorem loadHash_blocks (s : State) : s.loadHash.blocks = 0 := rfl
@[simp] theorem loadHash_faultAddr (s : State) : s.loadHash.faultAddr = s.faultAddr := rfl
@[simp] theorem loadHash_phase (s : State) : s.loadHash.phase = .absorb := rfl
@[simp] theorem loadHash_op (s : State) : s.loadHash.op = .hash := rfl
@[simp] theorem loadHash_arg (s : State) : s.loadHash.arg = s.arg := rfl
@[simp] theorem loadHash_rnd (s : State) : s.loadHash.rnd = s.rnd := rfl
@[simp] theorem loadHash_nblk (s : State) : s.loadHash.nblk = blockCount s.len.toNat := rfl
@[simp] theorem loadHash_k (s : State) : s.loadHash.k = 0 := rfl
@[simp] theorem loadHash_widx (s : State) : s.loadHash.widx = s.widx := rfl
@[simp] theorem loadHash_mem (s : State) : s.loadHash.mem = s.mem := rfl
@[simp] theorem loadHash_raced (s : State) : s.loadHash.raced = [] := rfl
@[simp] theorem loadHash_unseen (s : State) : s.loadHash.unseen = s.unseen := rfl
@[simp] theorem loadHash_digested (s : State) : s.loadHash.digested = s.digested := rfl
@[simp] theorem loadHash_agent (s : State) : s.loadHash.agent = s.agent := rfl
@[simp] theorem loadHash_taken (s : State) : s.loadHash.taken = [] := rfl
@[simp] theorem loadHash_platform (s : State) : s.loadHash.platform = s.platform := rfl
@[simp] theorem loadHash_inputs (s : State) : s.loadHash.inputs = s.inputs := rfl
@[simp] theorem loadHash_response (s : State) : s.loadHash.response = s.response := rfl
@[simp] theorem loadHash_draws (s : State) : s.loadHash.draws = s.draws := rfl

/-! ### complete -/

@[simp] theorem complete_lanes (s : State) : s.complete.lanes = s.lanes := rfl
@[simp] theorem complete_laneAny (s : State) : s.complete.laneAny = s.laneAny := rfl
@[simp] theorem complete_ieDone (s : State) : s.complete.ieDone = s.ieDone := rfl
@[simp] theorem complete_ieErr (s : State) : s.complete.ieErr = s.ieErr := rfl
@[simp] theorem complete_busy (s : State) : s.complete.busy = false := rfl
@[simp] theorem complete_done (s : State) : s.complete.done = true := rfl
@[simp] theorem complete_err (s : State) : s.complete.err = s.err := rfl
@[simp] theorem complete_errcode (s : State) : s.complete.errcode = s.errcode := rfl
@[simp] theorem complete_src (s : State) : s.complete.src = s.src := rfl
@[simp] theorem complete_len (s : State) : s.complete.len = s.len := rfl
@[simp] theorem complete_dst (s : State) : s.complete.dst = s.dst := rfl
@[simp] theorem complete_blocks (s : State) : s.complete.blocks = s.blocks := rfl
@[simp] theorem complete_faultAddr (s : State) : s.complete.faultAddr = s.faultAddr := rfl
@[simp] theorem complete_phase (s : State) : s.complete.phase = .idle := rfl
@[simp] theorem complete_op (s : State) : s.complete.op = s.op := rfl
@[simp] theorem complete_arg (s : State) : s.complete.arg = s.arg := rfl
@[simp] theorem complete_rnd (s : State) : s.complete.rnd = s.rnd := rfl
@[simp] theorem complete_nblk (s : State) : s.complete.nblk = s.nblk := rfl
@[simp] theorem complete_k (s : State) : s.complete.k = s.k := rfl
@[simp] theorem complete_widx (s : State) : s.complete.widx = s.widx := rfl
@[simp] theorem complete_mem (s : State) : s.complete.mem = s.mem := rfl
@[simp] theorem complete_raced (s : State) : s.complete.raced = [] := rfl
@[simp] theorem complete_unseen (s : State) : s.complete.unseen = s.unseen := rfl
@[simp] theorem complete_digested (s : State) : s.complete.digested = s.digested := rfl
@[simp] theorem complete_agent (s : State) : s.complete.agent = s.agent := rfl
@[simp] theorem complete_taken (s : State) : s.complete.taken = s.taken := rfl
@[simp] theorem complete_platform (s : State) : s.complete.platform = s.platform := rfl
@[simp] theorem complete_inputs (s : State) : s.complete.inputs = s.inputs := rfl
@[simp] theorem complete_response (s : State) : s.complete.response = s.response := rfl
@[simp] theorem complete_draws (s : State) : s.complete.draws = s.draws := rfl

/-! ### nextRound -/

@[simp] theorem nextRound_lanes (s : State) : s.nextRound.lanes = s.lanes := rfl
@[simp] theorem nextRound_laneAny (s : State) : s.nextRound.laneAny = s.laneAny := rfl
@[simp] theorem nextRound_ieDone (s : State) : s.nextRound.ieDone = s.ieDone := rfl
@[simp] theorem nextRound_ieErr (s : State) : s.nextRound.ieErr = s.ieErr := rfl
@[simp] theorem nextRound_busy (s : State) : s.nextRound.busy = s.busy := rfl
@[simp] theorem nextRound_done (s : State) : s.nextRound.done = s.done := rfl
@[simp] theorem nextRound_err (s : State) : s.nextRound.err = s.err := rfl
@[simp] theorem nextRound_errcode (s : State) : s.nextRound.errcode = s.errcode := rfl
@[simp] theorem nextRound_src (s : State) : s.nextRound.src = s.src := rfl
@[simp] theorem nextRound_len (s : State) : s.nextRound.len = s.len := rfl
@[simp] theorem nextRound_dst (s : State) : s.nextRound.dst = s.dst := rfl
@[simp] theorem nextRound_blocks (s : State) : s.nextRound.blocks = s.blocks := rfl
@[simp] theorem nextRound_faultAddr (s : State) : s.nextRound.faultAddr = s.faultAddr := rfl
@[simp] theorem nextRound_phase (s : State) : s.nextRound.phase = s.phase := rfl
@[simp] theorem nextRound_op (s : State) : s.nextRound.op = s.op := rfl
@[simp] theorem nextRound_arg (s : State) : s.nextRound.arg = s.arg := rfl
@[simp] theorem nextRound_rnd (s : State) : s.nextRound.rnd = s.rnd + 1 := rfl
@[simp] theorem nextRound_nblk (s : State) : s.nextRound.nblk = s.nblk := rfl
@[simp] theorem nextRound_k (s : State) : s.nextRound.k = s.k := rfl
@[simp] theorem nextRound_widx (s : State) : s.nextRound.widx = s.widx := rfl
@[simp] theorem nextRound_mem (s : State) : s.nextRound.mem = s.mem := rfl
@[simp] theorem nextRound_raced (s : State) : s.nextRound.raced = s.raced := rfl
@[simp] theorem nextRound_unseen (s : State) : s.nextRound.unseen = s.unseen := rfl
@[simp] theorem nextRound_digested (s : State) : s.nextRound.digested = s.digested := rfl
@[simp] theorem nextRound_agent (s : State) : s.nextRound.agent = s.agent := rfl
@[simp] theorem nextRound_taken (s : State) : s.nextRound.taken = s.taken := rfl
@[simp] theorem nextRound_platform (s : State) : s.nextRound.platform = s.platform := rfl
@[simp] theorem nextRound_inputs (s : State) : s.nextRound.inputs = s.inputs := rfl
@[simp] theorem nextRound_response (s : State) : s.nextRound.response = s.response := rfl
@[simp] theorem nextRound_draws (s : State) : s.nextRound.draws = s.draws := rfl

/-! ### endBlock -/

@[simp] theorem endBlock_lanes (s : State) : s.endBlock.lanes = s.lanes := rfl
@[simp] theorem endBlock_laneAny (s : State) : s.endBlock.laneAny = s.laneAny := rfl
@[simp] theorem endBlock_ieDone (s : State) : s.endBlock.ieDone = s.ieDone := rfl
@[simp] theorem endBlock_ieErr (s : State) : s.endBlock.ieErr = s.ieErr := rfl
@[simp] theorem endBlock_busy (s : State) : s.endBlock.busy = s.busy := rfl
@[simp] theorem endBlock_done (s : State) : s.endBlock.done = s.done := rfl
@[simp] theorem endBlock_err (s : State) : s.endBlock.err = s.err := rfl
@[simp] theorem endBlock_errcode (s : State) : s.endBlock.errcode = s.errcode := rfl
@[simp] theorem endBlock_src (s : State) : s.endBlock.src = s.src := rfl
@[simp] theorem endBlock_len (s : State) : s.endBlock.len = s.len := rfl
@[simp] theorem endBlock_dst (s : State) : s.endBlock.dst = s.dst := rfl
@[simp] theorem endBlock_blocks (s : State) : s.endBlock.blocks = s.blocks + 1 := rfl
@[simp] theorem endBlock_faultAddr (s : State) : s.endBlock.faultAddr = s.faultAddr := rfl
@[simp] theorem endBlock_phase (s : State) : s.endBlock.phase = if s.k = rateBytes * s.nblk then .write else .absorb := rfl
@[simp] theorem endBlock_op (s : State) : s.endBlock.op = s.op := rfl
@[simp] theorem endBlock_arg (s : State) : s.endBlock.arg = s.arg := rfl
@[simp] theorem endBlock_rnd (s : State) : s.endBlock.rnd = s.rnd := rfl
@[simp] theorem endBlock_nblk (s : State) : s.endBlock.nblk = s.nblk := rfl
@[simp] theorem endBlock_k (s : State) : s.endBlock.k = s.k := rfl
@[simp] theorem endBlock_widx (s : State) : s.endBlock.widx = if s.k = rateBytes * s.nblk then 0 else s.widx := rfl
@[simp] theorem endBlock_mem (s : State) : s.endBlock.mem = s.mem := rfl
@[simp] theorem endBlock_raced (s : State) : s.endBlock.raced = s.raced := rfl
@[simp] theorem endBlock_unseen (s : State) : s.endBlock.unseen = s.unseen := rfl
@[simp] theorem endBlock_digested (s : State) : s.endBlock.digested = s.digested := rfl
@[simp] theorem endBlock_agent (s : State) : s.endBlock.agent = s.agent := rfl
@[simp] theorem endBlock_taken (s : State) : s.endBlock.taken = s.taken := rfl
@[simp] theorem endBlock_platform (s : State) : s.endBlock.platform = s.platform := rfl
@[simp] theorem endBlock_inputs (s : State) : s.endBlock.inputs = s.inputs := rfl
@[simp] theorem endBlock_response (s : State) : s.endBlock.response = s.response := rfl
@[simp] theorem endBlock_draws (s : State) : s.endBlock.draws = s.draws := rfl

/-! ### nextByte -/

@[simp] theorem nextByte_lanes (s : State) : s.nextByte.lanes = s.lanes := rfl
@[simp] theorem nextByte_laneAny (s : State) : s.nextByte.laneAny = s.laneAny := rfl
@[simp] theorem nextByte_ieDone (s : State) : s.nextByte.ieDone = s.ieDone := rfl
@[simp] theorem nextByte_ieErr (s : State) : s.nextByte.ieErr = s.ieErr := rfl
@[simp] theorem nextByte_busy (s : State) : s.nextByte.busy = s.busy := rfl
@[simp] theorem nextByte_done (s : State) : s.nextByte.done = s.done := rfl
@[simp] theorem nextByte_err (s : State) : s.nextByte.err = s.err := rfl
@[simp] theorem nextByte_errcode (s : State) : s.nextByte.errcode = s.errcode := rfl
@[simp] theorem nextByte_src (s : State) : s.nextByte.src = s.src := rfl
@[simp] theorem nextByte_len (s : State) : s.nextByte.len = s.len := rfl
@[simp] theorem nextByte_dst (s : State) : s.nextByte.dst = s.dst := rfl
@[simp] theorem nextByte_blocks (s : State) : s.nextByte.blocks = s.blocks := rfl
@[simp] theorem nextByte_faultAddr (s : State) : s.nextByte.faultAddr = s.faultAddr := rfl
@[simp] theorem nextByte_phase (s : State) : s.nextByte.phase = if s.k % rateBytes = 135 then .perm else s.phase := rfl
@[simp] theorem nextByte_op (s : State) : s.nextByte.op = s.op := rfl
@[simp] theorem nextByte_arg (s : State) : s.nextByte.arg = s.arg := rfl
@[simp] theorem nextByte_rnd (s : State) : s.nextByte.rnd = if s.k % rateBytes = 135 then 0 else s.rnd := rfl
@[simp] theorem nextByte_nblk (s : State) : s.nextByte.nblk = s.nblk := rfl
@[simp] theorem nextByte_k (s : State) : s.nextByte.k = s.k + 1 := rfl
@[simp] theorem nextByte_widx (s : State) : s.nextByte.widx = s.widx := rfl
@[simp] theorem nextByte_mem (s : State) : s.nextByte.mem = s.mem := rfl
@[simp] theorem nextByte_raced (s : State) : s.nextByte.raced = s.raced := rfl
@[simp] theorem nextByte_unseen (s : State) : s.nextByte.unseen = s.unseen := rfl
@[simp] theorem nextByte_digested (s : State) : s.nextByte.digested = s.digested := rfl
@[simp] theorem nextByte_agent (s : State) : s.nextByte.agent = s.agent := rfl
@[simp] theorem nextByte_taken (s : State) : s.nextByte.taken = s.taken := rfl
@[simp] theorem nextByte_platform (s : State) : s.nextByte.platform = s.platform := rfl
@[simp] theorem nextByte_inputs (s : State) : s.nextByte.inputs = s.inputs := rfl
@[simp] theorem nextByte_response (s : State) : s.nextByte.response = s.response := rfl
@[simp] theorem nextByte_draws (s : State) : s.nextByte.draws = s.draws := rfl

/-! ### dmaStore -/

@[simp] theorem dmaStore_lanes (a : Nat) (b : Byte) (s : State) : (s.dmaStore a b).lanes = s.lanes := rfl
@[simp] theorem dmaStore_laneAny (a : Nat) (b : Byte) (s : State) : (s.dmaStore a b).laneAny = s.laneAny := rfl
@[simp] theorem dmaStore_ieDone (a : Nat) (b : Byte) (s : State) : (s.dmaStore a b).ieDone = s.ieDone := rfl
@[simp] theorem dmaStore_ieErr (a : Nat) (b : Byte) (s : State) : (s.dmaStore a b).ieErr = s.ieErr := rfl
@[simp] theorem dmaStore_busy (a : Nat) (b : Byte) (s : State) : (s.dmaStore a b).busy = s.busy := rfl
@[simp] theorem dmaStore_done (a : Nat) (b : Byte) (s : State) : (s.dmaStore a b).done = s.done := rfl
@[simp] theorem dmaStore_err (a : Nat) (b : Byte) (s : State) : (s.dmaStore a b).err = s.err := rfl
@[simp] theorem dmaStore_errcode (a : Nat) (b : Byte) (s : State) : (s.dmaStore a b).errcode = s.errcode := rfl
@[simp] theorem dmaStore_src (a : Nat) (b : Byte) (s : State) : (s.dmaStore a b).src = s.src := rfl
@[simp] theorem dmaStore_len (a : Nat) (b : Byte) (s : State) : (s.dmaStore a b).len = s.len := rfl
@[simp] theorem dmaStore_dst (a : Nat) (b : Byte) (s : State) : (s.dmaStore a b).dst = s.dst := rfl
@[simp] theorem dmaStore_blocks (a : Nat) (b : Byte) (s : State) : (s.dmaStore a b).blocks = s.blocks := rfl
@[simp] theorem dmaStore_faultAddr (a : Nat) (b : Byte) (s : State) : (s.dmaStore a b).faultAddr = s.faultAddr := rfl
@[simp] theorem dmaStore_phase (a : Nat) (b : Byte) (s : State) : (s.dmaStore a b).phase = s.phase := rfl
@[simp] theorem dmaStore_op (a : Nat) (b : Byte) (s : State) : (s.dmaStore a b).op = s.op := rfl
@[simp] theorem dmaStore_arg (a : Nat) (b : Byte) (s : State) : (s.dmaStore a b).arg = s.arg := rfl
@[simp] theorem dmaStore_rnd (a : Nat) (b : Byte) (s : State) : (s.dmaStore a b).rnd = s.rnd := rfl
@[simp] theorem dmaStore_nblk (a : Nat) (b : Byte) (s : State) : (s.dmaStore a b).nblk = s.nblk := rfl
@[simp] theorem dmaStore_k (a : Nat) (b : Byte) (s : State) : (s.dmaStore a b).k = s.k := rfl
@[simp] theorem dmaStore_widx (a : Nat) (b : Byte) (s : State) : (s.dmaStore a b).widx = s.widx := rfl
@[simp] theorem dmaStore_mem (a : Nat) (b : Byte) (s : State) : (s.dmaStore a b).mem = if s.raced.contains a then Memory.forget s.mem a 1 else Memory.write s.mem a b := rfl
@[simp] theorem dmaStore_raced (a : Nat) (b : Byte) (s : State) : (s.dmaStore a b).raced = s.raced := rfl
@[simp] theorem dmaStore_unseen (a : Nat) (b : Byte) (s : State) : (s.dmaStore a b).unseen = s.unseen := rfl
@[simp] theorem dmaStore_digested (a : Nat) (b : Byte) (s : State) : (s.dmaStore a b).digested = putDigest s.digested a := rfl
@[simp] theorem dmaStore_agent (a : Nat) (b : Byte) (s : State) : (s.dmaStore a b).agent = s.agent := rfl
@[simp] theorem dmaStore_taken (a : Nat) (b : Byte) (s : State) : (s.dmaStore a b).taken = s.taken := rfl
@[simp] theorem dmaStore_platform (a : Nat) (b : Byte) (s : State) : (s.dmaStore a b).platform = s.platform := rfl
@[simp] theorem dmaStore_inputs (a : Nat) (b : Byte) (s : State) : (s.dmaStore a b).inputs = s.inputs := rfl
@[simp] theorem dmaStore_response (a : Nat) (b : Byte) (s : State) : (s.dmaStore a b).response = s.response := rfl
@[simp] theorem dmaStore_draws (a : Nat) (b : Byte) (s : State) : (s.dmaStore a b).draws = s.draws := rfl

/-! ### nextDigestByte -/

@[simp] theorem nextDigestByte_lanes (s : State) : s.nextDigestByte.lanes = s.lanes := rfl
@[simp] theorem nextDigestByte_laneAny (s : State) : s.nextDigestByte.laneAny = s.laneAny := rfl
@[simp] theorem nextDigestByte_ieDone (s : State) : s.nextDigestByte.ieDone = s.ieDone := rfl
@[simp] theorem nextDigestByte_ieErr (s : State) : s.nextDigestByte.ieErr = s.ieErr := rfl
@[simp] theorem nextDigestByte_busy (s : State) : s.nextDigestByte.busy = s.busy := rfl
@[simp] theorem nextDigestByte_done (s : State) : s.nextDigestByte.done = s.done := rfl
@[simp] theorem nextDigestByte_err (s : State) : s.nextDigestByte.err = s.err := rfl
@[simp] theorem nextDigestByte_errcode (s : State) : s.nextDigestByte.errcode = s.errcode := rfl
@[simp] theorem nextDigestByte_src (s : State) : s.nextDigestByte.src = s.src := rfl
@[simp] theorem nextDigestByte_len (s : State) : s.nextDigestByte.len = s.len := rfl
@[simp] theorem nextDigestByte_dst (s : State) : s.nextDigestByte.dst = s.dst := rfl
@[simp] theorem nextDigestByte_blocks (s : State) : s.nextDigestByte.blocks = s.blocks := rfl
@[simp] theorem nextDigestByte_faultAddr (s : State) : s.nextDigestByte.faultAddr = s.faultAddr := rfl
@[simp] theorem nextDigestByte_phase (s : State) : s.nextDigestByte.phase = s.phase := rfl
@[simp] theorem nextDigestByte_op (s : State) : s.nextDigestByte.op = s.op := rfl
@[simp] theorem nextDigestByte_arg (s : State) : s.nextDigestByte.arg = s.arg := rfl
@[simp] theorem nextDigestByte_rnd (s : State) : s.nextDigestByte.rnd = s.rnd := rfl
@[simp] theorem nextDigestByte_nblk (s : State) : s.nextDigestByte.nblk = s.nblk := rfl
@[simp] theorem nextDigestByte_k (s : State) : s.nextDigestByte.k = s.k := rfl
@[simp] theorem nextDigestByte_widx (s : State) : s.nextDigestByte.widx = s.widx + 1 := rfl
@[simp] theorem nextDigestByte_mem (s : State) : s.nextDigestByte.mem = s.mem := rfl
@[simp] theorem nextDigestByte_raced (s : State) : s.nextDigestByte.raced = s.raced := rfl
@[simp] theorem nextDigestByte_unseen (s : State) : s.nextDigestByte.unseen = s.unseen := rfl
@[simp] theorem nextDigestByte_digested (s : State) : s.nextDigestByte.digested = s.digested := rfl
@[simp] theorem nextDigestByte_agent (s : State) : s.nextDigestByte.agent = s.agent := rfl
@[simp] theorem nextDigestByte_taken (s : State) : s.nextDigestByte.taken = s.taken := rfl
@[simp] theorem nextDigestByte_platform (s : State) : s.nextDigestByte.platform = s.platform := rfl
@[simp] theorem nextDigestByte_inputs (s : State) : s.nextDigestByte.inputs = s.inputs := rfl
@[simp] theorem nextDigestByte_response (s : State) : s.nextDigestByte.response = s.response := rfl
@[simp] theorem nextDigestByte_draws (s : State) : s.nextDigestByte.draws = s.draws := rfl

/-! ### setSrc -/

@[simp] theorem setSrc_lanes (v : Word) (s : State) : (s.setSrc v).lanes = s.lanes := rfl
@[simp] theorem setSrc_laneAny (v : Word) (s : State) : (s.setSrc v).laneAny = s.laneAny := rfl
@[simp] theorem setSrc_ieDone (v : Word) (s : State) : (s.setSrc v).ieDone = s.ieDone := rfl
@[simp] theorem setSrc_ieErr (v : Word) (s : State) : (s.setSrc v).ieErr = s.ieErr := rfl
@[simp] theorem setSrc_busy (v : Word) (s : State) : (s.setSrc v).busy = s.busy := rfl
@[simp] theorem setSrc_done (v : Word) (s : State) : (s.setSrc v).done = s.done := rfl
@[simp] theorem setSrc_err (v : Word) (s : State) : (s.setSrc v).err = s.err := rfl
@[simp] theorem setSrc_errcode (v : Word) (s : State) : (s.setSrc v).errcode = s.errcode := rfl
@[simp] theorem setSrc_src (v : Word) (s : State) : (s.setSrc v).src = v := rfl
@[simp] theorem setSrc_len (v : Word) (s : State) : (s.setSrc v).len = s.len := rfl
@[simp] theorem setSrc_dst (v : Word) (s : State) : (s.setSrc v).dst = s.dst := rfl
@[simp] theorem setSrc_blocks (v : Word) (s : State) : (s.setSrc v).blocks = s.blocks := rfl
@[simp] theorem setSrc_faultAddr (v : Word) (s : State) : (s.setSrc v).faultAddr = s.faultAddr := rfl
@[simp] theorem setSrc_phase (v : Word) (s : State) : (s.setSrc v).phase = s.phase := rfl
@[simp] theorem setSrc_op (v : Word) (s : State) : (s.setSrc v).op = s.op := rfl
@[simp] theorem setSrc_arg (v : Word) (s : State) : (s.setSrc v).arg = s.arg := rfl
@[simp] theorem setSrc_rnd (v : Word) (s : State) : (s.setSrc v).rnd = s.rnd := rfl
@[simp] theorem setSrc_nblk (v : Word) (s : State) : (s.setSrc v).nblk = s.nblk := rfl
@[simp] theorem setSrc_k (v : Word) (s : State) : (s.setSrc v).k = s.k := rfl
@[simp] theorem setSrc_widx (v : Word) (s : State) : (s.setSrc v).widx = s.widx := rfl
@[simp] theorem setSrc_mem (v : Word) (s : State) : (s.setSrc v).mem = s.mem := rfl
@[simp] theorem setSrc_raced (v : Word) (s : State) : (s.setSrc v).raced = s.raced := rfl
@[simp] theorem setSrc_unseen (v : Word) (s : State) : (s.setSrc v).unseen = s.unseen := rfl
@[simp] theorem setSrc_digested (v : Word) (s : State) : (s.setSrc v).digested = s.digested := rfl
@[simp] theorem setSrc_agent (v : Word) (s : State) : (s.setSrc v).agent = s.agent := rfl
@[simp] theorem setSrc_taken (v : Word) (s : State) : (s.setSrc v).taken = s.taken := rfl
@[simp] theorem setSrc_platform (v : Word) (s : State) : (s.setSrc v).platform = s.platform := rfl
@[simp] theorem setSrc_inputs (v : Word) (s : State) : (s.setSrc v).inputs = s.inputs := rfl
@[simp] theorem setSrc_response (v : Word) (s : State) : (s.setSrc v).response = s.response := rfl
@[simp] theorem setSrc_draws (v : Word) (s : State) : (s.setSrc v).draws = s.draws := rfl

/-! ### setLen -/

@[simp] theorem setLen_lanes (v : Word) (s : State) : (s.setLen v).lanes = s.lanes := rfl
@[simp] theorem setLen_laneAny (v : Word) (s : State) : (s.setLen v).laneAny = s.laneAny := rfl
@[simp] theorem setLen_ieDone (v : Word) (s : State) : (s.setLen v).ieDone = s.ieDone := rfl
@[simp] theorem setLen_ieErr (v : Word) (s : State) : (s.setLen v).ieErr = s.ieErr := rfl
@[simp] theorem setLen_busy (v : Word) (s : State) : (s.setLen v).busy = s.busy := rfl
@[simp] theorem setLen_done (v : Word) (s : State) : (s.setLen v).done = s.done := rfl
@[simp] theorem setLen_err (v : Word) (s : State) : (s.setLen v).err = s.err := rfl
@[simp] theorem setLen_errcode (v : Word) (s : State) : (s.setLen v).errcode = s.errcode := rfl
@[simp] theorem setLen_src (v : Word) (s : State) : (s.setLen v).src = s.src := rfl
@[simp] theorem setLen_len (v : Word) (s : State) : (s.setLen v).len = v := rfl
@[simp] theorem setLen_dst (v : Word) (s : State) : (s.setLen v).dst = s.dst := rfl
@[simp] theorem setLen_blocks (v : Word) (s : State) : (s.setLen v).blocks = s.blocks := rfl
@[simp] theorem setLen_faultAddr (v : Word) (s : State) : (s.setLen v).faultAddr = s.faultAddr := rfl
@[simp] theorem setLen_phase (v : Word) (s : State) : (s.setLen v).phase = s.phase := rfl
@[simp] theorem setLen_op (v : Word) (s : State) : (s.setLen v).op = s.op := rfl
@[simp] theorem setLen_arg (v : Word) (s : State) : (s.setLen v).arg = s.arg := rfl
@[simp] theorem setLen_rnd (v : Word) (s : State) : (s.setLen v).rnd = s.rnd := rfl
@[simp] theorem setLen_nblk (v : Word) (s : State) : (s.setLen v).nblk = s.nblk := rfl
@[simp] theorem setLen_k (v : Word) (s : State) : (s.setLen v).k = s.k := rfl
@[simp] theorem setLen_widx (v : Word) (s : State) : (s.setLen v).widx = s.widx := rfl
@[simp] theorem setLen_mem (v : Word) (s : State) : (s.setLen v).mem = s.mem := rfl
@[simp] theorem setLen_raced (v : Word) (s : State) : (s.setLen v).raced = s.raced := rfl
@[simp] theorem setLen_unseen (v : Word) (s : State) : (s.setLen v).unseen = s.unseen := rfl
@[simp] theorem setLen_digested (v : Word) (s : State) : (s.setLen v).digested = s.digested := rfl
@[simp] theorem setLen_agent (v : Word) (s : State) : (s.setLen v).agent = s.agent := rfl
@[simp] theorem setLen_taken (v : Word) (s : State) : (s.setLen v).taken = s.taken := rfl
@[simp] theorem setLen_platform (v : Word) (s : State) : (s.setLen v).platform = s.platform := rfl
@[simp] theorem setLen_inputs (v : Word) (s : State) : (s.setLen v).inputs = s.inputs := rfl
@[simp] theorem setLen_response (v : Word) (s : State) : (s.setLen v).response = s.response := rfl
@[simp] theorem setLen_draws (v : Word) (s : State) : (s.setLen v).draws = s.draws := rfl

/-! ### setDst -/

@[simp] theorem setDst_lanes (v : Word) (s : State) : (s.setDst v).lanes = s.lanes := rfl
@[simp] theorem setDst_laneAny (v : Word) (s : State) : (s.setDst v).laneAny = s.laneAny := rfl
@[simp] theorem setDst_ieDone (v : Word) (s : State) : (s.setDst v).ieDone = s.ieDone := rfl
@[simp] theorem setDst_ieErr (v : Word) (s : State) : (s.setDst v).ieErr = s.ieErr := rfl
@[simp] theorem setDst_busy (v : Word) (s : State) : (s.setDst v).busy = s.busy := rfl
@[simp] theorem setDst_done (v : Word) (s : State) : (s.setDst v).done = s.done := rfl
@[simp] theorem setDst_err (v : Word) (s : State) : (s.setDst v).err = s.err := rfl
@[simp] theorem setDst_errcode (v : Word) (s : State) : (s.setDst v).errcode = s.errcode := rfl
@[simp] theorem setDst_src (v : Word) (s : State) : (s.setDst v).src = s.src := rfl
@[simp] theorem setDst_len (v : Word) (s : State) : (s.setDst v).len = s.len := rfl
@[simp] theorem setDst_dst (v : Word) (s : State) : (s.setDst v).dst = v := rfl
@[simp] theorem setDst_blocks (v : Word) (s : State) : (s.setDst v).blocks = s.blocks := rfl
@[simp] theorem setDst_faultAddr (v : Word) (s : State) : (s.setDst v).faultAddr = s.faultAddr := rfl
@[simp] theorem setDst_phase (v : Word) (s : State) : (s.setDst v).phase = s.phase := rfl
@[simp] theorem setDst_op (v : Word) (s : State) : (s.setDst v).op = s.op := rfl
@[simp] theorem setDst_arg (v : Word) (s : State) : (s.setDst v).arg = s.arg := rfl
@[simp] theorem setDst_rnd (v : Word) (s : State) : (s.setDst v).rnd = s.rnd := rfl
@[simp] theorem setDst_nblk (v : Word) (s : State) : (s.setDst v).nblk = s.nblk := rfl
@[simp] theorem setDst_k (v : Word) (s : State) : (s.setDst v).k = s.k := rfl
@[simp] theorem setDst_widx (v : Word) (s : State) : (s.setDst v).widx = s.widx := rfl
@[simp] theorem setDst_mem (v : Word) (s : State) : (s.setDst v).mem = s.mem := rfl
@[simp] theorem setDst_raced (v : Word) (s : State) : (s.setDst v).raced = s.raced := rfl
@[simp] theorem setDst_unseen (v : Word) (s : State) : (s.setDst v).unseen = s.unseen := rfl
@[simp] theorem setDst_digested (v : Word) (s : State) : (s.setDst v).digested = s.digested := rfl
@[simp] theorem setDst_agent (v : Word) (s : State) : (s.setDst v).agent = s.agent := rfl
@[simp] theorem setDst_taken (v : Word) (s : State) : (s.setDst v).taken = s.taken := rfl
@[simp] theorem setDst_platform (v : Word) (s : State) : (s.setDst v).platform = s.platform := rfl
@[simp] theorem setDst_inputs (v : Word) (s : State) : (s.setDst v).inputs = s.inputs := rfl
@[simp] theorem setDst_response (v : Word) (s : State) : (s.setDst v).response = s.response := rfl
@[simp] theorem setDst_draws (v : Word) (s : State) : (s.setDst v).draws = s.draws := rfl

/-! ### setCtrl -/

@[simp] theorem setCtrl_lanes (v : Word) (s : State) : (s.setCtrl v).lanes = s.lanes := rfl
@[simp] theorem setCtrl_laneAny (v : Word) (s : State) : (s.setCtrl v).laneAny = s.laneAny := rfl
@[simp] theorem setCtrl_ieDone (v : Word) (s : State) : (s.setCtrl v).ieDone = v.getLsbD 0 := rfl
@[simp] theorem setCtrl_ieErr (v : Word) (s : State) : (s.setCtrl v).ieErr = v.getLsbD 1 := rfl
@[simp] theorem setCtrl_busy (v : Word) (s : State) : (s.setCtrl v).busy = s.busy := rfl
@[simp] theorem setCtrl_done (v : Word) (s : State) : (s.setCtrl v).done = s.done := rfl
@[simp] theorem setCtrl_err (v : Word) (s : State) : (s.setCtrl v).err = s.err := rfl
@[simp] theorem setCtrl_errcode (v : Word) (s : State) : (s.setCtrl v).errcode = s.errcode := rfl
@[simp] theorem setCtrl_src (v : Word) (s : State) : (s.setCtrl v).src = s.src := rfl
@[simp] theorem setCtrl_len (v : Word) (s : State) : (s.setCtrl v).len = s.len := rfl
@[simp] theorem setCtrl_dst (v : Word) (s : State) : (s.setCtrl v).dst = s.dst := rfl
@[simp] theorem setCtrl_blocks (v : Word) (s : State) : (s.setCtrl v).blocks = s.blocks := rfl
@[simp] theorem setCtrl_faultAddr (v : Word) (s : State) : (s.setCtrl v).faultAddr = s.faultAddr := rfl
@[simp] theorem setCtrl_phase (v : Word) (s : State) : (s.setCtrl v).phase = s.phase := rfl
@[simp] theorem setCtrl_op (v : Word) (s : State) : (s.setCtrl v).op = s.op := rfl
@[simp] theorem setCtrl_arg (v : Word) (s : State) : (s.setCtrl v).arg = s.arg := rfl
@[simp] theorem setCtrl_rnd (v : Word) (s : State) : (s.setCtrl v).rnd = s.rnd := rfl
@[simp] theorem setCtrl_nblk (v : Word) (s : State) : (s.setCtrl v).nblk = s.nblk := rfl
@[simp] theorem setCtrl_k (v : Word) (s : State) : (s.setCtrl v).k = s.k := rfl
@[simp] theorem setCtrl_widx (v : Word) (s : State) : (s.setCtrl v).widx = s.widx := rfl
@[simp] theorem setCtrl_mem (v : Word) (s : State) : (s.setCtrl v).mem = s.mem := rfl
@[simp] theorem setCtrl_raced (v : Word) (s : State) : (s.setCtrl v).raced = s.raced := rfl
@[simp] theorem setCtrl_unseen (v : Word) (s : State) : (s.setCtrl v).unseen = s.unseen := rfl
@[simp] theorem setCtrl_digested (v : Word) (s : State) : (s.setCtrl v).digested = s.digested := rfl
@[simp] theorem setCtrl_agent (v : Word) (s : State) : (s.setCtrl v).agent = s.agent := rfl
@[simp] theorem setCtrl_taken (v : Word) (s : State) : (s.setCtrl v).taken = s.taken := rfl
@[simp] theorem setCtrl_platform (v : Word) (s : State) : (s.setCtrl v).platform = s.platform := rfl
@[simp] theorem setCtrl_inputs (v : Word) (s : State) : (s.setCtrl v).inputs = s.inputs := rfl
@[simp] theorem setCtrl_response (v : Word) (s : State) : (s.setCtrl v).response = s.response := rfl
@[simp] theorem setCtrl_draws (v : Word) (s : State) : (s.setCtrl v).draws = s.draws := rfl

/-! ### applyRound -/

@[simp] theorem applyRound_lanes (s : State) : s.applyRound.lanes = keccakRound s.laneValues s.rnd := mapLanes_lanes _ s
@[simp] theorem applyRound_laneAny (s : State) : s.applyRound.laneAny = Vector.replicate 25 false := mapLanes_laneAny _ s
@[simp] theorem applyRound_ieDone (s : State) : s.applyRound.ieDone = s.ieDone := mapLanes_ieDone _ s
@[simp] theorem applyRound_ieErr (s : State) : s.applyRound.ieErr = s.ieErr := mapLanes_ieErr _ s
@[simp] theorem applyRound_busy (s : State) : s.applyRound.busy = s.busy := mapLanes_busy _ s
@[simp] theorem applyRound_done (s : State) : s.applyRound.done = s.done := mapLanes_done _ s
@[simp] theorem applyRound_err (s : State) : s.applyRound.err = s.err := mapLanes_err _ s
@[simp] theorem applyRound_errcode (s : State) : s.applyRound.errcode = s.errcode := mapLanes_errcode _ s
@[simp] theorem applyRound_src (s : State) : s.applyRound.src = s.src := mapLanes_src _ s
@[simp] theorem applyRound_len (s : State) : s.applyRound.len = s.len := mapLanes_len _ s
@[simp] theorem applyRound_dst (s : State) : s.applyRound.dst = s.dst := mapLanes_dst _ s
@[simp] theorem applyRound_blocks (s : State) : s.applyRound.blocks = s.blocks := mapLanes_blocks _ s
@[simp] theorem applyRound_faultAddr (s : State) : s.applyRound.faultAddr = s.faultAddr := mapLanes_faultAddr _ s
@[simp] theorem applyRound_phase (s : State) : s.applyRound.phase = s.phase := mapLanes_phase _ s
@[simp] theorem applyRound_op (s : State) : s.applyRound.op = s.op := mapLanes_op _ s
@[simp] theorem applyRound_arg (s : State) : s.applyRound.arg = s.arg := mapLanes_arg _ s
@[simp] theorem applyRound_rnd (s : State) : s.applyRound.rnd = s.rnd := mapLanes_rnd _ s
@[simp] theorem applyRound_nblk (s : State) : s.applyRound.nblk = s.nblk := mapLanes_nblk _ s
@[simp] theorem applyRound_k (s : State) : s.applyRound.k = s.k := mapLanes_k _ s
@[simp] theorem applyRound_widx (s : State) : s.applyRound.widx = s.widx := mapLanes_widx _ s
@[simp] theorem applyRound_mem (s : State) : s.applyRound.mem = s.mem := mapLanes_mem _ s
@[simp] theorem applyRound_raced (s : State) : s.applyRound.raced = s.raced := mapLanes_raced _ s
@[simp] theorem applyRound_unseen (s : State) : s.applyRound.unseen = s.unseen := mapLanes_unseen _ s
@[simp] theorem applyRound_digested (s : State) : s.applyRound.digested = s.digested := mapLanes_digested _ s
@[simp] theorem applyRound_agent (s : State) : s.applyRound.agent = s.agent := mapLanes_agent _ s
@[simp] theorem applyRound_taken (s : State) : s.applyRound.taken = s.taken := mapLanes_taken _ s
@[simp] theorem applyRound_platform (s : State) : s.applyRound.platform = s.platform := mapLanes_platform _ s
@[simp] theorem applyRound_inputs (s : State) : s.applyRound.inputs = s.inputs := mapLanes_inputs _ s
@[simp] theorem applyRound_response (s : State) : s.applyRound.response = s.response := mapLanes_response _ s
@[simp] theorem applyRound_draws (s : State) : s.applyRound.draws = s.draws + s.someLaneAny.toNat := mapLanes_draws _ s

/-! ### readFault -/

@[simp] theorem readFault_lanes (n : Nat) (s : State) : (s.readFault n).lanes = zeroLanes := rfl
@[simp] theorem readFault_laneAny (n : Nat) (s : State) : (s.readFault n).laneAny = Vector.replicate 25 true := rfl
@[simp] theorem readFault_ieDone (n : Nat) (s : State) : (s.readFault n).ieDone = s.ieDone := rfl
@[simp] theorem readFault_ieErr (n : Nat) (s : State) : (s.readFault n).ieErr = s.ieErr := rfl
@[simp] theorem readFault_busy (n : Nat) (s : State) : (s.readFault n).busy = false := rfl
@[simp] theorem readFault_done (n : Nat) (s : State) : (s.readFault n).done = s.done := rfl
@[simp] theorem readFault_err (n : Nat) (s : State) : (s.readFault n).err = true := rfl
@[simp] theorem readFault_errcode (n : Nat) (s : State) : (s.readFault n).errcode = if s.err then s.errcode else 0x04 := rfl
@[simp] theorem readFault_src (n : Nat) (s : State) : (s.readFault n).src = s.src := rfl
@[simp] theorem readFault_len (n : Nat) (s : State) : (s.readFault n).len = s.len := rfl
@[simp] theorem readFault_dst (n : Nat) (s : State) : (s.readFault n).dst = s.dst := rfl
@[simp] theorem readFault_blocks (n : Nat) (s : State) : (s.readFault n).blocks = s.blocks := rfl
@[simp] theorem readFault_faultAddr (n : Nat) (s : State) : (s.readFault n).faultAddr = if !s.err && true then BitVec.ofNat 64 n else s.faultAddr := rfl
@[simp] theorem readFault_phase (n : Nat) (s : State) : (s.readFault n).phase = .idle := rfl
@[simp] theorem readFault_op (n : Nat) (s : State) : (s.readFault n).op = s.op := rfl
@[simp] theorem readFault_arg (n : Nat) (s : State) : (s.readFault n).arg = s.arg := rfl
@[simp] theorem readFault_rnd (n : Nat) (s : State) : (s.readFault n).rnd = s.rnd := rfl
@[simp] theorem readFault_nblk (n : Nat) (s : State) : (s.readFault n).nblk = s.nblk := rfl
@[simp] theorem readFault_k (n : Nat) (s : State) : (s.readFault n).k = s.k := rfl
@[simp] theorem readFault_widx (n : Nat) (s : State) : (s.readFault n).widx = s.widx := rfl
@[simp] theorem readFault_mem (n : Nat) (s : State) : (s.readFault n).mem = s.mem := rfl
@[simp] theorem readFault_raced (n : Nat) (s : State) : (s.readFault n).raced = [] := rfl
@[simp] theorem readFault_unseen (n : Nat) (s : State) : (s.readFault n).unseen = s.unseen := rfl
@[simp] theorem readFault_digested (n : Nat) (s : State) : (s.readFault n).digested = s.digested := rfl
@[simp] theorem readFault_agent (n : Nat) (s : State) : (s.readFault n).agent = s.agent := rfl
@[simp] theorem readFault_taken (n : Nat) (s : State) : (s.readFault n).taken = s.taken := rfl
@[simp] theorem readFault_platform (n : Nat) (s : State) : (s.readFault n).platform = s.platform := rfl
@[simp] theorem readFault_inputs (n : Nat) (s : State) : (s.readFault n).inputs = s.inputs := rfl
@[simp] theorem readFault_response (n : Nat) (s : State) : (s.readFault n).response = s.response := rfl
@[simp] theorem readFault_draws (n : Nat) (s : State) : (s.readFault n).draws = s.draws := rfl

/-! ### writeFault -/

@[simp] theorem writeFault_lanes (n : Nat) (s : State) : (s.writeFault n).lanes = s.lanes := rfl
@[simp] theorem writeFault_laneAny (n : Nat) (s : State) : (s.writeFault n).laneAny = s.laneAny := rfl
@[simp] theorem writeFault_ieDone (n : Nat) (s : State) : (s.writeFault n).ieDone = s.ieDone := rfl
@[simp] theorem writeFault_ieErr (n : Nat) (s : State) : (s.writeFault n).ieErr = s.ieErr := rfl
@[simp] theorem writeFault_busy (n : Nat) (s : State) : (s.writeFault n).busy = false := rfl
@[simp] theorem writeFault_done (n : Nat) (s : State) : (s.writeFault n).done = s.done := rfl
@[simp] theorem writeFault_err (n : Nat) (s : State) : (s.writeFault n).err = true := rfl
@[simp] theorem writeFault_errcode (n : Nat) (s : State) : (s.writeFault n).errcode = if s.err then s.errcode else 0x05 := rfl
@[simp] theorem writeFault_src (n : Nat) (s : State) : (s.writeFault n).src = s.src := rfl
@[simp] theorem writeFault_len (n : Nat) (s : State) : (s.writeFault n).len = s.len := rfl
@[simp] theorem writeFault_dst (n : Nat) (s : State) : (s.writeFault n).dst = s.dst := rfl
@[simp] theorem writeFault_blocks (n : Nat) (s : State) : (s.writeFault n).blocks = s.blocks := rfl
@[simp] theorem writeFault_faultAddr (n : Nat) (s : State) : (s.writeFault n).faultAddr = if !s.err && true then BitVec.ofNat 64 n else s.faultAddr := rfl
@[simp] theorem writeFault_phase (n : Nat) (s : State) : (s.writeFault n).phase = .idle := rfl
@[simp] theorem writeFault_op (n : Nat) (s : State) : (s.writeFault n).op = s.op := rfl
@[simp] theorem writeFault_arg (n : Nat) (s : State) : (s.writeFault n).arg = s.arg := rfl
@[simp] theorem writeFault_rnd (n : Nat) (s : State) : (s.writeFault n).rnd = s.rnd := rfl
@[simp] theorem writeFault_nblk (n : Nat) (s : State) : (s.writeFault n).nblk = s.nblk := rfl
@[simp] theorem writeFault_k (n : Nat) (s : State) : (s.writeFault n).k = s.k := rfl
@[simp] theorem writeFault_widx (n : Nat) (s : State) : (s.writeFault n).widx = s.widx := rfl
@[simp] theorem writeFault_mem (n : Nat) (s : State) : (s.writeFault n).mem = Memory.forget s.mem n (digestAddr s digestBytes - n) := rfl
@[simp] theorem writeFault_raced (n : Nat) (s : State) : (s.writeFault n).raced = [] := rfl
@[simp] theorem writeFault_unseen (n : Nat) (s : State) : (s.writeFault n).unseen = s.unseen := rfl
@[simp] theorem writeFault_digested (n : Nat) (s : State) : (s.writeFault n).digested = s.digested.filter fun e => !inDigest s e.addr := rfl
@[simp] theorem writeFault_agent (n : Nat) (s : State) : (s.writeFault n).agent = s.agent := rfl
@[simp] theorem writeFault_taken (n : Nat) (s : State) : (s.writeFault n).taken = s.taken := rfl
@[simp] theorem writeFault_platform (n : Nat) (s : State) : (s.writeFault n).platform = s.platform := rfl
@[simp] theorem writeFault_inputs (n : Nat) (s : State) : (s.writeFault n).inputs = s.inputs := rfl
@[simp] theorem writeFault_response (n : Nat) (s : State) : (s.writeFault n).response = s.response := rfl
@[simp] theorem writeFault_draws (n : Nat) (s : State) : (s.writeFault n).draws = s.draws := rfl

/-! ### resetBlock -/

@[simp] theorem resetBlock_lanes (s : State) : (resetBlock s).lanes = State.reset.lanes := rfl
@[simp] theorem resetBlock_laneAny (s : State) : (resetBlock s).laneAny = State.reset.laneAny := rfl
@[simp] theorem resetBlock_ieDone (s : State) : (resetBlock s).ieDone = State.reset.ieDone := rfl
@[simp] theorem resetBlock_ieErr (s : State) : (resetBlock s).ieErr = State.reset.ieErr := rfl
@[simp] theorem resetBlock_busy (s : State) : (resetBlock s).busy = State.reset.busy := rfl
@[simp] theorem resetBlock_done (s : State) : (resetBlock s).done = State.reset.done := rfl
@[simp] theorem resetBlock_err (s : State) : (resetBlock s).err = State.reset.err := rfl
@[simp] theorem resetBlock_errcode (s : State) : (resetBlock s).errcode = State.reset.errcode := rfl
@[simp] theorem resetBlock_src (s : State) : (resetBlock s).src = State.reset.src := rfl
@[simp] theorem resetBlock_len (s : State) : (resetBlock s).len = State.reset.len := rfl
@[simp] theorem resetBlock_dst (s : State) : (resetBlock s).dst = State.reset.dst := rfl
@[simp] theorem resetBlock_blocks (s : State) : (resetBlock s).blocks = State.reset.blocks := rfl
@[simp] theorem resetBlock_faultAddr (s : State) : (resetBlock s).faultAddr = State.reset.faultAddr := rfl
@[simp] theorem resetBlock_phase (s : State) : (resetBlock s).phase = State.reset.phase := rfl
@[simp] theorem resetBlock_op (s : State) : (resetBlock s).op = State.reset.op := rfl
@[simp] theorem resetBlock_arg (s : State) : (resetBlock s).arg = State.reset.arg := rfl
@[simp] theorem resetBlock_rnd (s : State) : (resetBlock s).rnd = State.reset.rnd := rfl
@[simp] theorem resetBlock_nblk (s : State) : (resetBlock s).nblk = State.reset.nblk := rfl
@[simp] theorem resetBlock_k (s : State) : (resetBlock s).k = State.reset.k := rfl
@[simp] theorem resetBlock_widx (s : State) : (resetBlock s).widx = State.reset.widx := rfl
@[simp] theorem resetBlock_mem (s : State) : (resetBlock s).mem = if s.hashBusy && s.phase == .write then Memory.forget s.mem s.dst.toNat digestBytes else s.mem := rfl
@[simp] theorem resetBlock_raced (s : State) : (resetBlock s).raced = State.reset.raced := rfl
@[simp] theorem resetBlock_unseen (s : State) : (resetBlock s).unseen = s.unseen := rfl
@[simp] theorem resetBlock_digested (s : State) : (resetBlock s).digested = s.digested := rfl
@[simp] theorem resetBlock_agent (s : State) : (resetBlock s).agent = s.agent := rfl
@[simp] theorem resetBlock_taken (s : State) : (resetBlock s).taken = State.reset.taken := rfl
@[simp] theorem resetBlock_platform (s : State) : (resetBlock s).platform = s.platform := rfl
@[simp] theorem resetBlock_inputs (s : State) : (resetBlock s).inputs = s.inputs := rfl
@[simp] theorem resetBlock_response (s : State) : (resetBlock s).response = s.response := rfl
@[simp] theorem resetBlock_draws (s : State) : (resetBlock s).draws = s.draws := rfl

/-! ### setMemResp -/

@[simp] theorem setMemResp_lanes (l : List RespRule) (s : State) : (setMemResp l s).lanes = s.lanes := rfl
@[simp] theorem setMemResp_laneAny (l : List RespRule) (s : State) : (setMemResp l s).laneAny = s.laneAny := rfl
@[simp] theorem setMemResp_ieDone (l : List RespRule) (s : State) : (setMemResp l s).ieDone = s.ieDone := rfl
@[simp] theorem setMemResp_ieErr (l : List RespRule) (s : State) : (setMemResp l s).ieErr = s.ieErr := rfl
@[simp] theorem setMemResp_busy (l : List RespRule) (s : State) : (setMemResp l s).busy = s.busy := rfl
@[simp] theorem setMemResp_done (l : List RespRule) (s : State) : (setMemResp l s).done = s.done := rfl
@[simp] theorem setMemResp_err (l : List RespRule) (s : State) : (setMemResp l s).err = s.err := rfl
@[simp] theorem setMemResp_errcode (l : List RespRule) (s : State) : (setMemResp l s).errcode = s.errcode := rfl
@[simp] theorem setMemResp_src (l : List RespRule) (s : State) : (setMemResp l s).src = s.src := rfl
@[simp] theorem setMemResp_len (l : List RespRule) (s : State) : (setMemResp l s).len = s.len := rfl
@[simp] theorem setMemResp_dst (l : List RespRule) (s : State) : (setMemResp l s).dst = s.dst := rfl
@[simp] theorem setMemResp_blocks (l : List RespRule) (s : State) : (setMemResp l s).blocks = s.blocks := rfl
@[simp] theorem setMemResp_faultAddr (l : List RespRule) (s : State) : (setMemResp l s).faultAddr = s.faultAddr := rfl
@[simp] theorem setMemResp_phase (l : List RespRule) (s : State) : (setMemResp l s).phase = s.phase := rfl
@[simp] theorem setMemResp_op (l : List RespRule) (s : State) : (setMemResp l s).op = s.op := rfl
@[simp] theorem setMemResp_arg (l : List RespRule) (s : State) : (setMemResp l s).arg = s.arg := rfl
@[simp] theorem setMemResp_rnd (l : List RespRule) (s : State) : (setMemResp l s).rnd = s.rnd := rfl
@[simp] theorem setMemResp_nblk (l : List RespRule) (s : State) : (setMemResp l s).nblk = s.nblk := rfl
@[simp] theorem setMemResp_k (l : List RespRule) (s : State) : (setMemResp l s).k = s.k := rfl
@[simp] theorem setMemResp_widx (l : List RespRule) (s : State) : (setMemResp l s).widx = s.widx := rfl
@[simp] theorem setMemResp_mem (l : List RespRule) (s : State) : (setMemResp l s).mem = s.mem := rfl
@[simp] theorem setMemResp_raced (l : List RespRule) (s : State) : (setMemResp l s).raced = s.raced := rfl
@[simp] theorem setMemResp_unseen (l : List RespRule) (s : State) : (setMemResp l s).unseen = s.unseen := rfl
@[simp] theorem setMemResp_digested (l : List RespRule) (s : State) : (setMemResp l s).digested = s.digested := rfl
@[simp] theorem setMemResp_agent (l : List RespRule) (s : State) : (setMemResp l s).agent = s.agent := rfl
@[simp] theorem setMemResp_taken (l : List RespRule) (s : State) : (setMemResp l s).taken = s.taken := rfl
@[simp] theorem setMemResp_platform (l : List RespRule) (s : State) : (setMemResp l s).platform = { s.platform with memResp := l } := rfl
@[simp] theorem setMemResp_inputs (l : List RespRule) (s : State) : (setMemResp l s).inputs = s.inputs := rfl
@[simp] theorem setMemResp_response (l : List RespRule) (s : State) : (setMemResp l s).response = s.response := rfl
@[simp] theorem setMemResp_draws (l : List RespRule) (s : State) : (setMemResp l s).draws = s.draws := rfl

/-! ### setAgent -/

@[simp] theorem setAgent_lanes (g : Nat) (s : State) : (setAgent g s).lanes = s.lanes := rfl
@[simp] theorem setAgent_laneAny (g : Nat) (s : State) : (setAgent g s).laneAny = s.laneAny := rfl
@[simp] theorem setAgent_ieDone (g : Nat) (s : State) : (setAgent g s).ieDone = s.ieDone := rfl
@[simp] theorem setAgent_ieErr (g : Nat) (s : State) : (setAgent g s).ieErr = s.ieErr := rfl
@[simp] theorem setAgent_busy (g : Nat) (s : State) : (setAgent g s).busy = s.busy := rfl
@[simp] theorem setAgent_done (g : Nat) (s : State) : (setAgent g s).done = s.done := rfl
@[simp] theorem setAgent_err (g : Nat) (s : State) : (setAgent g s).err = s.err := rfl
@[simp] theorem setAgent_errcode (g : Nat) (s : State) : (setAgent g s).errcode = s.errcode := rfl
@[simp] theorem setAgent_src (g : Nat) (s : State) : (setAgent g s).src = s.src := rfl
@[simp] theorem setAgent_len (g : Nat) (s : State) : (setAgent g s).len = s.len := rfl
@[simp] theorem setAgent_dst (g : Nat) (s : State) : (setAgent g s).dst = s.dst := rfl
@[simp] theorem setAgent_blocks (g : Nat) (s : State) : (setAgent g s).blocks = s.blocks := rfl
@[simp] theorem setAgent_faultAddr (g : Nat) (s : State) : (setAgent g s).faultAddr = s.faultAddr := rfl
@[simp] theorem setAgent_phase (g : Nat) (s : State) : (setAgent g s).phase = s.phase := rfl
@[simp] theorem setAgent_op (g : Nat) (s : State) : (setAgent g s).op = s.op := rfl
@[simp] theorem setAgent_arg (g : Nat) (s : State) : (setAgent g s).arg = s.arg := rfl
@[simp] theorem setAgent_rnd (g : Nat) (s : State) : (setAgent g s).rnd = s.rnd := rfl
@[simp] theorem setAgent_nblk (g : Nat) (s : State) : (setAgent g s).nblk = s.nblk := rfl
@[simp] theorem setAgent_k (g : Nat) (s : State) : (setAgent g s).k = s.k := rfl
@[simp] theorem setAgent_widx (g : Nat) (s : State) : (setAgent g s).widx = s.widx := rfl
@[simp] theorem setAgent_mem (g : Nat) (s : State) : (setAgent g s).mem = s.mem := rfl
@[simp] theorem setAgent_raced (g : Nat) (s : State) : (setAgent g s).raced = s.raced := rfl
@[simp] theorem setAgent_unseen (g : Nat) (s : State) : (setAgent g s).unseen = s.unseen := rfl
@[simp] theorem setAgent_digested (g : Nat) (s : State) : (setAgent g s).digested = s.digested := rfl
@[simp] theorem setAgent_agent (g : Nat) (s : State) : (setAgent g s).agent = g := rfl
@[simp] theorem setAgent_taken (g : Nat) (s : State) : (setAgent g s).taken = s.taken := rfl
@[simp] theorem setAgent_platform (g : Nat) (s : State) : (setAgent g s).platform = s.platform := rfl
@[simp] theorem setAgent_inputs (g : Nat) (s : State) : (setAgent g s).inputs = s.inputs := rfl
@[simp] theorem setAgent_response (g : Nat) (s : State) : (setAgent g s).response = s.response := rfl
@[simp] theorem setAgent_draws (g : Nat) (s : State) : (setAgent g s).draws = s.draws := rfl

/-! ### race -/

@[simp] theorem race_lanes (a : Nat) (s : State) : (s.race a).lanes = s.lanes := rfl
@[simp] theorem race_laneAny (a : Nat) (s : State) : (s.race a).laneAny = s.laneAny := rfl
@[simp] theorem race_ieDone (a : Nat) (s : State) : (s.race a).ieDone = s.ieDone := rfl
@[simp] theorem race_ieErr (a : Nat) (s : State) : (s.race a).ieErr = s.ieErr := rfl
@[simp] theorem race_busy (a : Nat) (s : State) : (s.race a).busy = s.busy := rfl
@[simp] theorem race_done (a : Nat) (s : State) : (s.race a).done = s.done := rfl
@[simp] theorem race_err (a : Nat) (s : State) : (s.race a).err = s.err := rfl
@[simp] theorem race_errcode (a : Nat) (s : State) : (s.race a).errcode = s.errcode := rfl
@[simp] theorem race_src (a : Nat) (s : State) : (s.race a).src = s.src := rfl
@[simp] theorem race_len (a : Nat) (s : State) : (s.race a).len = s.len := rfl
@[simp] theorem race_dst (a : Nat) (s : State) : (s.race a).dst = s.dst := rfl
@[simp] theorem race_blocks (a : Nat) (s : State) : (s.race a).blocks = s.blocks := rfl
@[simp] theorem race_faultAddr (a : Nat) (s : State) : (s.race a).faultAddr = s.faultAddr := rfl
@[simp] theorem race_phase (a : Nat) (s : State) : (s.race a).phase = s.phase := rfl
@[simp] theorem race_op (a : Nat) (s : State) : (s.race a).op = s.op := rfl
@[simp] theorem race_arg (a : Nat) (s : State) : (s.race a).arg = s.arg := rfl
@[simp] theorem race_rnd (a : Nat) (s : State) : (s.race a).rnd = s.rnd := rfl
@[simp] theorem race_nblk (a : Nat) (s : State) : (s.race a).nblk = s.nblk := rfl
@[simp] theorem race_k (a : Nat) (s : State) : (s.race a).k = s.k := rfl
@[simp] theorem race_widx (a : Nat) (s : State) : (s.race a).widx = s.widx := rfl
@[simp] theorem race_mem (a : Nat) (s : State) : (s.race a).mem = Memory.forget s.mem a 1 := rfl
@[simp] theorem race_raced (a : Nat) (s : State) : (s.race a).raced = addAddr s.raced a := rfl
@[simp] theorem race_unseen (a : Nat) (s : State) : (s.race a).unseen = s.unseen := rfl
@[simp] theorem race_digested (a : Nat) (s : State) : (s.race a).digested = s.digested := rfl
@[simp] theorem race_agent (a : Nat) (s : State) : (s.race a).agent = s.agent := rfl
@[simp] theorem race_taken (a : Nat) (s : State) : (s.race a).taken = s.taken := rfl
@[simp] theorem race_platform (a : Nat) (s : State) : (s.race a).platform = s.platform := rfl
@[simp] theorem race_inputs (a : Nat) (s : State) : (s.race a).inputs = s.inputs := rfl
@[simp] theorem race_response (a : Nat) (s : State) : (s.race a).response = s.response := rfl
@[simp] theorem race_draws (a : Nat) (s : State) : (s.race a).draws = s.draws := rfl

/-! ### landStore -/

@[simp] theorem landStore_lanes (a : Nat) (b : Byte) (v : Bool) (s : State) : (s.landStore a b v).lanes = s.lanes := rfl
@[simp] theorem landStore_laneAny (a : Nat) (b : Byte) (v : Bool) (s : State) : (s.landStore a b v).laneAny = s.laneAny := rfl
@[simp] theorem landStore_ieDone (a : Nat) (b : Byte) (v : Bool) (s : State) : (s.landStore a b v).ieDone = s.ieDone := rfl
@[simp] theorem landStore_ieErr (a : Nat) (b : Byte) (v : Bool) (s : State) : (s.landStore a b v).ieErr = s.ieErr := rfl
@[simp] theorem landStore_busy (a : Nat) (b : Byte) (v : Bool) (s : State) : (s.landStore a b v).busy = s.busy := rfl
@[simp] theorem landStore_done (a : Nat) (b : Byte) (v : Bool) (s : State) : (s.landStore a b v).done = s.done := rfl
@[simp] theorem landStore_err (a : Nat) (b : Byte) (v : Bool) (s : State) : (s.landStore a b v).err = s.err := rfl
@[simp] theorem landStore_errcode (a : Nat) (b : Byte) (v : Bool) (s : State) : (s.landStore a b v).errcode = s.errcode := rfl
@[simp] theorem landStore_src (a : Nat) (b : Byte) (v : Bool) (s : State) : (s.landStore a b v).src = s.src := rfl
@[simp] theorem landStore_len (a : Nat) (b : Byte) (v : Bool) (s : State) : (s.landStore a b v).len = s.len := rfl
@[simp] theorem landStore_dst (a : Nat) (b : Byte) (v : Bool) (s : State) : (s.landStore a b v).dst = s.dst := rfl
@[simp] theorem landStore_blocks (a : Nat) (b : Byte) (v : Bool) (s : State) : (s.landStore a b v).blocks = s.blocks := rfl
@[simp] theorem landStore_faultAddr (a : Nat) (b : Byte) (v : Bool) (s : State) : (s.landStore a b v).faultAddr = s.faultAddr := rfl
@[simp] theorem landStore_phase (a : Nat) (b : Byte) (v : Bool) (s : State) : (s.landStore a b v).phase = s.phase := rfl
@[simp] theorem landStore_op (a : Nat) (b : Byte) (v : Bool) (s : State) : (s.landStore a b v).op = s.op := rfl
@[simp] theorem landStore_arg (a : Nat) (b : Byte) (v : Bool) (s : State) : (s.landStore a b v).arg = s.arg := rfl
@[simp] theorem landStore_rnd (a : Nat) (b : Byte) (v : Bool) (s : State) : (s.landStore a b v).rnd = s.rnd := rfl
@[simp] theorem landStore_nblk (a : Nat) (b : Byte) (v : Bool) (s : State) : (s.landStore a b v).nblk = s.nblk := rfl
@[simp] theorem landStore_k (a : Nat) (b : Byte) (v : Bool) (s : State) : (s.landStore a b v).k = s.k := rfl
@[simp] theorem landStore_widx (a : Nat) (b : Byte) (v : Bool) (s : State) : (s.landStore a b v).widx = s.widx := rfl
@[simp] theorem landStore_mem (a : Nat) (b : Byte) (v : Bool) (s : State) : (s.landStore a b v).mem = if v then Memory.write s.mem a b else Memory.forget s.mem a 1 := rfl
@[simp] theorem landStore_raced (a : Nat) (b : Byte) (v : Bool) (s : State) : (s.landStore a b v).raced = s.raced := rfl
@[simp] theorem landStore_unseen (a : Nat) (b : Byte) (v : Bool) (s : State) : (s.landStore a b v).unseen = s.unseen := rfl
@[simp] theorem landStore_digested (a : Nat) (b : Byte) (v : Bool) (s : State) : (s.landStore a b v).digested = s.digested.filter (·.addr != a) := rfl
@[simp] theorem landStore_agent (a : Nat) (b : Byte) (v : Bool) (s : State) : (s.landStore a b v).agent = s.agent := rfl
@[simp] theorem landStore_taken (a : Nat) (b : Byte) (v : Bool) (s : State) : (s.landStore a b v).taken = s.taken := rfl
@[simp] theorem landStore_platform (a : Nat) (b : Byte) (v : Bool) (s : State) : (s.landStore a b v).platform = s.platform := rfl
@[simp] theorem landStore_inputs (a : Nat) (b : Byte) (v : Bool) (s : State) : (s.landStore a b v).inputs = s.inputs := rfl
@[simp] theorem landStore_response (a : Nat) (b : Byte) (v : Bool) (s : State) : (s.landStore a b v).response = s.response := rfl
@[simp] theorem landStore_draws (a : Nat) (b : Byte) (v : Bool) (s : State) : (s.landStore a b v).draws = s.draws := rfl

/-! ### noteVisible -/

@[simp] theorem noteVisible_lanes (a : Nat) (v : Bool) (s : State) : (s.noteVisible a v).lanes = s.lanes := rfl
@[simp] theorem noteVisible_laneAny (a : Nat) (v : Bool) (s : State) : (s.noteVisible a v).laneAny = s.laneAny := rfl
@[simp] theorem noteVisible_ieDone (a : Nat) (v : Bool) (s : State) : (s.noteVisible a v).ieDone = s.ieDone := rfl
@[simp] theorem noteVisible_ieErr (a : Nat) (v : Bool) (s : State) : (s.noteVisible a v).ieErr = s.ieErr := rfl
@[simp] theorem noteVisible_busy (a : Nat) (v : Bool) (s : State) : (s.noteVisible a v).busy = s.busy := rfl
@[simp] theorem noteVisible_done (a : Nat) (v : Bool) (s : State) : (s.noteVisible a v).done = s.done := rfl
@[simp] theorem noteVisible_err (a : Nat) (v : Bool) (s : State) : (s.noteVisible a v).err = s.err := rfl
@[simp] theorem noteVisible_errcode (a : Nat) (v : Bool) (s : State) : (s.noteVisible a v).errcode = s.errcode := rfl
@[simp] theorem noteVisible_src (a : Nat) (v : Bool) (s : State) : (s.noteVisible a v).src = s.src := rfl
@[simp] theorem noteVisible_len (a : Nat) (v : Bool) (s : State) : (s.noteVisible a v).len = s.len := rfl
@[simp] theorem noteVisible_dst (a : Nat) (v : Bool) (s : State) : (s.noteVisible a v).dst = s.dst := rfl
@[simp] theorem noteVisible_blocks (a : Nat) (v : Bool) (s : State) : (s.noteVisible a v).blocks = s.blocks := rfl
@[simp] theorem noteVisible_faultAddr (a : Nat) (v : Bool) (s : State) : (s.noteVisible a v).faultAddr = s.faultAddr := rfl
@[simp] theorem noteVisible_phase (a : Nat) (v : Bool) (s : State) : (s.noteVisible a v).phase = s.phase := rfl
@[simp] theorem noteVisible_op (a : Nat) (v : Bool) (s : State) : (s.noteVisible a v).op = s.op := rfl
@[simp] theorem noteVisible_arg (a : Nat) (v : Bool) (s : State) : (s.noteVisible a v).arg = s.arg := rfl
@[simp] theorem noteVisible_rnd (a : Nat) (v : Bool) (s : State) : (s.noteVisible a v).rnd = s.rnd := rfl
@[simp] theorem noteVisible_nblk (a : Nat) (v : Bool) (s : State) : (s.noteVisible a v).nblk = s.nblk := rfl
@[simp] theorem noteVisible_k (a : Nat) (v : Bool) (s : State) : (s.noteVisible a v).k = s.k := rfl
@[simp] theorem noteVisible_widx (a : Nat) (v : Bool) (s : State) : (s.noteVisible a v).widx = s.widx := rfl
@[simp] theorem noteVisible_mem (a : Nat) (v : Bool) (s : State) : (s.noteVisible a v).mem = s.mem := rfl
@[simp] theorem noteVisible_raced (a : Nat) (v : Bool) (s : State) : (s.noteVisible a v).raced = s.raced := rfl
@[simp] theorem noteVisible_unseen (a : Nat) (v : Bool) (s : State) : (s.noteVisible a v).unseen = if v then s.unseen.filter (· != a) else addAddr s.unseen a := rfl
@[simp] theorem noteVisible_digested (a : Nat) (v : Bool) (s : State) : (s.noteVisible a v).digested = s.digested := rfl
@[simp] theorem noteVisible_agent (a : Nat) (v : Bool) (s : State) : (s.noteVisible a v).agent = s.agent := rfl
@[simp] theorem noteVisible_taken (a : Nat) (v : Bool) (s : State) : (s.noteVisible a v).taken = s.taken := rfl
@[simp] theorem noteVisible_platform (a : Nat) (v : Bool) (s : State) : (s.noteVisible a v).platform = s.platform := rfl
@[simp] theorem noteVisible_inputs (a : Nat) (v : Bool) (s : State) : (s.noteVisible a v).inputs = s.inputs := rfl
@[simp] theorem noteVisible_response (a : Nat) (v : Bool) (s : State) : (s.noteVisible a v).response = s.response := rfl
@[simp] theorem noteVisible_draws (a : Nat) (v : Bool) (s : State) : (s.noteVisible a v).draws = s.draws := rfl

/-! ### agentLoadBytes -/

@[simp] theorem agentLoadBytes_lanes (a n : Nat) (s : State) : (agentLoadBytes a n s).lanes = s.lanes := rfl
@[simp] theorem agentLoadBytes_laneAny (a n : Nat) (s : State) : (agentLoadBytes a n s).laneAny = s.laneAny := rfl
@[simp] theorem agentLoadBytes_ieDone (a n : Nat) (s : State) : (agentLoadBytes a n s).ieDone = s.ieDone := rfl
@[simp] theorem agentLoadBytes_ieErr (a n : Nat) (s : State) : (agentLoadBytes a n s).ieErr = s.ieErr := rfl
@[simp] theorem agentLoadBytes_busy (a n : Nat) (s : State) : (agentLoadBytes a n s).busy = s.busy := rfl
@[simp] theorem agentLoadBytes_done (a n : Nat) (s : State) : (agentLoadBytes a n s).done = s.done := rfl
@[simp] theorem agentLoadBytes_err (a n : Nat) (s : State) : (agentLoadBytes a n s).err = s.err := rfl
@[simp] theorem agentLoadBytes_errcode (a n : Nat) (s : State) : (agentLoadBytes a n s).errcode = s.errcode := rfl
@[simp] theorem agentLoadBytes_src (a n : Nat) (s : State) : (agentLoadBytes a n s).src = s.src := rfl
@[simp] theorem agentLoadBytes_len (a n : Nat) (s : State) : (agentLoadBytes a n s).len = s.len := rfl
@[simp] theorem agentLoadBytes_dst (a n : Nat) (s : State) : (agentLoadBytes a n s).dst = s.dst := rfl
@[simp] theorem agentLoadBytes_blocks (a n : Nat) (s : State) : (agentLoadBytes a n s).blocks = s.blocks := rfl
@[simp] theorem agentLoadBytes_faultAddr (a n : Nat) (s : State) : (agentLoadBytes a n s).faultAddr = s.faultAddr := rfl
@[simp] theorem agentLoadBytes_phase (a n : Nat) (s : State) : (agentLoadBytes a n s).phase = s.phase := rfl
@[simp] theorem agentLoadBytes_op (a n : Nat) (s : State) : (agentLoadBytes a n s).op = s.op := rfl
@[simp] theorem agentLoadBytes_arg (a n : Nat) (s : State) : (agentLoadBytes a n s).arg = s.arg := rfl
@[simp] theorem agentLoadBytes_rnd (a n : Nat) (s : State) : (agentLoadBytes a n s).rnd = s.rnd := rfl
@[simp] theorem agentLoadBytes_nblk (a n : Nat) (s : State) : (agentLoadBytes a n s).nblk = s.nblk := rfl
@[simp] theorem agentLoadBytes_k (a n : Nat) (s : State) : (agentLoadBytes a n s).k = s.k := rfl
@[simp] theorem agentLoadBytes_widx (a n : Nat) (s : State) : (agentLoadBytes a n s).widx = s.widx := rfl
@[simp] theorem agentLoadBytes_mem (a n : Nat) (s : State) : (agentLoadBytes a n s).mem = s.mem := rfl
@[simp] theorem agentLoadBytes_raced (a n : Nat) (s : State) : (agentLoadBytes a n s).raced = s.raced := rfl
@[simp] theorem agentLoadBytes_unseen (a n : Nat) (s : State) : (agentLoadBytes a n s).unseen = s.unseen := rfl
@[simp] theorem agentLoadBytes_digested (a n : Nat) (s : State) : (agentLoadBytes a n s).digested = s.digested := rfl
@[simp] theorem agentLoadBytes_agent (a n : Nat) (s : State) : (agentLoadBytes a n s).agent = s.agent := rfl
@[simp] theorem agentLoadBytes_taken (a n : Nat) (s : State) : (agentLoadBytes a n s).taken = s.taken := rfl
@[simp] theorem agentLoadBytes_platform (a n : Nat) (s : State) : (agentLoadBytes a n s).platform = s.platform := rfl
@[simp] theorem agentLoadBytes_inputs (a n : Nat) (s : State) : (agentLoadBytes a n s).inputs = s.inputs := rfl
@[simp] theorem agentLoadBytes_response (a n : Nat) (s : State) : (agentLoadBytes a n s).response = .readBytes (agentBytes s n a s.draws).1 := rfl
@[simp] theorem agentLoadBytes_draws (a n : Nat) (s : State) : (agentLoadBytes a n s).draws = (agentBytes s n a s.draws).2 := rfl

/-! ### withInputs -/

@[simp] theorem withInputs_lanes (es : List Event) (s : State) : (s.withInputs es).lanes = s.lanes := rfl
@[simp] theorem withInputs_laneAny (es : List Event) (s : State) : (s.withInputs es).laneAny = s.laneAny := rfl
@[simp] theorem withInputs_ieDone (es : List Event) (s : State) : (s.withInputs es).ieDone = s.ieDone := rfl
@[simp] theorem withInputs_ieErr (es : List Event) (s : State) : (s.withInputs es).ieErr = s.ieErr := rfl
@[simp] theorem withInputs_busy (es : List Event) (s : State) : (s.withInputs es).busy = s.busy := rfl
@[simp] theorem withInputs_done (es : List Event) (s : State) : (s.withInputs es).done = s.done := rfl
@[simp] theorem withInputs_err (es : List Event) (s : State) : (s.withInputs es).err = s.err := rfl
@[simp] theorem withInputs_errcode (es : List Event) (s : State) : (s.withInputs es).errcode = s.errcode := rfl
@[simp] theorem withInputs_src (es : List Event) (s : State) : (s.withInputs es).src = s.src := rfl
@[simp] theorem withInputs_len (es : List Event) (s : State) : (s.withInputs es).len = s.len := rfl
@[simp] theorem withInputs_dst (es : List Event) (s : State) : (s.withInputs es).dst = s.dst := rfl
@[simp] theorem withInputs_blocks (es : List Event) (s : State) : (s.withInputs es).blocks = s.blocks := rfl
@[simp] theorem withInputs_faultAddr (es : List Event) (s : State) : (s.withInputs es).faultAddr = s.faultAddr := rfl
@[simp] theorem withInputs_phase (es : List Event) (s : State) : (s.withInputs es).phase = s.phase := rfl
@[simp] theorem withInputs_op (es : List Event) (s : State) : (s.withInputs es).op = s.op := rfl
@[simp] theorem withInputs_arg (es : List Event) (s : State) : (s.withInputs es).arg = s.arg := rfl
@[simp] theorem withInputs_rnd (es : List Event) (s : State) : (s.withInputs es).rnd = s.rnd := rfl
@[simp] theorem withInputs_nblk (es : List Event) (s : State) : (s.withInputs es).nblk = s.nblk := rfl
@[simp] theorem withInputs_k (es : List Event) (s : State) : (s.withInputs es).k = s.k := rfl
@[simp] theorem withInputs_widx (es : List Event) (s : State) : (s.withInputs es).widx = s.widx := rfl
@[simp] theorem withInputs_mem (es : List Event) (s : State) : (s.withInputs es).mem = s.mem := rfl
@[simp] theorem withInputs_raced (es : List Event) (s : State) : (s.withInputs es).raced = s.raced := rfl
@[simp] theorem withInputs_unseen (es : List Event) (s : State) : (s.withInputs es).unseen = s.unseen := rfl
@[simp] theorem withInputs_digested (es : List Event) (s : State) : (s.withInputs es).digested = s.digested := rfl
@[simp] theorem withInputs_agent (es : List Event) (s : State) : (s.withInputs es).agent = s.agent := rfl
@[simp] theorem withInputs_taken (es : List Event) (s : State) : (s.withInputs es).taken = s.taken := rfl
@[simp] theorem withInputs_platform (es : List Event) (s : State) : (s.withInputs es).platform = s.platform := rfl
@[simp] theorem withInputs_inputs (es : List Event) (s : State) : (s.withInputs es).inputs = es := rfl
@[simp] theorem withInputs_response (es : List Event) (s : State) : (s.withInputs es).response = s.response := rfl
@[simp] theorem withInputs_draws (es : List Event) (s : State) : (s.withInputs es).draws = s.draws := rfl

end Sys2Proof.Machine
end

