-- ==== Sys2Proof/Laws/Ops.lean ====
section
/-! SUPPORT. What each shared operation can do, said once: if it answers next t, then one of these cases holds. -/

namespace Sys2Proof.Machine

/-! ### Lanes -/

/-- Lane i holds any value when its mark is set. -/
theorem laneIsAny_iff (s : State) (i : Nat) : s.laneIsAny i = true ↔ s.laneAny[i]? = some true := by
  unfold State.laneIsAny
  cases s.laneAny[i]? with
  | none => simp
  | some b => simp

/-- No lane holds any value: the lanes are seen as they are. -/
theorem laneIsAny_of_known {s : State} (h : s.laneAny = Vector.replicate 25 false) (i : Nat) :
    s.laneIsAny i = false := by
  by_cases hi : i < 25 <;> simp [State.laneIsAny, h, hi]

theorem laneValue_of_known {s : State} (h : s.laneAny = Vector.replicate 25 false) (i : Nat) :
    s.laneValue i = lane s.lanes i := by
  simp [State.laneValue, laneIsAny_of_known h]

theorem laneValues_of_known {s : State} (h : s.laneAny = Vector.replicate 25 false) :
    s.laneValues = s.lanes := by
  rw [State.laneValues, show s.laneValue = lane s.lanes from funext (laneValue_of_known h), lanesOf_lane]

theorem someLaneAny_of_known {s : State} (h : s.laneAny = Vector.replicate 25 false) :
    s.someLaneAny = false := by
  simp [State.someLaneAny, h]

/-! ### Acceptance and register accesses -/

theorem issue_next {start : State → Result} {s t : State} (h : issue start s = .next t) :
    (s.busy = true ∧ t = s.reject .busy) ∨ (s.busy = false ∧ start s.clearDone = .next t) := by
  unfold issue at h
  cases hb : s.busy <;> simp only [hb, if_true] at h
  · exact .inr ⟨rfl, by simpa using h⟩
  · exact .inl ⟨rfl, by injection h with h; exact h.symm⟩

theorem startHash_next {s t : State} (h : startHash s = .next t) :
    (rangeFails s = true ∧ t = s.reject .range) ∨
    (rangeFails s = false ∧ hashMeetsWindow s = false ∧ t = s.loadHash.respond .writeDone) := by
  unfold startHash at h
  split at h
  · rename_i hr
    exact .inl ⟨hr, by injection h with h; exact h.symm⟩
  · split at h
    · cases h
    · rename_i hr hw
      exact .inr ⟨by simpa using hr, by simpa using hw, by injection h with h; exact h.symm⟩

theorem writeWhileIdle_next {set : State → State} {s t : State} (h : writeWhileIdle set s = .next t) :
    (s.busy = true ∧ t = s.reject .busy) ∨ (s.busy = false ∧ t = (set s).respond .writeDone) := by
  unfold writeWhileIdle at h
  cases hb : s.busy <;> simp only [hb, if_true] at h
  · exact .inr ⟨rfl, by simpa using h.symm⟩
  · exact .inl ⟨rfl, by injection h with h; exact h.symm⟩

theorem readDone_next {v : Word} {s t : State} (h : readDone v s = .next t) :
    t = s.respond (.readData v) := by
  injection h with h; exact h.symm

theorem writeIgnored_next {s t : State} (h : writeIgnored s = .next t) : t = s.respond .writeDone := by
  injection h with h; exact h.symm

theorem readAny_next {i : Nat} {s t : State} (h : readAny i s = .next t) :
    t = (s.respond (.readData (Config.freeWord s.draws i))).drawIf true := by
  injection h with h; exact h.symm

/-! ### Transactions -/

theorem transFirst_le (join : List Nat) (lo n a : Nat) : transFirst join lo n a ≤ a := by
  induction n generalizing a with
  | zero => exact Nat.le_refl a
  | succ n ih =>
    simp only [transFirst]
    split
    · exact (ih (a - 1)).trans (Nat.sub_le a 1)
    · exact Nat.le_refl a

theorem le_transLast (join : List Nat) (hi n a : Nat) : a ≤ transLast join hi n a := by
  induction n generalizing a with
  | zero => exact Nat.le_refl a
  | succ n ih =>
    simp only [transLast]
    split
    · exact (Nat.le_add_right a 1).trans (ih (a + 1))
    · exact Nat.le_refl a

/-- The transaction that covers a byte starts at or below it and ends at or above it. -/
theorem transaction_covers (s : State) (d : Dir) (lo hi a : Nat) :
    (s.transaction d lo hi a).1 ≤ a ∧ a ≤ (s.transaction d lo hi a).2 :=
  ⟨transFirst_le _ _ _ _, le_transLast _ _ _ _⟩

/-! ### The engine -/

/-- A STEP step completes with the lanes of its command. -/
theorem stepPhase_next {s t : State} (h : stepPhase s = .next t) :
    ∃ u : State, t = u.complete ∧
      ((s.op = .clear ∧ u = s.setLanes zeroLanes) ∨ (s.op = .theta ∧ u = s.mapLanes theta) ∨
       (s.op = .rho ∧ u = s.mapLanes rho) ∨ (s.op = .pi ∧ u = s.mapLanes pi) ∨
       (s.op = .chi ∧ u = s.mapLanes chi) ∨
       (s.op = .iota ∧ u = s.mapLane 0 (· ^^^ roundConstant s.arg)) ∨
       (s.op = .round ∧ u = s.mapLanes (keccakRound · s.arg))) := by
  unfold stepPhase at h
  split at h <;> rename_i ho <;> first
    | (injection h with h; exact ⟨_, h.symm, by simp [ho]⟩)
    | cases h

theorem permPhase_next {s t : State} (h : permPhase s = .next t) :
    (s.op = .permute ∧ s.rnd = 23 ∧ t = s.applyRound.complete) ∨
    (s.op = .permute ∧ s.rnd ≠ 23 ∧ t = s.applyRound.nextRound) ∨
    (s.op = .hash ∧ s.rnd < 23 ∧ t = s.applyRound.nextRound) ∨
    (s.op = .hash ∧ ¬s.rnd < 23 ∧ t = s.applyRound.endBlock) := by
  unfold permPhase at h
  split at h <;> rename_i ho
  · injection h with h
    by_cases hr : s.rnd = 23 <;> simp_all
  · injection h with h
    by_cases hr : s.rnd < 23 <;> simp_all
  all_goals cases h

theorem absorbInput_next {s t : State} (h : absorbInput s = .next t) :
    sourceAddr s s.k < 2 ^ 64 ∧ (t = s ∨ t = s.absorbRead ∨ ∃ first, t = s.readFault first) := by
  unfold absorbInput at h
  split at h
  · cases h
  · rename_i ha
    refine ⟨by omega, ?_⟩
    simp only at h
    split at h <;> injection h with h
    · exact .inr (.inr ⟨_, h.symm⟩)
    · exact .inl h.symm
    · exact .inr (.inl h.symm)
    · exact .inr (.inl h.symm)

theorem absorbPhase_next {s t : State} (h : absorbPhase s = .next t) :
    s.op = .hash ∧
      ((s.k < s.len.toNat ∧ absorbInput s = .next t) ∨ (¬s.k < s.len.toNat ∧ t = s.absorbByte 0)) := by
  unfold absorbPhase at h
  split at h <;> rename_i ho <;> first
    | (refine ⟨ho, ?_⟩
       split at h
       · exact .inl ⟨‹_›, h⟩
       · injection h with h
         exact .inr ⟨‹_›, h.symm⟩)
    | cases h

theorem writeDigest_next {s t : State} (h : writeDigest s = .next t) :
    digestAddr s s.widx < 2 ^ 64 ∧ (t = s ∨ t = s.writeByte ∨ ∃ first, t = s.writeFault first) := by
  unfold writeDigest at h
  split at h
  · cases h
  · rename_i ha
    refine ⟨by omega, ?_⟩
    simp only at h
    split at h <;> injection h with h
    · exact .inr (.inr ⟨_, h.symm⟩)
    · exact .inl h.symm
    · exact .inr (.inl h.symm)
    · exact .inr (.inl h.symm)

theorem writePhase_next {s t : State} (h : writePhase s = .next t) :
    s.op = .hash ∧ writeDigest s = .next t := by
  unfold writePhase at h
  split at h <;> rename_i ho <;> first
    | exact ⟨ho, h⟩
    | cases h

/-- What an engine step does: the step of its phase while busy, nothing while idle. -/
theorem engineStep_next {s t : State} (h : engineStep s = .next t) :
    (s.busy = false ∧ t = s) ∨
    (s.busy = true ∧
      ((s.phase = .step ∧ stepPhase s = .next t) ∨ (s.phase = .perm ∧ permPhase s = .next t) ∨
       (s.phase = .absorb ∧ absorbPhase s = .next t) ∨ (s.phase = .write ∧ writePhase s = .next t))) := by
  unfold engineStep at h
  split at h
  · rename_i hb
    refine .inr ⟨hb, ?_⟩
    split at h <;> rename_i hp <;> simp_all
  · rename_i hb
    exact .inl ⟨by simpa using hb, by injection h with h; exact h.symm⟩

/-! ### The step -/

/-- With no event waiting, a step is the engine's. -/
theorem step_no_input {s : State} (h : s.inputs = []) : step s = engineStep s := by
  simp [step, h]

/-- With an event waiting, a step is that event. -/
theorem step_input {s : State} {e : Event} {es : List Event} (h : s.inputs = e :: es) :
    step s = runEvent e (s.withInputs es) := by
  simp [step, h]

/-- The access of a table row's word is the next event. -/
theorem step_withFetchWord (s : State) (nbits w : Nat) :
    step (s.withFetchWord nbits w) = runAccess (tableAccess nbits w) s := by
  rfl

end Sys2Proof.Machine
end

