-- ==== Sys2Proof/Laws/Exec.lean ====
section
/-! SUPPORT. What an instruction can do to the state, said once for all of them (`exec_cases`), and what a step can do
(`step_cases`): invariants are proved by cases on these. -/

namespace Sys2Proof.Machine

/-- The commands of the STEP phase, with the argument each may be loaded with (42_host_interface.md R234). -/
def StepCommand (op : Op) (r : Nat) : Prop :=
  (op = .clear ∨ op = .theta ∨ op = .rho ∨ op = .pi ∨ op = .chi ∨ op = .iota ∨ op = .round) ∧
    ((op = .iota ∨ op = .round) → r ≤ 23)

/-- The states an instruction can lead to from `s`. -/
inductive ExecCase (s : State) : State → Prop where
  | answered (r : Response) (b : Bool) : ExecCase s ((s.respond r).drawIf b)
  | statusRead (v : Word) : ExecCase s (s.seeStatus.respond (.readData v))
  | rejectedBusy : s.busy = true → ExecCase s (s.reject .busy)
  | rejectedIdle (c : ErrCode) : s.busy = false → c = .illegalCmd ∨ c = .range →
      ExecCase s (s.clearDone.reject c)
  | stepStarted (op : Op) (r : Nat) : s.busy = false → StepCommand op r →
      ExecCase s ((s.clearDone.loadStep op r).respond .writeDone)
  | permuteStarted : s.busy = false → ExecCase s (s.clearDone.loadPermute.respond .writeDone)
  | hashStarted : s.busy = false → rangeFails s = false → hashMeetsWindow s = false →
      ExecCase s (s.clearDone.loadHash.respond .writeDone)
  | laneWritten (i : Nat) (v : Word) : s.busy = false → ExecCase s ((s.setLane i v).respond .writeDone)
  | srcWritten (v : Word) : s.busy = false → ExecCase s ((s.setSrc v).respond .writeDone)
  | lenWritten (v : Word) : s.busy = false → ExecCase s ((s.setLen v).respond .writeDone)
  | dstWritten (v : Word) : s.busy = false → ExecCase s ((s.setDst v).respond .writeDone)
  | ctrlWritten (v : Word) : ExecCase s ((s.setCtrl v).respond .writeDone)
  | acknowledged (v : Word) : ExecCase s ((s.acknowledge v).respond .writeDone)

theorem readDone_case {v : Word} {s t : State} (h : readDone v s = .next t) : ExecCase s t := by
  have := readDone_next h
  subst this
  exact .answered (.readData v) false

theorem writeIgnored_case {s t : State} (h : writeIgnored s = .next t) : ExecCase s t := by
  have := writeIgnored_next h
  subst this
  exact .answered .writeDone false

theorem readAny_case {i : Nat} {s t : State} (h : readAny i s = .next t) : ExecCase s t := by
  have := readAny_next h
  subst this
  exact .answered _ true

theorem illegal_case {s t : State} (h : issue startIllegal s = .next t) : ExecCase s t := by
  rcases issue_next h with ⟨hb, rfl⟩ | ⟨hb, h⟩
  · exact .rejectedBusy hb
  · injection h with h
    subst h
    exact .rejectedIdle .illegalCmd hb (.inl rfl)

theorem stepCommand_case {op : Op} {r : Nat} {s t : State} (hc : StepCommand op r)
    (h : issue (startStep op r) s = .next t) : ExecCase s t := by
  rcases issue_next h with ⟨hb, rfl⟩ | ⟨hb, h⟩
  · exact .rejectedBusy hb
  · injection h with h
    subst h
    exact .stepStarted op r hb hc

/-- ROUND and IOTA, with any argument: one of 24 or more is illegal. -/
theorem indexed_case {op : Op} {r : Nat} {s t : State} (ho : op = .iota ∨ op = .round)
    (h : issue (if r ≤ 23 then startStep op r else startIllegal) s = .next t) : ExecCase s t := by
  split at h
  · rename_i hr
    exact stepCommand_case ⟨by rcases ho with rfl | rfl <;> simp, fun _ => hr⟩ h
  · exact illegal_case h

theorem permute_case {s t : State} (h : issue startPermute s = .next t) : ExecCase s t := by
  rcases issue_next h with ⟨hb, rfl⟩ | ⟨hb, h⟩
  · exact .rejectedBusy hb
  · injection h with h
    subst h
    exact .permuteStarted hb

theorem hash_case {s t : State} (h : issue startHash s = .next t) : ExecCase s t := by
  rcases issue_next h with ⟨hb, rfl⟩ | ⟨hb, h⟩
  · exact .rejectedBusy hb
  · rcases startHash_next h with ⟨_, rfl⟩ | ⟨hr, hw, rfl⟩
    · exact .rejectedIdle .range hb (.inr rfl)
    · exact .hashStarted hb hr hw

theorem simple_case {op : Op} {s t : State}
    (ho : op = .clear ∨ op = .theta ∨ op = .rho ∨ op = .pi ∨ op = .chi)
    (h : issue (startStep op 0) s = .next t) : ExecCase s t :=
  stepCommand_case ⟨by rcases ho with h | h | h | h | h <;> simp [h], fun _ => Nat.zero_le _⟩ h

theorem wrCmd_case {w : Word} {s t : State} (h : execWrCmd w s = .next t) : ExecCase s t := by
  unfold execWrCmd at h
  split at h
  · exact illegal_case h
  · exact writeIgnored_case h
  · exact simple_case (by simp) h
  · exact permute_case h
  · exact indexed_case (.inr rfl) h
  · exact hash_case h
  · exact simple_case (by simp) h
  · exact simple_case (by simp) h
  · exact simple_case (by simp) h
  · exact simple_case (by simp) h
  · exact indexed_case (.inl rfl) h

/-- What an instruction that answers next has done. -/
theorem exec_cases {i : Instr} {s t : State} (h : exec i s = .next t) : ExecCase s t := by
  cases i with
  | nop => exact writeIgnored_case h
  | clear => exact simple_case (by simp) h
  | permute => exact permute_case h
  | hash => exact hash_case h
  | theta => exact simple_case (by simp) h
  | rho => exact simple_case (by simp) h
  | pi => exact simple_case (by simp) h
  | chi => exact simple_case (by simp) h
  | round r => exact indexed_case (.inr rfl) h
  | iota r => exact indexed_case (.inl rfl) h
  | wrLane i v =>
    rcases writeWhileIdle_next h with ⟨hb, rfl⟩ | ⟨hb, rfl⟩
    · exact .rejectedBusy hb
    · exact .laneWritten i v hb
  | rdLane i =>
    simp only [exec, execRdLane] at h
    split at h
    · exact readAny_case h
    · exact readDone_case h
  | rdId => exact readDone_case h
  | wrId v => exact writeIgnored_case h
  | rdCtrl => exact readDone_case h
  | wrCtrl v =>
    injection h with h
    subst h
    exact .ctrlWritten v
  | rdStatus =>
    have := readDone_next h
    subst this
    exact .statusRead _
  | wrStatus v =>
    injection h with h
    subst h
    exact .acknowledged v
  | rdCmd => exact readDone_case h
  | wrCmd w => exact wrCmd_case h
  | wrSrc v =>
    rcases writeWhileIdle_next h with ⟨hb, rfl⟩ | ⟨hb, rfl⟩
    · exact .rejectedBusy hb
    · exact .srcWritten v hb
  | rdSrc => exact readDone_case h
  | wrLen v =>
    rcases writeWhileIdle_next h with ⟨hb, rfl⟩ | ⟨hb, rfl⟩
    · exact .rejectedBusy hb
    · exact .lenWritten v hb
  | rdLen => exact readDone_case h
  | wrDst v =>
    rcases writeWhileIdle_next h with ⟨hb, rfl⟩ | ⟨hb, rfl⟩
    · exact .rejectedBusy hb
    · exact .dstWritten v hb
  | rdDst => exact readDone_case h
  | rdBlocks =>
    simp only [exec, execRdBlocks] at h
    split at h
    · exact readAny_case h
    · exact readDone_case h
  | wrBlocks v => exact writeIgnored_case h
  | rdFaultAddr => exact readDone_case h
  | wrFaultAddr v => exact writeIgnored_case h
  | rdWrReserved d slot v =>
    cases d
    · exact readDone_case h
    · exact writeIgnored_case h

/-- What a host access that answers next has done: an instruction, or a bus error response. -/
theorem runAccess_cases {a : Access} {s t : State} (h : runAccess a s = .next t) :
    ExecCase s t ∨ t = busErrorResponse s := by
  unfold runAccess at h
  split at h
  · exact .inl (exec_cases h)
  · injection h with h
    exact .inr h.symm

/-- Answering in bytes changes the response alone. -/
theorem answerInBytes_eq (s : State) : ∃ r, s.answerInBytes = s.respond r := by
  cases h : s.response
  case readData v => exact ⟨.readBytes (leBytes 8 v.toNat), by simp [State.answerInBytes, h]⟩
  all_goals exact ⟨s.response, by simp only [State.answerInBytes, h, State.respond]; rw [← h]⟩

theorem answerOverBus_next {r : Result} {t : State} (h : answerOverBus r = .next t) :
    ∃ u, r = .next u ∧ t = u.answerInBytes := by
  cases r with
  | next u =>
    injection h with h
    exact ⟨u, rfl, h.symm⟩
  | fault f => cases h
  | refused f => cases h

/-- What another agent's load changes: the response, and the draw counter where the byte is any value. -/
theorem agentLoad_eq (a : Word) (s : State) : ∃ r b, agentLoad a s = (s.respond r).drawIf b := by
  unfold agentLoad
  split
  · exact ⟨.busError, false, rfl⟩
  · split
    · rename_i b _
      exact ⟨.readData (b.setWidth 64), false, rfl⟩
    · exact ⟨_, true, rfl⟩

/-- A store outside the window, with its condition on the HASH in progress: before or after the byte was absorbed, or none. -/
theorem agentStore_outside {a : Word} {b : Byte} {v : Bool} {s : State} (h : inWindow s a.toNat = false) :
    agentStore a b v s =
      ((if s.hashBusy && (inSource s a.toNat || inDigest s a.toNat) then
          if inSource s a.toNat && a.toNat < sourceAddr s s.k then
            (s.race a.toNat).rereadByte (a.toNat - s.src.toNat)
          else s.race a.toNat
        else s.landStore a.toNat b v).noteVisible a.toNat v).respond .writeDone := by
  rw [agentStore, h, if_neg Bool.false_ne_true]

/-- What another agent's store does: a bus error in the window; a race with a HASH, before or after the byte was
absorbed; else it lands. -/
theorem agentStore_cases (a : Word) (b : Byte) (v : Bool) (s : State) :
    agentStore a b v s = s.respond .busError ∨
    (s.hashBusy = true ∧ ∃ u, (u = s.race a.toNat ∨ u = (s.race a.toNat).rereadByte (a.toNat - s.src.toNat)) ∧
      agentStore a b v s = (u.noteVisible a.toNat v).respond .writeDone) ∨
    agentStore a b v s = ((s.landStore a.toNat b v).noteVisible a.toNat v).respond .writeDone := by
  unfold agentStore
  split
  · exact .inl rfl
  · split
    · rename_i hr
      refine .inr (.inl ⟨by simp_all, ?_⟩)
      split
      · exact ⟨_, .inr rfl, rfl⟩
      · exact ⟨_, .inl rfl, rfl⟩
    · exact .inr (.inr rfl)

/-- What every store of one byte keeps, and every response, a store of bytes keeps. -/
theorem agentStoreBytes_keeps {P : State → Prop} (hs : ∀ a b s, P s → P (agentStore a b true s))
    (hr : ∀ r s, P s → P (s.respond r)) (a : Nat) (bs : List Byte) {s : State} (h : P s) :
    P (agentStoreBytes a bs s) := by
  induction bs generalizing a s with
  | nil => exact hr _ _ h
  | cons b bs ih => exact ih (a + 1) (hs _ _ _ h)

theorem runBusWrite_cases {addr : Word} {bytes : List Byte} {s t : State}
    (h : runBusWrite addr bytes s = .next t) :
    ExecCase s t ∨ t = busErrorResponse s ∨ t = agentStoreBytes addr.toNat bytes s := by
  unfold runBusWrite at h
  split at h
  · exact (runAccess_cases h).imp_right .inl
  · split at h <;> injection h with h
    · exact .inr (.inl h.symm)
    · exact .inr (.inr h.symm)

theorem runBusRead_cases {addr : Word} {n : Nat} {s t : State} (h : runBusRead addr n s = .next t) :
    (∃ u, (ExecCase s u ∨ u = busErrorResponse s) ∧ t = u.answerInBytes) ∨ t = busErrorResponse s ∨
      t = agentLoadBytes addr.toNat n s := by
  unfold runBusRead at h
  split at h
  · obtain ⟨u, hu, rfl⟩ := answerOverBus_next h
    exact .inl ⟨u, runAccess_cases hu, rfl⟩
  · split at h <;> injection h with h
    · exact .inr (.inl h.symm)
    · exact .inr (.inr h.symm)

/-- What a step that answers next has done: the engine's step, or the next event. -/
theorem step_cases {s t : State} (h : step s = .next t) :
    (s.inputs = [] ∧ engineStep s = .next t) ∨
    ∃ e es, s.inputs = e :: es ∧
      ((∃ a, e = .access a ∧ (ExecCase (s.withInputs es) t ∨ t = busErrorResponse (s.withInputs es))) ∨
       (e = .engine ∧ engineStep (s.withInputs es) = .next t) ∨
       (e = .reset ∧ t = resetBlock (s.withInputs es)) ∨
       (∃ a b visible, e = .memStore a b visible ∧ t = agentStore a b visible (s.withInputs es)) ∨
       (∃ a, e = .memLoad a ∧ t = agentLoad a (s.withInputs es)) ∨
       (∃ a bytes, e = .busWrite a bytes ∧
         (ExecCase (s.withInputs es) t ∨ t = busErrorResponse (s.withInputs es) ∨
           t = agentStoreBytes a.toNat bytes (s.withInputs es))) ∨
       (∃ a n, e = .busRead a n ∧
         ((∃ u, (ExecCase (s.withInputs es) u ∨ u = busErrorResponse (s.withInputs es)) ∧
             t = u.answerInBytes) ∨
           t = busErrorResponse (s.withInputs es) ∨ t = agentLoadBytes a.toNat n (s.withInputs es))) ∨
       (∃ rules, e = .memResp rules ∧ t = setMemResp rules (s.withInputs es)) ∨
       (∃ g, e = .agent g ∧ t = setAgent g (s.withInputs es))) := by
  unfold step at h
  split at h
  · rename_i hi
    exact .inl ⟨hi, h⟩
  · rename_i e es hi
    refine .inr ⟨e, es, hi, ?_⟩
    cases e with
    | access a => exact .inl ⟨a, rfl, runAccess_cases h⟩
    | engine => exact .inr (.inl ⟨rfl, h⟩)
    | reset =>
      injection h with h
      exact .inr (.inr (.inl ⟨rfl, h.symm⟩))
    | memStore a b visible =>
      injection h with h
      exact .inr (.inr (.inr (.inl ⟨a, b, visible, rfl, h.symm⟩)))
    | memLoad a =>
      injection h with h
      exact .inr (.inr (.inr (.inr (.inl ⟨a, rfl, h.symm⟩))))
    | busWrite a bytes =>
      exact .inr (.inr (.inr (.inr (.inr (.inl ⟨a, bytes, rfl, runBusWrite_cases h⟩)))))
    | busRead a n =>
      exact .inr (.inr (.inr (.inr (.inr (.inr (.inl ⟨a, n, rfl, runBusRead_cases h⟩))))))
    | memResp rules =>
      injection h with h
      exact .inr (.inr (.inr (.inr (.inr (.inr (.inr (.inl ⟨rules, rfl, h.symm⟩)))))))
    | agent g =>
      injection h with h
      exact .inr (.inr (.inr (.inr (.inr (.inr (.inr (.inr ⟨g, rfl, h.symm⟩)))))))

end Sys2Proof.Machine
end

