-- ==== Sys2Proof/Laws/Inv.lean ====
section
/-! SUPPORT. The parts of the invariant depend only on the fields they name: a state that agrees with a sound one there
is sound. -/

namespace Sys2Proof.Machine

theorem StatusOk.of_eq {s t : State} (h : StatusOk s) (hp : t.phase = s.phase) (hb : t.busy = s.busy)
    (hd : t.done = s.done) (he : t.err = s.err) (hc : t.errcode = s.errcode) : StatusOk t where
  idle_iff := by rw [hp, hb]; exact h.idle_iff
  not_both := by rw [hd, hb]; exact h.not_both
  no_error := by rw [he, hc]; exact h.no_error
  the_error := by rw [he, hc]; exact h.the_error

theorem StepOk.of_eq {s t : State} (h : StepOk s) (hp : t.phase = s.phase) (ho : t.op = s.op)
    (ha : t.arg = s.arg) (hr : t.rnd = s.rnd) : StepOk t where
  step_op := by rw [hp, ho]; exact h.step_op
  arg_le := by rw [hp, ho, ha]; exact h.arg_le
  perm_op := by rw [hp, ho]; exact h.perm_op
  rnd_le := by rw [hp, hr]; exact h.rnd_le

/-- The sequencer of an idle machine is of no concern. -/
theorem StepOk.of_idle {t : State} (hp : t.phase = .idle) : StepOk t where
  step_op := by simp [hp]
  arg_le := by simp [hp]
  perm_op := by simp [hp]
  rnd_le := by simp [hp]

theorem hashBusy_of_eq {s t : State} (hb : t.busy = s.busy) (ho : t.op = s.op) :
    t.hashBusy = s.hashBusy := by
  simp only [State.hashBusy, hb, ho]

theorem hashBusy_of_idle {t : State} (hb : t.busy = false) : t.hashBusy = false := by
  simp [State.hashBusy, hb]

theorem rangeFails_of_eq {s t : State} (h1 : t.src = s.src) (h2 : t.len = s.len) (h3 : t.dst = s.dst) :
    rangeFails t = rangeFails s := by
  simp only [rangeFails, h1, h2, h3]

theorem hashMeetsWindow_of_eq {s t : State} (h1 : t.src = s.src) (h2 : t.len = s.len) (h3 : t.dst = s.dst)
    (h4 : t.platform.basePage = s.platform.basePage) : hashMeetsWindow t = hashMeetsWindow s := by
  simp only [hashMeetsWindow, windowBase, h1, h2, h3, h4]

/-- The HASH ranges and the block count stay sound while the operands, BUSY and OP stay. -/
theorem ranges_of_eq {s t : State} (h : HashOk s) (hb : t.busy = s.busy) (ho : t.op = s.op)
    (h1 : t.src = s.src) (h2 : t.len = s.len) (h3 : t.dst = s.dst)
    (h4 : t.platform.basePage = s.platform.basePage) (h5 : t.nblk = s.nblk) :
    (t.hashBusy = true → rangeFails t = false ∧ hashMeetsWindow t = false) ∧
      (t.hashBusy = true → t.nblk = blockCount t.len.toNat) := by
  rw [hashBusy_of_eq hb ho, rangeFails_of_eq h1 h2 h3, hashMeetsWindow_of_eq h1 h2 h3 h4, h2, h5]
  exact ⟨h.ranges, h.nblk_eq⟩

theorem HashOk.of_eq {s t : State} (h : HashOk s) (hp : t.phase = s.phase) (hb : t.busy = s.busy)
    (ho : t.op = s.op) (h1 : t.src = s.src) (h2 : t.len = s.len) (h3 : t.dst = s.dst)
    (h4 : t.platform.basePage = s.platform.basePage) (h5 : t.nblk = s.nblk) (hk : t.k = s.k)
    (hbl : t.blocks = s.blocks) (hw : t.widx = s.widx) : HashOk t where
  op_hash := by rw [hp, ho]; exact h.op_hash
  ranges := (ranges_of_eq h hb ho h1 h2 h3 h4 h5).1
  nblk_eq := (ranges_of_eq h hb ho h1 h2 h3 h4 h5).2
  absorbing := by rw [hp, hk, h5, hbl]; exact h.absorbing
  permuting := by rw [hp, ho, hk, h5, hbl]; exact h.permuting
  writing := by rw [hp, hk, h5, hbl, hw]; exact h.writing

/-- The HASH part of an idle machine is of no concern. -/
theorem HashOk.of_idle {t : State} (hp : t.phase = .idle) (hb : t.busy = false) : HashOk t where
  op_hash := by simp [hp]
  ranges := by simp [hashBusy_of_idle hb]
  nblk_eq := by simp [hashBusy_of_idle hb]
  absorbing := by simp [hp]
  permuting := by simp [hp]
  writing := by simp [hp]

theorem MemoryOk.of_eq {s t : State} (h : MemoryOk s) (hm : t.mem = s.mem) (hb : t.busy = s.busy)
    (ho : t.op = s.op) (hr : t.raced = s.raced) : MemoryOk t where
  mem_wf := by rw [hm]; exact h.mem_wf
  no_races := by rw [hashBusy_of_eq hb ho, hr]; exact h.no_races

/-- The bytes taken and the lanes of no HASH are of no concern. -/
theorem ReplayOk.of_idle {t : State} (hb : t.hashBusy = false) : ReplayOk t where
  taken_len := by simp [hb]
  known := by simp [hb]
  lanes_eq := by simp [hb]

theorem replayLanes_of_eq {s t : State} (hp : t.phase = s.phase) (hr : t.rnd = s.rnd) (h2 : t.len = s.len)
    (h5 : t.nblk = s.nblk) (ht : t.taken = s.taken) (hk : t.k = s.k) : t.replayLanes = s.replayLanes := by
  simp only [State.replayLanes, hp, hr, h2, h5, ht, hk]

theorem ReplayOk.of_eq {s t : State} (h : ReplayOk s) (hb : t.busy = s.busy) (ho : t.op = s.op)
    (hp : t.phase = s.phase) (hr : t.rnd = s.rnd) (h2 : t.len = s.len) (h5 : t.nblk = s.nblk)
    (ht : t.taken = s.taken) (hk : t.k = s.k) (hl : t.lanes = s.lanes) (ha : t.laneAny = s.laneAny) :
    ReplayOk t where
  taken_len := by rw [hashBusy_of_eq hb ho, ht, hk, h2]; exact h.taken_len
  known := by rw [hashBusy_of_eq hb ho, ha]; exact h.known
  lanes_eq := by rw [hashBusy_of_eq hb ho, hl, replayLanes_of_eq hp hr h2 h5 ht hk]; exact h.lanes_eq

/-- The invariant of a state that agrees with a sound one on every field the rest of the invariant names, and whose lanes
are those of its bytes. -/
theorem Inv.of_eq {s t : State} (h : Inv s) (hR : ReplayOk t) (hp : t.phase = s.phase) (hb : t.busy = s.busy)
    (hd : t.done = s.done) (he : t.err = s.err) (hc : t.errcode = s.errcode) (ho : t.op = s.op)
    (ha : t.arg = s.arg) (hn : t.rnd = s.rnd) (h1 : t.src = s.src) (h2 : t.len = s.len)
    (h3 : t.dst = s.dst) (h4 : t.platform.basePage = s.platform.basePage) (h5 : t.nblk = s.nblk)
    (hk : t.k = s.k) (hbl : t.blocks = s.blocks) (hw : t.widx = s.widx) (hm : t.mem = s.mem)
    (hr : t.raced = s.raced) : Inv t where
  status := h.status.of_eq hp hb hd he hc
  seq := h.seq.of_eq hp ho ha hn
  hash := h.hash.of_eq hp hb ho h1 h2 h3 h4 h5 hk hbl hw
  replay := hR
  memory := h.memory.of_eq hm hb ho hr

/-- The events still to come are no part of the invariant. -/
theorem Inv.withInputs {s : State} (h : Inv s) (es : List Event) : Inv (s.withInputs es) :=
  h.of_eq (h.replay.of_eq rfl rfl rfl rfl rfl rfl rfl rfl rfl rfl)
    rfl rfl rfl rfl rfl rfl rfl rfl rfl rfl rfl rfl rfl rfl rfl rfl rfl rfl

end Sys2Proof.Machine
end

