-- ==== Sys2Proof/Laws/PerInstr.lean ====
section
/-! SUPPORT. Facts of every instruction as syntax, one lemma per constructor. EncodedLength: a command is encoded in 8
bytes and a register access in 10 (30_encoding.md R100, R107). -/

namespace Sys2Proof.Laws.EncodedLength

/-- The bytes of an instruction are a command word or a register access. -/
def Statement (i : Sys2Proof.Instr) : Prop := (Sys2Proof.encode i).length = 8 ∨ (Sys2Proof.encode i).length = 10

theorem nop : Statement (.nop) := .inl (Sys2Proof.commandBytes_length _ _)
theorem clear : Statement (.clear) := .inl (Sys2Proof.commandBytes_length _ _)
theorem permute : Statement (.permute) := .inl (Sys2Proof.commandBytes_length _ _)
theorem hash : Statement (.hash) := .inl (Sys2Proof.commandBytes_length _ _)
theorem theta : Statement (.theta) := .inl (Sys2Proof.commandBytes_length _ _)
theorem rho : Statement (.rho) := .inl (Sys2Proof.commandBytes_length _ _)
theorem pi : Statement (.pi) := .inl (Sys2Proof.commandBytes_length _ _)
theorem chi : Statement (.chi) := .inl (Sys2Proof.commandBytes_length _ _)
theorem round (r : Nat) : Statement (.round r) := .inl (Sys2Proof.commandBytes_length _ _)
theorem iota (r : Nat) : Statement (.iota r) := .inl (Sys2Proof.commandBytes_length _ _)
theorem wrLane (i : Nat) (v : Sys2Proof.Word) : Statement (.wrLane i v) := .inr (Sys2Proof.accessBytes_length _ _ _)
theorem rdLane (i : Nat) : Statement (.rdLane i) := .inr (Sys2Proof.accessBytes_length _ _ _)
theorem rdId : Statement (.rdId) := .inr (Sys2Proof.accessBytes_length _ _ _)
theorem wrId (v : Sys2Proof.Word) : Statement (.wrId v) := .inr (Sys2Proof.accessBytes_length _ _ _)
theorem rdCtrl : Statement (.rdCtrl) := .inr (Sys2Proof.accessBytes_length _ _ _)
theorem wrCtrl (v : Sys2Proof.Word) : Statement (.wrCtrl v) := .inr (Sys2Proof.accessBytes_length _ _ _)
theorem rdStatus : Statement (.rdStatus) := .inr (Sys2Proof.accessBytes_length _ _ _)
theorem wrStatus (v : Sys2Proof.Word) : Statement (.wrStatus v) := .inr (Sys2Proof.accessBytes_length _ _ _)
theorem rdCmd : Statement (.rdCmd) := .inr (Sys2Proof.accessBytes_length _ _ _)
theorem wrCmd (w : Sys2Proof.Word) : Statement (.wrCmd w) := .inr (Sys2Proof.accessBytes_length _ _ _)
theorem wrSrc (v : Sys2Proof.Word) : Statement (.wrSrc v) := .inr (Sys2Proof.accessBytes_length _ _ _)
theorem rdSrc : Statement (.rdSrc) := .inr (Sys2Proof.accessBytes_length _ _ _)
theorem wrLen (v : Sys2Proof.Word) : Statement (.wrLen v) := .inr (Sys2Proof.accessBytes_length _ _ _)
theorem rdLen : Statement (.rdLen) := .inr (Sys2Proof.accessBytes_length _ _ _)
theorem wrDst (v : Sys2Proof.Word) : Statement (.wrDst v) := .inr (Sys2Proof.accessBytes_length _ _ _)
theorem rdDst : Statement (.rdDst) := .inr (Sys2Proof.accessBytes_length _ _ _)
theorem rdBlocks : Statement (.rdBlocks) := .inr (Sys2Proof.accessBytes_length _ _ _)
theorem wrBlocks (v : Sys2Proof.Word) : Statement (.wrBlocks v) := .inr (Sys2Proof.accessBytes_length _ _ _)
theorem rdFaultAddr : Statement (.rdFaultAddr) := .inr (Sys2Proof.accessBytes_length _ _ _)
theorem wrFaultAddr (v : Sys2Proof.Word) : Statement (.wrFaultAddr v) := .inr (Sys2Proof.accessBytes_length _ _ _)
theorem rdWrReserved (d : Sys2Proof.Dir) (slot : Nat) (v : Sys2Proof.Word) : Statement (.rdWrReserved d slot v) := .inr (Sys2Proof.accessBytes_length _ _ _)

end Sys2Proof.Laws.EncodedLength
end

