-- ==== Sys2Proof/Laws/Replay.lean ====
section
/-! SUPPORT. The laws of a replayed HASH: each engine step carries the replay of the old state to that of the new, a replay
looks at the bytes absorbed alone, and rereading a byte changes the lanes, the bytes taken and the digest written. -/

namespace Sys2Proof.Machine

theorem keccakRounds_succ (n r : Nat) (A : Lanes) :
    keccakRounds (n + 1) r A = keccakRound (keccakRounds n r A) (r + n) := by
  induction n generalizing r A with
  | zero => rfl
  | succ n ih =>
    rw [keccakRounds, ih, keccakRounds, show r + 1 + n = r + (n + 1) by omega]

/-- A replay of k bytes looks at the first k bytes taken. -/
theorem replay_congr {len nblk k : Nat} {xs ys : List Byte} (h : ∀ i, i < k → xs.getD i 0 = ys.getD i 0) :
    replay len nblk xs k = replay len nblk ys k := by
  induction k with
  | zero => rfl
  | succ k ih => rw [replay, replay, h k (Nat.lt_succ_self k), ih fun i hi => h i (Nat.lt_succ_of_lt hi)]

theorem lane_absorbAt (len nblk k j : Nat) (m : Byte) (A : Lanes) :
    lane (absorbAt len nblk k m A) j =
      if k % rateBytes / 8 = j ∧ j < 25 then
        xorByte (k % rateBytes) (padByte len nblk k m) (lane A (k % rateBytes / 8))
      else lane A j := by
  rw [absorbAt, lane_putLane]

theorem getD_set_ne {xs : List Byte} {i k : Nat} (b : Byte) (h : i ≠ k) : (xs.set i b).getD k 0 = xs.getD k 0 := by
  simp [List.getD_eq_getElem?_getD, List.getElem?_set_ne h]

/-- Until its block is permuted, byte i enters lane (i mod 136)/8 alone: no other lane depends on it. -/
theorem lane_replay_set {len nblk i j k : Nat} {xs : List Byte} (b : Byte)
    (hk : k ≤ i / rateBytes * rateBytes + rateBytes) (hj : j ≠ i % rateBytes / 8) :
    lane (replay len nblk (xs.set i b) k) j = lane (replay len nblk xs k) j := by
  have same : ∀ k, k ≤ i → replay len nblk (xs.set i b) k = replay len nblk xs k := fun k hk =>
    replay_congr fun x hx => getD_set_ne b (by omega)
  induction k with
  | zero => rfl
  | succ k ih =>
    rcases Nat.lt_trichotomy k i with h | rfl | h
    · rw [same _ h]
    · rw [replay, replay, same _ (Nat.le_refl k), lane_absorbAt, lane_absorbAt, if_neg (fun h => hj h.1.symm),
        if_neg (fun h => hj h.1.symm)]
    · have hf : ∀ A, permuteFull k A = A := fun A => by
        rw [permuteFull, if_neg]
        simp only [rateBytes] at *
        omega
      have ih := ih (by omega)
      rw [replay, replay, hf, hf, getD_set_ne b (by omega), lane_absorbAt, lane_absorbAt, ih]
      split
      · rename_i hl
        rw [hl.1, ih]
      · rfl

/-! ### Each engine step carries the replay on -/

/-- The lanes of one block more, permuted, are those after the 24th round. -/
theorem permuteFull_eq_rounds {k : Nat} (A : Lanes) (h0 : 0 < k) (hk : k % rateBytes = 0) :
    permuteFull k A = keccakRounds 24 0 A := by
  rw [permuteFull, if_pos ⟨h0, hk⟩, keccakF]

/-- What a replay of k bytes and one more is, the next byte being `m`, whether an input byte or none is taken. -/
theorem replay_step {len nblk k : Nat} {xs ys : List Byte} {m : Byte}
    (h : ∀ i, i < k → ys.getD i 0 = xs.getD i 0) (hm : ys.getD k 0 = m) :
    replay len nblk ys (k + 1) = absorbAt len nblk k m (permuteFull k (replay len nblk xs k)) := by
  rw [replay, hm, replay_congr h]

/-! ### Rereading a byte -/

/-- Writing the digest again changes memory, and the record of digest bytes, alone. -/
theorem rewriteDigest_eq (n : Nat) (s : State) :
    ∃ m u, rewriteDigest n s = { s with mem := m, digested := u } := by
  induction n generalizing s with
  | zero => exact ⟨s.mem, s.digested, rfl⟩
  | succ n ih =>
    obtain ⟨m, u, h⟩ := ih (s.dmaStore (digestAddr s n) (digestByte s.lanes n))
    exact ⟨m, u, h⟩

/-- What the digest written again reads as. -/
theorem read_rewriteDigest (n : Nat) (s : State) (x : Nat) :
    Memory.read (rewriteDigest n s).mem x =
      if s.dst.toNat ≤ x ∧ x < s.dst.toNat + n then
        if s.raced.contains x then none else some (digestByte s.lanes (x - s.dst.toNat))
      else Memory.read s.mem x := by
  induction n generalizing s with
  | zero =>
    rw [if_neg (by omega)]
    rfl
  | succ n ih =>
    rw [rewriteDigest, ih]
    show (if s.dst.toNat ≤ x ∧ x < s.dst.toNat + n then
        if s.raced.contains x then none else some (digestByte s.lanes (x - s.dst.toNat))
      else Memory.read (if s.raced.contains (s.dst.toNat + n) then Memory.forget s.mem (s.dst.toNat + n) 1
        else Memory.write s.mem (s.dst.toNat + n) (digestByte s.lanes n)) x) = _
    by_cases h : s.dst.toNat ≤ x ∧ x < s.dst.toNat + n
    · rw [if_pos h, if_pos (show s.dst.toNat ≤ x ∧ x < s.dst.toNat + (n + 1) by omega)]
    · rw [if_neg h]
      by_cases hx : x = s.dst.toNat + n
      · subst hx
        rw [if_pos (show s.dst.toNat ≤ s.dst.toNat + n ∧ s.dst.toNat + n < s.dst.toNat + (n + 1) by omega),
          Nat.add_sub_cancel_left]
        split
        · rw [read_forget, if_pos (by omega)]
        · rw [read_write_same]
      · rw [if_neg (show ¬(s.dst.toNat ≤ x ∧ x < s.dst.toNat + (n + 1)) by omega)]
        split
        · rw [read_forget, if_neg (by omega)]
        · rw [read_write_other _ _ hx]

/-- Writing the digest again, below 2^64, keeps the canonical form. -/
theorem rewriteDigest_wf (n : Nat) (s : State) (hn : s.dst.toNat + n ≤ 2 ^ 64) (h : Memory.wf s.mem) :
    Memory.wf (rewriteDigest n s).mem := by
  induction n generalizing s with
  | zero => exact h
  | succ n ih =>
    refine ih _ (by simp only [dmaStore_dst]; omega) ?_
    simp only [dmaStore_mem]
    split
    · exact forget_wf _ _ _ h
    · exact write_wf _ _ _ (by simp only [digestAddr]; omega) h

/-- Rereading a byte: a free value for it among the bytes taken, the lanes of those bytes, one draw, the digest again. -/
theorem rereadByte_eq (i : Nat) (s : State) :
    ∃ m u, s.rereadByte i = { s with
      taken := s.taken.set i (Config.freeByte s.draws), draws := s.draws + 1, laneAny := Vector.replicate 25 false
      lanes := (s.rereadByte i).lanes, mem := m, digested := u } ∧
      (s.rereadByte i).lanes = (s.rereadByte i).replayLanes := by
  obtain ⟨m, u, h⟩ := rewriteDigest_eq s.digestWritten
    ((({ s with taken := s.taken.set i (Config.freeByte s.draws) }).drawIf true).setLanes
      (({ s with taken := s.taken.set i (Config.freeByte s.draws) }).drawIf true).replayLanes)
  have h' : s.rereadByte i = _ := h
  exact ⟨m, u, by rw [h']; rfl, by rw [h']; rfl⟩

/-- What memory reads as once a byte has been reread: the digest bytes written are those of the new lanes, but for raced
ones, and every other byte is as it was. -/
theorem read_rereadByte (i : Nat) (s : State) (x : Nat) :
    Memory.read (s.rereadByte i).mem x =
      if s.dst.toNat ≤ x ∧ x < s.dst.toNat + s.digestWritten then
        if s.raced.contains x then none else some (digestByte (s.rereadByte i).lanes (x - s.dst.toNat))
      else Memory.read s.mem x := by
  have hl : (s.rereadByte i).lanes =
      (({ s with taken := s.taken.set i (Config.freeByte s.draws) }).drawIf true).replayLanes := by
    obtain ⟨m, u, h⟩ := rewriteDigest_eq s.digestWritten
      ((({ s with taken := s.taken.set i (Config.freeByte s.draws) }).drawIf true).setLanes
        (({ s with taken := s.taken.set i (Config.freeByte s.draws) }).drawIf true).replayLanes)
    exact congrArg State.lanes h
  rw [hl]
  exact read_rewriteDigest s.digestWritten
    ((({ s with taken := s.taken.set i (Config.freeByte s.draws) }).drawIf true).setLanes
      (({ s with taken := s.taken.set i (Config.freeByte s.draws) }).drawIf true).replayLanes) x

/-- Where HASH absorbs, the lanes of a byte's block that it did not enter do not depend on it. -/
theorem lane_replayLanes_set {s : State} {i j : Nat} (b : Byte) (hp : s.phase ≠ .perm) (hi : i < s.k)
    (hk : i / rateBytes = s.k / rateBytes) (hj : j ≠ i % rateBytes / 8) :
    lane (State.replayLanes { s with taken := s.taken.set i b }) j = lane s.replayLanes j := by
  have hf : ∀ A, permuteFull s.k A = A := fun A => by
    rw [permuteFull, if_neg]
    simp only [rateBytes] at *
    omega
  rw [State.replayLanes, State.replayLanes, if_neg hp, if_neg hp, hf, hf]
  exact lane_replay_set b (by simp only [rateBytes] at *; omega) hj

end Sys2Proof.Machine
end

