-- ==== Sys2Proof/Tests/Slice0.lean ====
section
/-! SUPPORT. The model's own tests: ill-formed terms, words written out from the spec's encodings, single steps whose
results stand in the spec (95_test_vectors.md, and the examples of the rules), and witnesses of the statements'
hypotheses. -/

namespace Sys2Proof.Tests

open Sys2Proof Sys2Proof.Machine Sys2Proof.Spec

/-! ### WellFormed: each check refuses an ill-formed term -/

theorem test_wf_round : (Instr.round 23).wellFormed = true ∧ (Instr.round 24).wellFormed = false := by decide
theorem test_wf_iota : (Instr.iota 23).wellFormed = true ∧ (Instr.iota 24).wellFormed = false := by decide
theorem test_wf_wrLane : (Instr.wrLane 24 0).wellFormed = true ∧ (Instr.wrLane 25 0).wellFormed = false := by
  decide
theorem test_wf_rdLane : (Instr.rdLane 24).wellFormed = true ∧ (Instr.rdLane 25).wellFormed = false := by decide
theorem test_wf_reserved_slots :
    (Instr.rdWrReserved .write 25 7).wellFormed = true ∧ (Instr.rdWrReserved .write 31 7).wellFormed = true ∧
    (Instr.rdWrReserved .read 41 0).wellFormed = true ∧ (Instr.rdWrReserved .read 511 0).wellFormed = true ∧
    (Instr.rdWrReserved .write 24 7).wellFormed = false ∧ (Instr.rdWrReserved .write 32 7).wellFormed = false ∧
    (Instr.rdWrReserved .read 40 0).wellFormed = false ∧ (Instr.rdWrReserved .read 512 0).wellFormed = false := by
  decide
theorem test_wf_reserved_read_data : (Instr.rdWrReserved .read 41 1).wellFormed = false := by decide

/-! ### Decoding: a word of each row, from 30_encoding.md R102 and 10_state.md R35 (bytes, least significant first) -/

theorem test_decode_nop : decode [0, 0, 0, 0, 0, 0, 0, 0] = .ok .nop := by decide
theorem test_decode_clear : decode [0x01, 0, 0, 0, 0, 0, 0, 0] = .ok .clear := by decide
theorem test_decode_permute : decode [0x02, 0, 0, 0, 0, 0, 0, 0] = .ok .permute := by decide
theorem test_decode_round23 : decode [0x03, 0x17, 0, 0, 0, 0, 0, 0] = .ok (.round 23) := by decide
theorem test_decode_hash : decode [0x04, 0, 0, 0, 0, 0, 0, 0] = .ok .hash := by decide
theorem test_decode_theta : decode [0x10, 0, 0, 0, 0, 0, 0, 0] = .ok .theta := by decide
theorem test_decode_rho : decode [0x11, 0, 0, 0, 0, 0, 0, 0] = .ok .rho := by decide
theorem test_decode_pi : decode [0x12, 0, 0, 0, 0, 0, 0, 0] = .ok .pi := by decide
theorem test_decode_chi : decode [0x13, 0, 0, 0, 0, 0, 0, 0] = .ok .chi := by decide
theorem test_decode_iota5 : decode [0x14, 0x05, 0, 0, 0, 0, 0, 0] = .ok (.iota 5) := by decide
theorem test_decode_wrLane24 :
    decode [0xC0, 0x10, 0x88, 0x77, 0, 0, 0, 0, 0, 0x11] = .ok (.wrLane 24 0x1100000000007788) := by decide
theorem test_decode_rdLane3 : decode [0x18, 0x00, 0, 0, 0, 0, 0, 0, 0, 0] = .ok (.rdLane 3) := by decide
theorem test_decode_id :
    decode [0x00, 0x01, 0, 0, 0, 0, 0, 0, 0, 0] = .ok .rdId ∧
    decode [0x00, 0x11, 5, 0, 0, 0, 0, 0, 0, 0] = .ok (.wrId 5) := by decide
theorem test_decode_ctrl :
    decode [0x08, 0x01, 0, 0, 0, 0, 0, 0, 0, 0] = .ok .rdCtrl ∧
    decode [0x08, 0x11, 3, 0, 0, 0, 0, 0, 0, 0] = .ok (.wrCtrl 3) := by decide
theorem test_decode_status :
    decode [0x10, 0x01, 0, 0, 0, 0, 0, 0, 0, 0] = .ok .rdStatus ∧
    decode [0x10, 0x11, 6, 0, 0, 0, 0, 0, 0, 0] = .ok (.wrStatus 6) := by decide
theorem test_decode_cmd :
    decode [0x18, 0x01, 0, 0, 0, 0, 0, 0, 0, 0] = .ok .rdCmd ∧
    decode [0x18, 0x11, 3, 0x18, 0, 0, 0, 0, 0, 0] = .ok (.wrCmd 0x1803) := by decide
theorem test_decode_src :
    decode [0x20, 0x01, 0, 0, 0, 0, 0, 0, 0, 0] = .ok .rdSrc ∧
    decode [0x20, 0x11, 0, 0x10, 0, 0, 0, 0, 0, 0] = .ok (.wrSrc 0x1000) := by decide
theorem test_decode_len :
    decode [0x28, 0x01, 0, 0, 0, 0, 0, 0, 0, 0] = .ok .rdLen ∧
    decode [0x28, 0x11, 0x88, 0, 0, 0, 0, 0, 0, 0] = .ok (.wrLen 0x88) := by decide
theorem test_decode_dst :
    decode [0x30, 0x01, 0, 0, 0, 0, 0, 0, 0, 0] = .ok .rdDst ∧
    decode [0x30, 0x11, 0, 0x20, 0, 0, 0, 0, 0, 0] = .ok (.wrDst 0x2000) := by decide
theorem test_decode_blocks :
    decode [0x38, 0x01, 0, 0, 0, 0, 0, 0, 0, 0] = .ok .rdBlocks ∧
    decode [0x38, 0x11, 9, 0, 0, 0, 0, 0, 0, 0] = .ok (.wrBlocks 9) := by decide
theorem test_decode_faultAddr :
    decode [0x40, 0x01, 0, 0, 0, 0, 0, 0, 0, 0] = .ok .rdFaultAddr ∧
    decode [0x40, 0x11, 9, 0, 0, 0, 0, 0, 0, 0] = .ok (.wrFaultAddr 9) := by decide
theorem test_decode_reserved :
    decode [0xC8, 0x00, 0, 0, 0, 0, 0, 0, 0, 0] = .ok (.rdWrReserved .read 25 0) ∧
    decode [0xF8, 0x1F, 7, 0, 0, 0, 0, 0, 0, 0] = .ok (.rdWrReserved .write 511 7) := by decide
/-- R104 (a) to (d), and 20_memory.md R71. -/
theorem test_decode_rejects :
    decodeCommand 0x2002 = .error .reservedBits ∧ decodeCommand 0x5 = .error .unknownOpcode ∧
    decodeCommand 0x100 = .error .argNotZero ∧ decodeCommand 0x1803 = .error .roundIndex ∧
    decodeAccess ⟨.write, 64, 0x004, 0⟩ = .error .misaligned ∧
    decodeAccess ⟨.read, 32, 0x110, 0⟩ = .error .badWidth ∧ decode [1, 2, 3] = .error .badLength := by decide

/-! ### Single steps -/

/-- An idle machine. -/
def idle : State := State.reset

/-- An idle machine with the lanes `f`. -/
def withLanes (f : Nat → Word) : State := { State.reset with lanes := lanesOf f }

/-- PERMUTE is in progress. -/
def permuting : State := { State.reset with busy := true, phase := .perm, op := .permute }

/-- HASH of "abc" at 0x1000 to 0x2000 is about to absorb byte `k`. -/
def absorbing (k : Nat) : State :=
  { State.reset with
    busy := true, phase := .absorb, op := .hash, src := 0x1000, len := 3, dst := 0x2000, k := k
    mem := [(0x1000, 0x61), (0x1001, 0x62), (0x1002, 0x63)] }

/-- The first absorb of `absorbing`, on a platform with a device at `a` and a rule for writes before it. -/
def deviceAt (a : Nat) : State :=
  { absorbing 0 with
    platform := { State.reset.platform with
      memResp := [⟨.write, 0, 0x5000, .busError⟩, ⟨.read, a, 1, .data 9⟩] } }

/-- A HASH is about to write digest byte `k` to 0x3000 + k. -/
def writing (k : Nat) : State :=
  { State.reset with
    busy := true, phase := .write, op := .hash, dst := 0x3000, widx := k, k := 136, blocks := 1
    lanes := lanesOf fun i => if i = 0 then 0x4FA945EA7A65034E else 0x456C2DA18FF544EC }

/-- A field of the next state, or the default where there is none. -/
def field {α : Type} (d : α) (f : State → α) : Host.Outcome State Fault Refusal → α
  | .next s => f s
  | .fault _ => d
  | .refused _ => d

/-- The lanes after a command on lanes `f` and its one engine step. -/
def lanesAfter (i : Instr) (f : Nat → Word) (n : Nat) : Word :=
  match exec i (withLanes f) with
  | .next s => field 0 (fun t => lane t.lanes n) (engineStep s)
  | .fault _ => 0
  | .refused _ => 0

/-- STATUS after `es` from reset. -/
def statusAfter (es : List Event) : Word :=
  field 0 State.statusWord (core.run es.length { State.reset with inputs := es })

/-- V-P1 (c). -/
theorem test_theta_wraps_bit63 :
    (lanesAfter .theta (fun i => if i = 0 then 0x8000000000000000 else 0) 4 = 1) ∧
    (lanesAfter .theta (fun i => if i = 0 then 0x8000000000000000 else 0) 21 = 0x8000000000000000) := by
  decide
/-- V-P2 (a). -/
theorem test_rho_offsets :
    lanesAfter .rho (fun _ => 1) 8 = 0x0080000000000000 ∧ lanesAfter .rho (fun _ => 1) 24 = 0x4000 := by decide
/-- V-P3 (a). -/
theorem test_pi_relocates :
    lanesAfter .pi (fun i => BitVec.ofNat 64 i) 1 = 6 ∧ lanesAfter .pi (fun i => BitVec.ofNat 64 i) 19 = 23 := by
  decide
/-- V-P4 (d). -/
theorem test_chi_row :
    lanesAfter .chi (fun i => if i = 1 then 0xFFFFFFFFFFFFFFFF else 0) 4 = 0xFFFFFFFFFFFFFFFF ∧
    lanesAfter .chi (fun i => if i = 1 then 0xFFFFFFFFFFFFFFFF else 0) 0 = 0 := by decide
/-- V-P5 (b). -/
theorem test_iota_23 : lanesAfter (.iota 23) (fun _ => 0) 0 = 0x8000000080008008 := by decide
/-- V-P6 (c). -/
theorem test_round_0 :
    lanesAfter (.round 0) (fun i => if i = 0 then 1 else 0) 9 = 0x0000000000200000 ∧
    lanesAfter (.round 0) (fun i => if i = 0 then 1 else 0) 17 = 0x0000000000000400 := by decide
/-- V-P8. -/
theorem test_clear : lanesAfter .clear (fun _ => 5) 24 = 0 := by decide
/-- 42_host_interface.md R234, the example. -/
theorem test_permute_is_busy : statusAfter [wr .cmd 0x2] = 0x1 := by decide
/-- V-E6. -/
theorem test_nop : statusAfter [wr .cmd 0x0] = 0x0 := by decide
/-- V-E3. -/
theorem test_wrCmd_arg1_is_no_nop : statusAfter [wr .cmd 0x100] = 0x104 := by decide
/-- V-E7. -/
theorem test_wrCmd_while_busy : statusAfter [wr .cmd 0x2, wr .cmd 0x1, wr (.lane 3) 5] = 0x205 := by decide
/-- V-S10: SRC + LEN = 2^64 is accepted, SRC + LEN = 2^64 + 1 is not. -/
theorem test_hash_range_edge :
    statusAfter [wr .src 0xFFFFFFFFFFFFFFFF, wr .len 1, wr .dst 0x2000, wr .cmd 0x4] = 0x1 ∧
    statusAfter [wr .src 0xFFFFFFFFFFFFFFFF, wr .len 2, wr .dst 0x2000, wr .cmd 0x4] = 0x304 := by decide
/-- V-S10: DST + 32 = 2^64 is accepted, DST + 32 = 2^64 + 1 is not. -/
theorem test_hash_digest_edge :
    statusAfter [wr .dst 0xFFFFFFFFFFFFFFE0, wr .cmd 0x4] = 0x1 ∧
    statusAfter [wr .dst 0xFFFFFFFFFFFFFFE1, wr .cmd 0x4] = 0x304 := by decide
/-- V-E17. -/
theorem test_lane_write_read :
    field .none State.response (core.run 2 { State.reset with
      inputs := [wr (.lane 3) 0x1122334455667788, rd (.lane 3)] }) = .readData 0x1122334455667788 := by decide
/-- V-E15. -/
theorem test_ctrl_masks :
    field .none State.response (core.run 2 { State.reset with
      inputs := [wr .ctrl 0xFFFFFFFFFFFFFFFF, rd .ctrl] }) = .readData 0x3 := by decide
/-- V-E15. -/
theorem test_rdId : field .none State.response (exec .rdId idle) = .readData 0x4B45434301000100 := by decide
/-- V-E12. -/
theorem test_irq_follows_ctrl :
    statusAfter [wr .cmd 0x1, .engine, wr .ctrl 0x1] = 0xA ∧
    statusAfter [wr .cmd 0x1, .engine, wr .ctrl 0x1, wr .status 0x2] = 0x0 := by decide
/-- V-E13. -/
theorem test_status_acknowledges_error :
    statusAfter [wr .cmd 0x5, wr .ctrl 0x2] = 0x10C ∧
    statusAfter [wr .cmd 0x5, wr .ctrl 0x2, wr .status 0x4] = 0x0 := by decide
/-- V-E14. -/
theorem test_rejected_command_clears_done :
    statusAfter [wr .cmd 0x1, .engine, wr .cmd 0x0] = 0x2 ∧
    statusAfter [wr .cmd 0x1, .engine, wr .cmd 0x99] = 0x104 := by decide
/-- V-E16. -/
theorem test_narrow_access :
    field .none State.response (core.run 1 { State.reset with
      inputs := [.access { dir := .read, width := 32, offset := 0x110, value := 0 }] }) = .busError := by decide
/-- V-S3: byte 3 of the padded "abc" is 0x01, at bit 24 of lane 0. -/
theorem test_absorb_padding : field 0 (fun t => lane t.lanes 0) (engineStep (absorbing 3)) = 0x01000000 := by decide
/-- V-S12: the first byte read is that at SRC. -/
theorem test_absorb_reads_source : field 0 (fun t => lane t.lanes 0) (engineStep (absorbing 0)) = 0x61 := by decide
/-- V-E10: byte 5 of the digest of "abc" is 0x45 ... of lane 0, little-endian. -/
theorem test_write_byte5 :
    field none (fun t => Memory.read t.mem 0x3005) (engineStep (writing 5)) = some 0x45 := by decide
/-- V-E10: the bus error at 0x3005. -/
theorem test_write_fault :
    field 0 State.statusWord (engineStep { writing 5 with
      platform := { State.reset.platform with memResp := [⟨.write, 0x3005, 1, .busError⟩] } }) = 0x504 := by decide
/-- V-E9: a bus error on a source read. -/
theorem test_read_fault :
    field 0 State.faultAddr (engineStep { absorbing 1 with
      platform := { State.reset.platform with memResp := [⟨.read, 0x1001, 1, .busError⟩] } }) = 0x1001 := by decide
/-- 42_host_interface.md R245: a BLOCKS read while busy is the free value of the next draw. -/
theorem test_blocks_while_busy :
    exec .rdBlocks permuting = .next { permuting with response := .readData (Config.freeWord 0 25), draws := 1 } := by
  rfl
/-- 20_memory.md R76: with bytes 0x1001 and 0x1002 joined to 0x1000, an error at 0x1002 fails the whole transaction. -/
theorem test_transaction_fails_at_its_first_byte :
    field 0 State.faultAddr (engineStep { absorbing 0 with
      platform := { State.reset.platform with
        readJoin := [0x1001, 0x1002], memResp := [⟨.read, 0x1002, 1, .busError⟩] } }) = 0x1000 := by decide
/-- 40_permutation.md R131: the ends of the two halves of the table. -/
theorem test_round_constants :
    roundConstant 11 = 0x8000000A ∧ roundConstant 12 = 0x8000808B ∧ roundConstant 23 = 0x8000000080008008 := by
  decide
/-- 20_memory.md R72: byte 0 of SRC is at KECCAK_BASE + 0x120. -/
theorem test_bus_write_is_little_endian :
    field 0 State.src (step { State.reset with
      inputs := [.busWrite 0x40000120 [0x88, 0x77, 0, 0, 0, 0, 0, 0x11]] }) = 0x1100000000007788 := by decide
/-- 20_memory.md R72: the bytes of ID. -/
theorem test_bus_read_is_little_endian :
    field .none State.response (step { State.reset with inputs := [.busRead 0x40000100 8] }) =
      .readBytes [0x00, 0x01, 0x00, 0x01, 0x43, 0x43, 0x45, 0x4B] := by decide
/-- 20_memory.md R71: a bus access of 4 bytes. -/
theorem test_bus_read_narrow :
    field .none State.response (step { State.reset with inputs := [.busRead 0x40000100 4] }) = .busError := by
  decide
/-- 20_memory.md R84 H-2: a source byte stored to after it was absorbed is any value, and only the lane it entered changes. -/
theorem test_race_with_an_absorbed_byte :
    field [] State.taken (step { absorbing 2 with taken := [0x61, 0x62], inputs := [.memStore 0x1000 7 true] }) =
      [Config.freeByte 0, 0x62] ∧
    field 5 (fun t => lane t.lanes 1)
      (step { absorbing 2 with taken := [0x61, 0x62], inputs := [.memStore 0x1000 7 true] }) = 0 := by
  constructor <;> rfl
/-- V-S3: the lanes of the bytes taken, "abc" and the padding byte 0x01. -/
theorem test_replay_of_abc :
    lane (State.replayLanes { absorbing 4 with taken := [0x61, 0x62, 0x63] }) 0 = 0x01636261 := by decide
/-- 20_memory.md R84 H-3: agent 2 has read STATUS with DONE = 1, agent 1 has not. -/
theorem test_digest_unread_until_status :
    field [] State.digested (step { writing 31 with inputs := [.engine] }) = [⟨0x301F, []⟩] ∧
    field [] State.digested (core.run 3 { writing 31 with inputs := [.engine, .agent 2, rd .status] }) =
      [⟨0x301F, [2]⟩] ∧
    unreadBy [⟨0x301F, [2]⟩] 1 0x301F = true ∧ unreadBy [⟨0x301F, [2]⟩] 2 0x301F = false := by decide
/-- 20_memory.md R84 H-3: a load of the last digest byte after the end, before and after the agent's own read of STATUS, and
after another agent's. -/
theorem test_load_of_the_digest :
    field .none State.response (core.run 2 { writing 31 with inputs := [.engine, .memLoad 0x301F] }) =
      .readData ((Config.freeByte 0).setWidth 64) ∧
    field .none State.response (core.run 3 { writing 31 with inputs := [.engine, rd .status, .memLoad 0x301F] }) =
      .readData 0x45 ∧
    field .none State.response (core.run 4 { writing 31 with
      inputs := [.engine, rd .status, .agent 1, .memLoad 0x301F] }) = .readData ((Config.freeByte 0).setWidth 64) := by
  refine ⟨?_, ?_, ?_⟩ <;> rfl
/-- 30_encoding.md R108: `mem`. -/
theorem test_mem_statement :
    field none (fun t => Memory.read t.mem 0x1001)
      (core.run 1 { State.reset with inputs := memBytes 0x1000 [0x61, 0x62, 0x63] }) = some 0x62 := by decide
/-- 20_memory.md R80 and R84 H-2: a device answers a source byte, until an agent stores to it during the HASH. -/
theorem test_race_wins_over_a_device :
    ({ absorbing 0 with
      platform := { State.reset.platform with memResp := [⟨.read, 0x1001, 1, .data 9⟩] } } : State).dmaByte 0x1001 =
      some 9 ∧
    field (some 0) (fun t => t.dmaByte 0x1001) (step { absorbing 0 with
      inputs := [.memStore 0x1001 7 true]
      platform := { State.reset.platform with memResp := [⟨.read, 0x1001, 1, .data 9⟩] } }) = none := by decide
/-- 20_memory.md R84 H-1: a store that is not visible, made while idle. -/
theorem test_unseen_store :
    field (some 0) (fun t => t.dmaByte 0x1001)
      (step { State.reset with inputs := [.memStore 0x1001 7 false] }) = none := by decide

/-! ### Witnesses: states and operands that meet the hypotheses of the statements -/

/-- A state whose next event is the write of CLEAR to CMD. -/
def clearNext : State := { State.reset with inputs := [cmd .clear 0] }

theorem witness_StepRunsTheDecodedInstruction :
    clearNext.inputs = .access ⟨.write, 64, 0x118, 0x1⟩ :: [] ∧
    decodeAccess ⟨.write, 64, 0x118, 0x1⟩ = .ok (.wrCmd 0x1) ∧ decodeCommand 0x1 = .ok (.clear, 0) := by decide
theorem witness_DecodeOfEncodeIsTheInstruction : (Instr.wrLane 24 0xFF).wellFormed = true := by decide
theorem witness_CommandWordsDecodeExactly : decodeCommand 0x1703 = .ok (.round, 23) := by decide
theorem witness_IllegalWordsByCause :
    decodeCommand 0x1803 = .error .roundIndex ∧ idle.busy = false := by decide
/-- The edges of the clauses: 0x0C0, 0x0C8, 0x0F8, 0x100 to 0x140, 0x148, 0xFF8. -/
theorem witness_OffsetsSelectRegisters :
    decodeAccess ⟨.read, 64, 0x0C0, 0⟩ = .ok (.rdLane 24) ∧
    decodeAccess ⟨.read, 64, 0x0C8, 0⟩ = .ok (.rdWrReserved .read 25 0) ∧
    decodeAccess ⟨.write, 64, 0x0F8, 1⟩ = .ok (.rdWrReserved .write 31 1) ∧
    decodeAccess ⟨.write, 64, 0x100, 1⟩ = .ok (.wrId 1) ∧
    decodeAccess ⟨.write, 64, 0x140, 1⟩ = .ok (.wrFaultAddr 1) ∧
    decodeAccess ⟨.read, 64, 0x148, 0⟩ = .ok (.rdWrReserved .read 41 0) ∧
    decodeAccess ⟨.write, 64, 0xFF8, 1⟩ = .ok (.rdWrReserved .write 511 1) := by decide
theorem witness_WrongAccessesGetABusError :
    (∃ s : State, s.inputs = .access ⟨.read, 32, 0x110, 0⟩ :: []) ∧
    (∃ s : State, s.inputs = .access ⟨.write, 64, 0x004, 0⟩ :: []) :=
  ⟨⟨{ State.reset with inputs := [.access ⟨.read, 32, 0x110, 0⟩] }, rfl⟩,
   ⟨{ State.reset with inputs := [.access ⟨.write, 64, 0x004, 0⟩] }, rfl⟩⟩
theorem witness_BusBytesAreLittleEndian :
    (0x40000100 : Word).toNat = State.reset.platform.basePage.toNat * 0x1000 + (0x100 : BitVec 12).toNat ∧
    (∀ k (_ : k < 8), [0x00, 0x01, 0x00, 0x01, 0x43, 0x43, 0x45, (0x4B : Byte)][k] =
      BitVec.ofNat 8 ((0x4B45434301000100 : Word).toNat / 256 ^ k)) ∧
    field .none State.response
      (step { State.reset with inputs := [.access ⟨.read, 64, 0x100, 0⟩] }) = .readData 0x4B45434301000100 := by
  decide
theorem witness_NopDoesNothing : (0x100 : Word).toNat % 256 = 0x00 ∧ (0x100 : Word) ≠ 0 := by decide
/-- For every statement about an idle machine with known lanes: StageCommandsRunInOneStep, StageCommandsRunOnAnyLanes,
PermuteComputesKeccakF, FiveStagesEqualARound, RoundsInOrderEqualPermute, IotaTwiceRestores, LaneWrites, LaneReads,
OperandWrites, BlocksReads, IdleEngineHasNoStep. -/
theorem witness_idle_lanes_known :
    idle.busy = false ∧ LanesKnown idle ∧ idle.laneAny[24]? = some false ∧ idle.inputs = [] :=
  ⟨rfl, rfl, by decide, rfl⟩
/-- For every statement about a busy machine: CommandsAreRejectedWhileBusy, LaneWrites, LaneReads, OperandWrites, BlocksReads. -/
theorem witness_busy : permuting.busy = true ∧ (0x1 : Word) ≠ 0 := by decide
/-- Lanes that hold any value, as a READ_FAULT leaves them: StageCommandsRunOnAnyLanes, PermuteComputesKeccakF, LaneReads. -/
theorem witness_LaneReads_any :
    ({ State.reset with laneAny := Vector.replicate 25 true } : State).laneAny[24]? = some true := by decide

theorem idle_range_ok : ¬RangeError idle := by unfold RangeError; decide
theorem idle_misses_window : ¬MeetsWindow idle := by
  rintro ⟨a, h1, h2, h3⟩
  simp [idle, State.reset] at h1 h2 h3
  omega
theorem witness_HashIsAccepted : idle.busy = false ∧ ¬RangeError idle ∧ ¬MeetsWindow idle :=
  ⟨rfl, idle_range_ok, idle_misses_window⟩
/-- Each clause of the range check at its edge. -/
theorem witness_HashRangeErrorIsRejected :
    RangeError { idle with dst := 0xFFFFFFFFFFFFFFE1 } ∧ ¬RangeError { idle with dst := 0xFFFFFFFFFFFFFFE0 } ∧
    RangeError { idle with src := 0xFFFFFFFFFFFFFFFF, len := 2 } ∧
    ¬RangeError { idle with src := 0xFFFFFFFFFFFFFFFF, len := 1 } := by
  unfold RangeError; decide
theorem witness_HashOverTheWindowIsRefused :
    ¬RangeError { idle with dst := 0x3FFFFFFF } ∧ MeetsWindow { idle with dst := 0x3FFFFFFF } :=
  ⟨by unfold RangeError; decide, 0x40000000, by decide⟩
/-- CmdWriteAcceptsItsCommand: idle, RANGE passing and failing. -/
theorem witness_CmdWriteAcceptsItsCommand :
    idle.busy = false ∧ ¬RangeError idle ∧ ¬MeetsWindow idle ∧
    RangeError { idle with dst := 0xFFFFFFFFFFFFFFE1 } :=
  ⟨rfl, idle_range_ok, idle_misses_window, witness_HashRangeErrorIsRejected.1⟩
theorem witness_ReservedOffsets : reservedSlot 25 = true ∧ reservedSlot 511 = true := by decide
theorem witness_InstructionFrame : (∃ t, exec (.wrDst 5) idle = .next t) ∧ ∃ t, exec .rdCtrl permuting = .next t :=
  ⟨⟨_, rfl⟩, ⟨_, rfl⟩⟩
/-- A byte from memory, a byte of any value, a byte from a device behind a rule that does not touch it, padding. -/
theorem witness_AbsorbStepXorsOneByte :
    (Absorbing (absorbing 0) ∧ (absorbing 0).k < (absorbing 0).len.toNat ∧
      GetsData (absorbing 0) .read 0x1000 0x1000 ∧ ReadsAs (absorbing 0) 0x1000 (some 0x61)) ∧
    ReadsAs { absorbing 0 with mem := [] } 0x1000 none ∧
    ReadsAs (deviceAt 0x1000) 0x1000 (some 9) ∧ GetsData (deviceAt 0x1000) .read 0x1000 0x1000 ∧
    (Absorbing (absorbing 135) ∧ ¬(absorbing 135).k < (absorbing 135).len.toNat) := by
  refine ⟨⟨⟨rfl, rfl, rfl⟩, by decide, ?_, ?_⟩, ?_, ?_, ?_, ⟨rfl, rfl, rfl⟩, by decide⟩
  · intro q hq
    cases hq
  · exact .inr (.inr ⟨by decide, fun q hq => (by cases hq), by decide⟩)
  · exact .inr (.inr ⟨by decide, fun q hq => (by cases hq), by decide⟩)
  · refine .inr (.inl ⟨by decide, [⟨.write, 0, 0x5000, .busError⟩], ⟨.read, 0x1000, 1, .data 9⟩, [], 9, rfl,
      ⟨rfl, rfl, by decide, by decide⟩, ?_, by decide⟩)
    intro q hq b' h
    obtain rfl := List.mem_singleton.1 hq
    cases h.1
  · intro q hq h
    rcases List.mem_cons.1 hq with rfl | hq
    · cases h.1
    · obtain rfl := List.mem_singleton.1 hq
      rcases h.2.1 with h | h <;> cases h
/-- A round before the last, the last round of the last block, and of another block. -/
theorem witness_HashPermStepRunsOneRound :
    (∃ s : State, s.busy = true ∧ s.phase = .perm ∧ s.op = .hash ∧ s.rnd = 22) ∧
    (∃ s : State, s.busy = true ∧ s.phase = .perm ∧ s.op = .hash ∧ s.rnd = 23 ∧
      s.k = 136 * s.nblk) ∧
    (∃ s : State, s.busy = true ∧ s.phase = .perm ∧ s.op = .hash ∧ s.rnd = 23 ∧
      s.k ≠ 136 * s.nblk) :=
  ⟨⟨{ permuting with op := .hash, rnd := 22 }, rfl, rfl, rfl, rfl⟩,
   ⟨{ permuting with op := .hash, rnd := 23, k := 136 }, rfl, rfl, rfl, rfl, rfl⟩,
   ⟨{ permuting with op := .hash, rnd := 23, k := 136, nblk := 2 }, rfl, rfl, rfl, rfl, by decide⟩⟩
/-- The last digest byte, and the first one after another agent has stored to it. -/
theorem witness_WriteStepStoresOneByte :
    Writing (writing 31) ∧ (writing 31).dst.toNat + (writing 31).widx < 2 ^ 64 ∧
    GetsData (writing 31) .write 0x301F 0x301F ∧
    Writing { writing 0 with raced := [0x3000] } :=
  ⟨⟨rfl, rfl, rfl⟩, by decide, fun q hq => (by cases hq), ⟨rfl, rfl, rfl⟩⟩
/-- A transaction of two bytes, the second of which gets a bus error by a rule behind another. -/
theorem witness_ReadFaultAborts :
    ∃ s : State, Absorbing s ∧ s.k < s.len.toNat ∧ s.src.toNat + s.k < 2 ^ 64 ∧ ReadCovers s 0x1001 0x1002 ∧
      GetsAnswer s .read 0x1001 0x1002 .busError := by
  refine ⟨{ absorbing 1 with
      platform := { State.reset.platform with
        readJoin := [0x1002], memResp := [⟨.write, 0, 0x5000, .noAnswer⟩, ⟨.read, 0x1002, 1, .busError⟩] } },
    ⟨rfl, rfl, rfl⟩, by decide, by decide, rfl, [⟨.write, 0, 0x5000, .noAnswer⟩], _, [], rfl, rfl,
    ⟨rfl, .inl rfl, 0x1002, by decide⟩, ?_⟩
  intro q hq h
  obtain rfl := List.mem_singleton.1 hq
  cases h.1
/-- The transaction of the last two digest bytes. -/
theorem witness_WriteFaultAborts :
    ∃ s : State, Writing s ∧ s.widx = 30 ∧ s.dst.toNat + s.widx < 2 ^ 64 ∧ WriteCovers s 0x301E 0x301F ∧
      GetsAnswer s .write 0x301E 0x301F .busError :=
  ⟨{ writing 30 with
      platform := { State.reset.platform with
        writeJoin := [0x301F], memResp := [⟨.write, 0x301F, 1, .busError⟩] } },
    ⟨rfl, rfl, rfl⟩, rfl, by decide, rfl, [], _, [], rfl, rfl, ⟨rfl, .inl rfl, 0x301F, by decide⟩,
    fun q hq => (by cases hq)⟩
theorem witness_UnansweredAccessWaits :
    (∃ s : State, Absorbing s ∧ s.k < s.len.toNat ∧ ReadCovers s 0x1002 0x1002 ∧
      GetsAnswer s .read 0x1002 0x1002 .noAnswer) ∧
    (∃ s : State, Writing s ∧ WriteCovers s 0x3000 0x3000 ∧ GetsAnswer s .write 0x3000 0x3000 .noAnswer) :=
  ⟨⟨{ absorbing 2 with
      platform := { State.reset.platform with memResp := [⟨.read, 0x1000, 3, .noAnswer⟩] } },
    ⟨rfl, rfl, rfl⟩, by decide, rfl, [], _, [], rfl, rfl, ⟨rfl, .inr rfl, 0x1002, by decide⟩,
    fun q hq => (by cases hq)⟩,
   ⟨{ writing 0 with
      platform := { State.reset.platform with memResp := [⟨.write, 0x3000, 32, .noAnswer⟩] } },
    ⟨rfl, rfl, rfl⟩, rfl, [], _, [], rfl, rfl, ⟨rfl, .inr rfl, 0x3000, by decide⟩,
    fun q hq => (by cases hq)⟩⟩
theorem witness_TransactionIsTheJoinedRun : (0x1000 : Nat) ≤ 0x1001 ∧ (0x1001 : Nat) < 0x1003 := by decide
/-- The clauses about a store: to the source after the byte was absorbed, at SRC + K (the first not yet absorbed), and with
digest bytes written; to the last destination byte; while idle, not visible; a visible one that races no HASH, while idle and
next to a busy HASH's source; into the window. -/
theorem witness_RacesGiveAnyValue_store :
    (∃ s : State, s.inputs = [.memStore 0x1002 7 true] ∧ s.busy = true ∧ s.op = .hash ∧ ¬InWindow s 0x1002 ∧
      s.src.toNat ≤ 0x1002 ∧ 0x1002 < s.src.toNat + s.len.toNat ∧ 0x1002 < s.src.toNat + s.k) ∧
    (∃ s : State, s.inputs = [.memStore 0x1002 7 true] ∧ s.busy = true ∧ s.op = .hash ∧ ¬InWindow s 0x1002 ∧
      s.src.toNat ≤ 0x1002 ∧ 0x1002 < s.src.toNat + s.len.toNat ∧ s.src.toNat + s.k = 0x1002) ∧
    (∃ s : State, s.inputs = [.memStore 0x1002 7 true] ∧ s.busy = true ∧ s.op = .hash ∧ s.phase = .write ∧
      ¬InWindow s 0x1002 ∧ s.src.toNat ≤ 0x1002 ∧ 0x1002 < s.src.toNat + s.len.toNat ∧
      0x1002 < s.src.toNat + s.k ∧ 0x4 < s.widx ∧ s.dst.toNat + 0x4 ≠ 0x1002) ∧
    (∃ s : State, s.inputs = [.memStore 0x201F 7 true] ∧ s.busy = true ∧ s.op = .hash ∧ ¬InWindow s 0x201F ∧
      s.dst.toNat ≤ 0x201F ∧ 0x201F < s.dst.toNat + 32) ∧
    (∃ s : State, s.inputs = [.memStore 0x1002 7 false] ∧ s.busy = false ∧ ¬InWindow s 0x1002) ∧
    (∃ s : State, s.inputs = [.memStore 0x1002 7 true] ∧ s.busy = false ∧ ¬InWindow s 0x1002) ∧
    (∃ s : State, s.inputs = [.memStore 0x1003 7 true] ∧ s.busy = true ∧ s.op = .hash ∧ ¬InWindow s 0x1003 ∧
      0x1003 = s.src.toNat + s.len.toNat ∧ 0x1003 < s.dst.toNat) ∧
    (∃ s : State, s.inputs = [.memStore 0x40000FFF 7 true] ∧ InWindow s 0x40000FFF) := by
  unfold InWindow
  exact ⟨⟨{ absorbing 3 with inputs := [.memStore 0x1002 7 true] }, by decide⟩,
    ⟨{ absorbing 2 with inputs := [.memStore 0x1002 7 true] }, by decide⟩,
    ⟨{ writing 5 with src := 0x1000, len := 3, inputs := [.memStore 0x1002 7 true] }, by decide⟩,
    ⟨{ absorbing 0 with inputs := [.memStore 0x201F 7 true] }, by decide⟩,
    ⟨{ State.reset with inputs := [.memStore 0x1002 7 false] }, by decide⟩,
    ⟨{ State.reset with inputs := [.memStore 0x1002 7 true] }, by decide⟩,
    ⟨{ absorbing 0 with inputs := [.memStore 0x1003 7 true] }, by decide⟩,
    ⟨{ State.reset with inputs := [.memStore 0x40000FFF 7 true] }, by decide⟩⟩
/-- The clauses about a load: of the last destination byte while busy; of a digest byte that the loading agent has not read
STATUS for and another has; of a byte memory does not list; of a byte it lists, and of a digest byte after the agent's read of
STATUS; in the window; and an event that names an agent. -/
theorem witness_RacesGiveAnyValue_load :
    (∃ s : State, s.inputs = [.memLoad 0x201F] ∧ s.busy = true ∧ s.op = .hash ∧ ¬InWindow s 0x201F ∧
      s.dst.toNat ≤ 0x201F ∧ 0x201F < s.dst.toNat + 32) ∧
    (∃ s : State, s.inputs = [.memLoad 0x201F] ∧ s.busy = false ∧ ¬InWindow s 0x201F ∧ UnreadBy s s.agent 0x201F ∧
      ¬UnreadBy s 2 0x201F) ∧
    (∃ s : State, s.inputs = [.memLoad 0x1003] ∧ s.busy = true ∧ ¬InWindow s 0x1003 ∧
      Memory.read s.mem 0x1003 = none) ∧
    (∃ s : State, s.inputs = [.memLoad 0x1000] ∧ s.busy = true ∧ ¬InWindow s 0x1000 ∧ ¬(s.dst.toNat ≤ 0x1000) ∧
      ¬UnreadBy s s.agent 0x1000 ∧ Memory.read s.mem 0x1000 = some 0x61) ∧
    (∃ s : State, s.inputs = [.memLoad 0x201F] ∧ s.busy = false ∧ ¬InWindow s 0x201F ∧ s.digested = [⟨0x201F, [2]⟩] ∧
      ¬UnreadBy s s.agent 0x201F ∧ Memory.read s.mem 0x201F = some 0x45) ∧
    (∃ s : State, s.inputs = [.memLoad 0x40000000] ∧ InWindow s 0x40000000) ∧
    (∃ s : State, s.inputs = [.agent 2]) := by
  unfold InWindow UnreadBy
  exact ⟨⟨{ absorbing 0 with inputs := [.memLoad 0x201F] }, by decide⟩,
    ⟨{ State.reset with inputs := [.memLoad 0x201F], digested := [⟨0x201F, [2]⟩], agent := 1 }, by decide⟩,
    ⟨{ absorbing 0 with inputs := [.memLoad 0x1003] }, by decide⟩,
    ⟨{ absorbing 0 with inputs := [.memLoad 0x1000] }, by decide⟩,
    ⟨{ State.reset with
        inputs := [.memLoad 0x201F], digested := [⟨0x201F, [2]⟩], agent := 2, mem := [(0x201F, 0x45)] }, by decide⟩,
    ⟨{ State.reset with inputs := [.memLoad 0x40000000] }, by decide⟩,
    ⟨{ State.reset with inputs := [.agent 2] }, rfl⟩⟩
/-- ReadsHaveNoSideEffect and StatusReads: DONE = 1 with a digest byte unread by the reading agent, and DONE = 0. -/
theorem witness_StatusReads :
    (∃ s : State, s.done = true ∧ UnreadBy s s.agent 0x301F) ∧ State.reset.done = false :=
  ⟨⟨{ State.reset with done := true, digested := [⟨0x301F, []⟩] }, rfl, _, List.mem_singleton.2 rfl, rfl, by decide⟩,
    rfl⟩
theorem witness_ResetPutsEveryRegister :
    ∃ s : State, s.inputs = [.reset] ∧ s.busy = true ∧ s.op = .hash ∧ s.phase = .write ∧
      s.dst.toNat ≤ 0x301F ∧ 0x301F < s.dst.toNat + 32 :=
  ⟨{ writing 5 with inputs := [.reset] }, rfl, rfl, rfl, rfl, by decide, by decide⟩
/-- FirstErrorStays: an error on record and a step that records none. -/
theorem witness_FirstErrorStays :
    ∃ s t : State, s.err = true ∧ step s = .next t ∧ t.err = true :=
  ⟨{ State.reset with err := true, errcode := 0x01, inputs := [wr .cmd 0x5] }, _, rfl, rfl, rfl⟩
theorem witness_FaultAddrChangesOnlyByADmaFault :
    field 0 State.faultAddr (step { absorbing 0 with
      platform := { State.reset.platform with memResp := [⟨.read, 0x1000, 1, .busError⟩] } }) ≠
      (absorbing 0).faultAddr := by decide
theorem witness_OperandsStayWhileBusy :
    ∃ s t : State, s.busy = true ∧ step s = .next t ∧ ¬ResetNext s :=
  ⟨{ permuting with inputs := [wr .src 5] }, _, rfl, rfl, by rintro ⟨es, h⟩; cases h⟩
theorem witness_BlocksChangesOnlyByHash :
    field 0 State.blocks (step { permuting with op := .hash, rnd := 23, k := 136 }) = 1 := by decide

/-- An idle state that meets the invariant. -/
theorem witness_Inv_idle : Inv { State.reset with inputs := [wr .cmd 0x2] } where
  status := ⟨by decide, by decide, by decide, by decide⟩
  seq := ⟨by decide, by decide, by decide, by decide⟩
  hash := ⟨by decide, by decide, by decide, by decide, by decide, by decide⟩
  replay := ⟨by decide, by decide, by decide⟩
  memory := ⟨by simp [State.reset, Memory.wf], by decide⟩
/-- The HASH of no input in its WRITE phase, with the lanes that gives. -/
def writingEmpty (k : Nat) : State := { writing k with lanes := (writing k).replayLanes }
/-- A state of a HASH in its WRITE phase that meets the invariant. -/
theorem witness_Inv_writing : Inv (writingEmpty 31) where
  status := ⟨by decide, by decide, by decide, by decide⟩
  seq := ⟨by decide, by decide, by decide, by decide⟩
  hash := ⟨by decide, by decide, by decide, by decide, by decide, by decide⟩
  replay := ⟨by decide, fun _ => rfl, fun _ => (replayLanes_of_eq (s := writing 31) (t := writingEmpty 31) rfl rfl rfl rfl rfl rfl).symm⟩
  memory := ⟨by simp [writingEmpty, writing, State.reset, Memory.wf], by decide⟩
/-- A HASH that has absorbed 61 62, with the lanes that gives. -/
def absorbedTwo : State :=
  { absorbing 2 with taken := [0x61, 0x62], lanes := (State.replayLanes { absorbing 2 with taken := [0x61, 0x62] }) }
/-- RacesGiveAnyValue, its clause about the lanes: the byte at 0x1000 is absorbed, its block not permuted. -/
theorem witness_Inv_absorbing :
    Inv absorbedTwo ∧ absorbedTwo.phase = .absorb ∧ 0x1000 < absorbedTwo.src.toNat + absorbedTwo.k ∧
    (0x1000 - absorbedTwo.src.toNat) / 136 = absorbedTwo.k / 136 where
  left :=
    { status := ⟨by decide, by decide, by decide, by decide⟩
      seq := ⟨by decide, by decide, by decide, by decide⟩
      hash := ⟨by decide, by decide, by decide, by decide, by decide, by decide⟩
      replay := ⟨by decide, fun _ => rfl, fun _ => (replayLanes_of_eq (s := { absorbing 2 with taken := [0x61, 0x62] })
        (t := absorbedTwo) rfl rfl rfl rfl rfl rfl).symm⟩
      memory := ⟨by simp [absorbedTwo, absorbing, Memory.wf], by decide⟩ }
  right := by decide
/-- EngineWritesOnlyTheDigest: the state of `witness_Inv_writing` steps, and 0x2FFF is outside its digest. -/
theorem witness_EngineWritesOnlyTheDigest :
    (∃ t, engineStep (writingEmpty 31) = .next t) ∧ ¬((writingEmpty 31).dst.toNat ≤ 0x2FFF) :=
  ⟨⟨_, rfl⟩, by decide⟩
theorem witness_EveryStepKeepsInv :
    ∃ t, step { State.reset with inputs := [wr .cmd 0x2] } = .next t := ⟨_, rfl⟩
theorem witness_CallSequenceStartsTheHash :
    ({ State.reset with inputs := keccakCall 0x1000 3 0x2000 } : State).busy = false ∧
    ¬RangeError { State.reset with src := 0x1000, len := 3, dst := 0x2000 } ∧
    ¬MeetsWindow { State.reset with src := 0x1000, len := 3, dst := 0x2000 } := by
  refine ⟨rfl, by unfold RangeError; decide, ?_⟩
  rintro ⟨a, h1, h2, h3⟩
  simp [State.reset] at h1 h2 h3
  omega
/-- The state of `absorbing` before its acceptance: the message 61 62 63 at 0x1000. -/
theorem witness_HashComputesKeccak256 :
    ∃ s : State, s.busy = false ∧ ¬RangeError s ∧ ¬MeetsWindow s ∧ s.platform.memResp = [] ∧
      [0x61, 0x62, (0x63 : Byte)].length = s.len.toNat ∧
      ∀ k (h : k < [0x61, 0x62, (0x63 : Byte)].length),
        Memory.read s.mem (s.src.toNat + k) = some [0x61, 0x62, (0x63 : Byte)][k] := by
  refine ⟨{ absorbing 0 with busy := false, phase := .idle }, rfl, by unfold RangeError; decide, ?_, rfl,
    by decide, ?_⟩
  · rintro ⟨a, h1, h2, h3⟩
    simp [absorbing, State.reset] at h1 h2 h3
    omega
  · intro k h
    have hk : k = 0 ∨ k = 1 ∨ k = 2 := by simp at h; omega
    rcases hk with rfl | rfl | rfl <;> rfl

end Sys2Proof.Tests
end

section
/-! PROOFS. The registers and the sequencer as one view of the state, what leaves that view alone, what the engine can do
to the state said once (`EngineCase`), and the safety statements that follow by cases (10_state.md R43, R46, R51). -/

namespace Sys2Proof.Machine

open Sys2Proof.Spec

/-! ### The registers and the sequencer -/

/-- The registers, the sequencer and the place of the window, with every other field blanked: the enables, the lanes and the record
of their bytes, memory and its records, the platform's answers, the events and the last response. -/
def State.regs (s : State) : State :=
  { s with
    lanes := zeroLanes, laneAny := Vector.replicate 25 false, ieDone := false, ieErr := false
    mem := [], raced := [], unseen := [], digested := [], agent := 0, taken := []
    platform := { s.platform with memResp := [] }, inputs := [], response := .none, draws := 0 }

/-- `t` has the registers and the sequencer of `s`. -/
abbrev SameRegs (s t : State) : Prop := t.regs = s.regs

section
variable {s t : State} (h : SameRegs s t)
include h

theorem SameRegs.busy : t.busy = s.busy := (congrArg State.busy h :)
theorem SameRegs.done : t.done = s.done := (congrArg State.done h :)
theorem SameRegs.err : t.err = s.err := (congrArg State.err h :)
theorem SameRegs.errcode : t.errcode = s.errcode := (congrArg State.errcode h :)
theorem SameRegs.src : t.src = s.src := (congrArg State.src h :)
theorem SameRegs.len : t.len = s.len := (congrArg State.len h :)
theorem SameRegs.dst : t.dst = s.dst := (congrArg State.dst h :)
theorem SameRegs.blocks : t.blocks = s.blocks := (congrArg State.blocks h :)
theorem SameRegs.faultAddr : t.faultAddr = s.faultAddr := (congrArg State.faultAddr h :)
theorem SameRegs.phase : t.phase = s.phase := (congrArg State.phase h :)
theorem SameRegs.op : t.op = s.op := (congrArg State.op h :)
theorem SameRegs.arg : t.arg = s.arg := (congrArg State.arg h :)
theorem SameRegs.rnd : t.rnd = s.rnd := (congrArg State.rnd h :)
theorem SameRegs.nblk : t.nblk = s.nblk := (congrArg State.nblk h :)
theorem SameRegs.k : t.k = s.k := (congrArg State.k h :)
theorem SameRegs.widx : t.widx = s.widx := (congrArg State.widx h :)
theorem SameRegs.basePage : t.platform.basePage = s.platform.basePage := (congrArg (·.platform.basePage) h :)

end

theorem mapLanes_sameRegs (f : Lanes → Lanes) (s : State) : SameRegs s (s.mapLanes f) := rfl
theorem mapLane_sameRegs (i : Nat) (f : Word → Word) (s : State) : SameRegs s (s.mapLane i f) := rfl

theorem applyRound_sameRegs (s : State) : SameRegs s s.applyRound := mapLanes_sameRegs _ s

theorem rereadByte_sameRegs (i : Nat) (s : State) : SameRegs s (s.rereadByte i) := by
  obtain ⟨m, u, h, _⟩ := rereadByte_eq i s
  exact (congrArg State.regs h).trans rfl

/-- Another agent's store leaves the registers alone, a race with the HASH in progress too. -/
theorem agentStore_sameRegs (a : Word) (b : Byte) (v : Bool) (s : State) : SameRegs s (agentStore a b v s) := by
  rcases agentStore_cases a b v s with h | ⟨_, u, rfl | rfl, h⟩ | h
  · exact (congrArg State.regs h).trans rfl
  · exact (congrArg State.regs h).trans rfl
  · exact (congrArg State.regs h).trans (rereadByte_sameRegs _ (s.race a.toNat))
  · exact (congrArg State.regs h).trans rfl

theorem agentStoreBytes_sameRegs (a : Nat) (bs : List Byte) (s : State) : SameRegs s (agentStoreBytes a bs s) :=
  agentStoreBytes_keeps (P := SameRegs s) (fun _ _ u h => (agentStore_sameRegs _ _ _ u).trans h) (fun _ _ h => h) a bs
    rfl

theorem agentLoad_sameRegs (a : Word) (s : State) : SameRegs s (agentLoad a s) := by
  obtain ⟨r, b, h⟩ := agentLoad_eq a s
  exact (congrArg State.regs h).trans rfl

theorem answerInBytes_sameRegs (s : State) : SameRegs s s.answerInBytes := by
  obtain ⟨r, h⟩ := answerInBytes_eq s
  exact (congrArg State.regs h).trans rfl

/-! ### What the engine can do -/

/-- Absorbing a byte changes the registers as K <- K + 1 does. -/
theorem absorbByte_sameRegs (m : Byte) (s : State) : SameRegs s.nextByte (s.absorbByte m) := rfl

theorem takeByte_sameRegs (m : Byte) (s : State) : SameRegs s.nextByte (s.takeByte m) := absorbByte_sameRegs m s

/-- A digest byte is written to its place; whether it is the lane's or a free value is of no concern here. -/
def State.putDigestByte (b : Byte) (drawn : Bool) (s : State) : State :=
  ((s.dmaStore (digestAddr s s.widx) b).drawIf drawn).nextDigestByte

theorem putDigestByte_sameRegs (b : Byte) (drawn : Bool) (s : State) :
    SameRegs s.nextDigestByte (s.putDigestByte b drawn) := rfl

theorem absorbRead_eq (s : State) : ∃ drawn m, s.absorbRead = (s.drawIf drawn).takeByte m := by
  unfold State.absorbRead
  split
  · exact ⟨false, _, rfl⟩
  · exact ⟨true, _, rfl⟩

theorem writeByte_eq (s : State) : ∃ b drawn, s.writeByte =
    if s.widx + 1 = digestBytes then (s.putDigestByte b drawn).complete else s.putDigestByte b drawn :=
  ⟨_, _, rfl⟩

/-- The states an engine step can lead to from `s`. -/
inductive EngineCase (s : State) : State → Prop where
  | waited : EngineCase s s
  | finished {u : State} : SameRegs s u → u.mem = s.mem → EngineCase s u.complete
  | roundDone : s.busy = true → s.phase = .perm → s.rnd ≠ 23 → EngineCase s s.applyRound.nextRound
  | blockEnded : s.busy = true → s.phase = .perm → s.op = .hash → 23 ≤ s.rnd → EngineCase s s.applyRound.endBlock
  | byteRead (drawn : Bool) (m : Byte) : s.busy = true → s.phase = .absorb → s.op = .hash → s.k < s.len.toNat →
      EngineCase s ((s.drawIf drawn).takeByte m)
  | readFailed (first : Nat) : EngineCase s (s.readFault first)
  | padded : s.busy = true → s.phase = .absorb → s.op = .hash → s.len.toNat ≤ s.k → EngineCase s (s.absorbByte 0)
  | byteWritten (b : Byte) (drawn : Bool) : s.busy = true → s.phase = .write → s.op = .hash →
      digestAddr s s.widx < 2 ^ 64 → s.widx + 1 ≠ digestBytes → EngineCase s (s.putDigestByte b drawn)
  | lastByteWritten (b : Byte) (drawn : Bool) : digestAddr s s.widx < 2 ^ 64 →
      EngineCase s (s.putDigestByte b drawn).complete
  | writeFailed (first : Nat) : EngineCase s (s.writeFault first)

theorem stepPhase_case {s t : State} (h : stepPhase s = .next t) : EngineCase s t := by
  obtain ⟨u, rfl, hu⟩ := stepPhase_next h
  have mapped : ∀ f, EngineCase s (s.mapLanes f).complete := fun f => .finished (mapLanes_sameRegs f s) rfl
  rcases hu with ⟨_, rfl⟩ | ⟨_, rfl⟩ | ⟨_, rfl⟩ | ⟨_, rfl⟩ | ⟨_, rfl⟩ | ⟨_, rfl⟩ | ⟨_, rfl⟩
  · exact .finished rfl rfl
  · exact mapped theta
  · exact mapped rho
  · exact mapped pi
  · exact mapped chi
  · exact .finished (mapLane_sameRegs 0 _ s) rfl
  · exact mapped _

theorem permPhase_case {s t : State} (hb : s.busy = true) (hp : s.phase = .perm) (h : permPhase s = .next t) :
    EngineCase s t := by
  rcases permPhase_next h with ⟨_, _, rfl⟩ | ⟨_, hr, rfl⟩ | ⟨_, hr, rfl⟩ | ⟨ho, hr, rfl⟩
  · exact .finished (applyRound_sameRegs s) (applyRound_mem s)
  · exact .roundDone hb hp hr
  · exact .roundDone hb hp (Nat.ne_of_lt hr)
  · exact .blockEnded hb hp ho (Nat.le_of_not_lt hr)

theorem absorbPhase_case {s t : State} (hb : s.busy = true) (hp : s.phase = .absorb) (h : absorbPhase s = .next t) :
    EngineCase s t := by
  obtain ⟨ho, ⟨hk, h⟩ | ⟨hk, rfl⟩⟩ := absorbPhase_next h
  · obtain ⟨_, rfl | rfl | ⟨first, rfl⟩⟩ := absorbInput_next h
    · exact .waited
    · obtain ⟨drawn, m, h⟩ := absorbRead_eq s
      exact h ▸ .byteRead drawn m hb hp ho hk
    · exact .readFailed first
  · exact .padded hb hp ho (Nat.le_of_not_lt hk)

theorem writePhase_case {s t : State} (hb : s.busy = true) (hp : s.phase = .write) (h : writePhase s = .next t) :
    EngineCase s t := by
  obtain ⟨ho, h⟩ := writePhase_next h
  obtain ⟨ha, rfl | rfl | ⟨first, rfl⟩⟩ := writeDigest_next h
  · exact .waited
  · obtain ⟨b, drawn, h⟩ := writeByte_eq s
    rw [h]
    split
    · exact .lastByteWritten b drawn ha
    · exact .byteWritten b drawn hb hp ho ha ‹_›
  · exact .writeFailed first

/-- What an engine step that answers next has done. -/
theorem engineStep_case {s t : State} (h : engineStep s = .next t) : EngineCase s t := by
  rcases engineStep_next h with ⟨_, rfl⟩ | ⟨hb, ⟨_, h⟩ | ⟨hp, h⟩ | ⟨hp, h⟩ | ⟨hp, h⟩⟩
  · exact .waited
  · exact stepPhase_case h
  · exact permPhase_case hb hp h
  · exact absorbPhase_case hb hp h
  · exact writePhase_case hb hp h

/-! ### What a step can do to the registers -/

/-- What a step can do to the registers: an instruction's work, the engine's, a reset, or nothing. -/
inductive RegsCase (s : State) : State → Prop where
  | instr {u v t : State} : SameRegs s u → ExecCase u v → SameRegs v t → RegsCase s t
  | engine {u t : State} : SameRegs s u → EngineCase u t → RegsCase s t
  | reset {t : State} : ResetNext s → RegsCase s t
  | kept {t : State} : SameRegs s t → RegsCase s t

theorem step_regsCase {s t : State} (h : step s = .next t) : RegsCase s t := by
  rcases step_cases h with ⟨_, h⟩ | ⟨e, es, hi, h⟩
  · exact .engine rfl (engineStep_case h)
  · rcases h with ⟨_, _, h | rfl⟩ | ⟨_, h⟩ | ⟨rfl, _⟩ | ⟨_, _, _, _, rfl⟩ | ⟨_, _, rfl⟩ | ⟨_, _, _, h | rfl | rfl⟩ |
      ⟨_, _, _, ⟨u, hu | rfl, rfl⟩ | rfl | rfl⟩ | ⟨_, _, rfl⟩ | ⟨_, _, rfl⟩
    · exact .instr (u := s.withInputs es) rfl h rfl
    · exact .kept rfl
    · exact .engine (u := s.withInputs es) rfl (engineStep_case h)
    · exact .reset ⟨es, hi⟩
    · exact .kept (agentStore_sameRegs _ _ _ (s.withInputs es))
    · exact .kept (agentLoad_sameRegs _ (s.withInputs es))
    · exact .instr (u := s.withInputs es) rfl h rfl
    · exact .kept rfl
    · exact .kept (agentStoreBytes_sameRegs _ _ (s.withInputs es))
    · exact .instr (u := s.withInputs es) rfl hu (answerInBytes_sameRegs u)
    · exact .kept (answerInBytes_sameRegs (busErrorResponse (s.withInputs es)))
    · exact .kept rfl
    · exact .kept rfl
    · exact .kept rfl
    · exact .kept rfl

/-! ### FAULT_ADDR -/

theorem ExecCase.faultAddr_eq {s t : State} (h : ExecCase s t) : t.faultAddr = s.faultAddr := by
  cases h with
  | rejectedBusy _ => simp [State.reject, ErrCode.isDma]
  | rejectedIdle c _ hc => rcases hc with rfl | rfl <;> simp [State.reject, ErrCode.isDma]
  | _ => rfl

/-- A step from `s` to `t` has recorded a DMA fault where no error was on record (60_exceptions.md R272). -/
def DmaFaultRecorded (s t : State) : Prop :=
  s.err = false ∧ t.err = true ∧ (t.errcode = 0x04 ∨ t.errcode = 0x05)

theorem EngineCase.faultAddr_eq_or {s t : State} (h : EngineCase s t) :
    t.faultAddr = s.faultAddr ∨ DmaFaultRecorded s t := by
  cases h with
  | readFailed first => cases he : s.err <;> simp [DmaFaultRecorded, he]
  | writeFailed first => cases he : s.err <;> simp [DmaFaultRecorded, he]
  | finished hu _ => exact .inl hu.faultAddr
  | waited => exact .inl rfl
  | roundDone => exact .inl (by simp)
  | blockEnded => exact .inl (by simp)
  | byteRead drawn m => exact .inl (takeByte_sameRegs m (s.drawIf drawn)).faultAddr
  | padded => exact .inl (absorbByte_sameRegs 0 s).faultAddr
  | byteWritten b drawn => exact .inl (putDigestByte_sameRegs b drawn s).faultAddr
  | lastByteWritten b drawn => exact .inl (putDigestByte_sameRegs b drawn s).faultAddr

/-- Settles O52: a step's work on the registers is an instruction's, which never writes FAULT_ADDR, the engine's, which does
so only where it records a DMA fault, or a reset. -/
theorem faultAddrChangesOnlyByADmaFault : Obligations.FaultAddrChangesOnlyByADmaFault := by
  intro s t h hne
  cases step_regsCase h with
  | instr hu he ht => exact absurd (ht.faultAddr.trans (he.faultAddr_eq.trans hu.faultAddr)) hne
  | engine hu he =>
    rcases he.faultAddr_eq_or with heq | ⟨h0, h1, hc⟩
    · exact absurd (heq.trans hu.faultAddr) hne
    · exact .inl ⟨hu.err ▸ h0, h1, hc⟩
  | reset hr => exact .inr hr
  | kept ht => exact absurd ht.faultAddr hne

/-! ### The operands while busy -/

/-- SRC, LEN and DST of `t` are those of `s`. -/
def SameOperands (s t : State) : Prop := t.src = s.src ∧ t.len = s.len ∧ t.dst = s.dst

theorem SameRegs.operands {s t : State} (h : SameRegs s t) : SameOperands s t := ⟨h.src, h.len, h.dst⟩

theorem SameOperands.trans {s t u : State} (h : SameOperands s t) (h' : SameOperands t u) : SameOperands s u :=
  ⟨h'.1.trans h.1, h'.2.1.trans h.2.1, h'.2.2.trans h.2.2⟩

/-- While busy an instruction writes no operand: the writes of SRC, LEN and DST are rejected. -/
theorem ExecCase.operands {s t : State} (hb : s.busy = true) (h : ExecCase s t) : SameOperands s t := by
  cases h with
  | srcWritten v hi => simp [hb] at hi
  | lenWritten v hi => simp [hb] at hi
  | dstWritten v hi => simp [hb] at hi
  | _ => exact ⟨rfl, rfl, rfl⟩

theorem EngineCase.operands {s t : State} (h : EngineCase s t) : SameOperands s t := by
  cases h with
  | finished hu _ => exact hu.operands
  | waited => exact ⟨rfl, rfl, rfl⟩
  | roundDone => simp [SameOperands]
  | blockEnded => simp [SameOperands]
  | byteRead drawn m => exact (takeByte_sameRegs m (s.drawIf drawn)).operands
  | padded => exact (absorbByte_sameRegs 0 s).operands
  | byteWritten b drawn => exact (putDigestByte_sameRegs b drawn s).operands
  | lastByteWritten b drawn => exact (putDigestByte_sameRegs b drawn s).operands
  | readFailed first => exact ⟨rfl, rfl, rfl⟩
  | writeFailed first => exact ⟨rfl, rfl, rfl⟩

/-- Settles O53: while busy neither an instruction nor the engine writes an operand. -/
theorem operandsStayWhileBusy : Obligations.OperandsStayWhileBusy := by
  intro s t hb h hr
  cases step_regsCase h with
  | instr hu he ht => exact hu.operands.trans ((he.operands (hu.busy.trans hb)).trans ht.operands)
  | engine hu he => exact hu.operands.trans he.operands
  | reset h => exact absurd h hr
  | kept ht => exact ht.operands

/-! ### BLOCKS -/

/-- The acceptance of a HASH has put BLOCKS to 0 (41_sponge.md R181). -/
def HashAcceptedInto (s t : State) : Prop := s.busy = false ∧ t.busy = true ∧ t.op = .hash ∧ t.blocks = 0

theorem ExecCase.blocks_eq_or {s t : State} (h : ExecCase s t) : t.blocks = s.blocks ∨ HashAcceptedInto s t := by
  cases h with
  | hashStarted hb => exact .inr ⟨hb, rfl, rfl, rfl⟩
  | _ => exact .inl rfl

/-- The last round of a block of a HASH has counted BLOCKS up (41_sponge.md R187). -/
def BlockEndedInto (s t : State) : Prop :=
  s.busy = true ∧ s.op = .hash ∧ s.phase = .perm ∧ s.rnd ≥ 23 ∧ t.blocks = s.blocks + 1

theorem EngineCase.blocks_eq_or {s t : State} (h : EngineCase s t) : t.blocks = s.blocks ∨ BlockEndedInto s t := by
  cases h with
  | blockEnded hb hp ho hr => exact .inr ⟨hb, ho, hp, hr, by rw [endBlock_blocks, applyRound_blocks]⟩
  | finished hu _ => exact .inl hu.blocks
  | waited => exact .inl rfl
  | roundDone => exact .inl (by simp)
  | byteRead drawn m => exact .inl (takeByte_sameRegs m (s.drawIf drawn)).blocks
  | padded => exact .inl (absorbByte_sameRegs 0 s).blocks
  | byteWritten b drawn => exact .inl (putDigestByte_sameRegs b drawn s).blocks
  | lastByteWritten b drawn => exact .inl (putDigestByte_sameRegs b drawn s).blocks
  | readFailed first => exact .inl rfl
  | writeFailed first => exact .inl rfl

/-- Settles O54: BLOCKS is written by the acceptance of a HASH and by the end of a block alone, but for a reset. -/
theorem blocksChangesOnlyByHash : Obligations.BlocksChangesOnlyByHash := by
  intro s t h hne
  cases step_regsCase h with
  | instr hu he ht =>
    rcases he.blocks_eq_or with heq | ⟨hb, hb', ho, h0⟩
    · exact absurd (ht.blocks.trans (heq.trans hu.blocks)) hne
    · exact .inl ⟨hu.busy ▸ hb, ht.busy.trans hb', ht.op.trans ho, ht.blocks.trans h0⟩
  | engine hu he =>
    rcases he.blocks_eq_or with heq | ⟨hb, ho, hp, hr, h1⟩
    · exact absurd (heq.trans hu.blocks) hne
    · exact .inr (.inl ⟨hu.busy ▸ hb, hu.op ▸ ho, hu.phase ▸ hp, hu.rnd ▸ hr, hu.blocks ▸ h1⟩)
  | reset hr => exact .inr (.inr hr)
  | kept ht => exact absurd ht.blocks hne

end Sys2Proof.Machine
end

section
/-! PROOFS. The invariant is kept by each operation on the state, so by each instruction, each engine step, each access of
another agent and reset, and so by every step (10_state.md R38, R50; 41_sponge.md R183 to R189). -/

namespace Sys2Proof.Machine

/-! ### The invariant and the fields it does not name -/

/-- The invariant is of the registers, the lanes and memory: `u` has the registers of `t`. -/
theorem Inv.of_regs {u t : State} (hr : SameRegs u t) (hs : StatusOk u) (hq : StepOk u) (hh : HashOk u)
    (hR : ReplayOk t) (hM : MemoryOk t) : Inv t where
  status := hs.of_eq hr.phase hr.busy hr.done hr.err hr.errcode
  seq := hq.of_eq hr.phase hr.op hr.arg hr.rnd
  hash := hh.of_eq hr.phase hr.busy hr.op hr.src hr.len hr.dst hr.basePage hr.nblk hr.k hr.blocks hr.widx
  replay := hR
  memory := hM

/-- The sequencer of a DMA phase is that of a HASH alone. -/
theorem StepOk.of_dma {t : State} (hp : t.phase = .absorb ∨ t.phase = .write) : StepOk t := by
  rcases hp with hp | hp <;> exact ⟨by simp [hp], by simp [hp], by simp [hp], by simp [hp]⟩

theorem StepOk.of_perm {t : State} (hp : t.phase = .perm) (ho : t.op = .permute ∨ t.op = .hash) (hr : t.rnd ≤ 23) :
    StepOk t :=
  ⟨by simp [hp], by simp [hp], fun _ => ho, fun _ => hr⟩

theorem Inv.of_sameRegs {s t : State} (h : Inv s) (hr : SameRegs s t) (hR : ReplayOk t) (hM : MemoryOk t) : Inv t :=
  .of_regs hr h.status h.seq h.hash hR hM

theorem ReplayOk.of_sameRegs {s t : State} (h : ReplayOk s) (hr : SameRegs s t) (ht : t.taken = s.taken)
    (hl : t.lanes = s.lanes) (ha : t.laneAny = s.laneAny) : ReplayOk t :=
  h.of_eq hr.busy hr.op hr.phase hr.rnd hr.len hr.nblk ht hr.k hl ha

/-- The invariant of a state with the same registers, lanes and memory. -/
theorem Inv.of_kept {s t : State} (h : Inv s) (hr : SameRegs s t) (ht : t.taken = s.taken) (hl : t.lanes = s.lanes)
    (ha : t.laneAny = s.laneAny) (hm : t.mem = s.mem) (hra : t.raced = s.raced) : Inv t :=
  h.of_sameRegs hr (h.replay.of_sameRegs hr ht hl ha) (h.memory.of_eq hm hr.busy hr.op hra)

/-- The invariant of an idle machine: STATUS and memory. -/
theorem Inv.of_idle {t : State} (hs : StatusOk t) (hb : t.busy = false) (hm : MemoryOk t) : Inv t where
  status := hs
  seq := .of_idle (hs.idle_iff.2 hb)
  hash := .of_idle (hs.idle_iff.2 hb) hb
  replay := .of_idle (hashBusy_of_idle hb)
  memory := hm

theorem SameRegs.hashBusy {s t : State} (h : SameRegs s t) : t.hashBusy = s.hashBusy := hashBusy_of_eq h.busy h.op

/-! ### Answers, errors and the host's registers -/

theorem Inv.respond {s : State} (h : Inv s) (r : Response) : Inv (s.respond r) := h.of_kept rfl rfl rfl rfl rfl rfl

theorem Inv.drawIf {s : State} (h : Inv s) (b : Bool) : Inv (s.drawIf b) := h.of_kept rfl rfl rfl rfl rfl rfl

theorem Inv.seeStatus {s : State} (h : Inv s) : Inv s.seeStatus := h.of_kept rfl rfl rfl rfl rfl rfl

theorem Inv.setCtrl {s : State} (h : Inv s) (v : Word) : Inv (s.setCtrl v) := h.of_kept rfl rfl rfl rfl rfl rfl

theorem Inv.setMemResp {s : State} (h : Inv s) (l : List RespRule) : Inv (setMemResp l s) :=
  h.of_kept rfl rfl rfl rfl rfl rfl

theorem Inv.setAgent {s : State} (h : Inv s) (g : Nat) : Inv (setAgent g s) := h.of_kept rfl rfl rfl rfl rfl rfl

/-- An operation that changes DONE, ERR and ERRCODE alone keeps the invariant where it keeps that of STATUS. -/
theorem Inv.of_status {s t : State} (h : Inv s) (hs : StatusOk t)
    (ht : t = { s with done := t.done, err := t.err, errcode := t.errcode, faultAddr := t.faultAddr }) : Inv t := by
  rw [ht] at hs ⊢
  exact ⟨hs, h.seq.of_eq rfl rfl rfl rfl, h.hash.of_eq rfl rfl rfl rfl rfl rfl rfl rfl rfl rfl rfl,
    h.replay.of_eq rfl rfl rfl rfl rfl rfl rfl rfl rfl rfl, h.memory.of_eq rfl rfl rfl rfl⟩

theorem ErrCode.code_bounds (c : ErrCode) : 1 ≤ c.code.toNat ∧ c.code.toNat ≤ 5 := by cases c <;> decide

theorem StatusOk.recordError {s : State} (h : StatusOk s) (c : ErrCode) (a : Word) : StatusOk (s.recordError c a) where
  idle_iff := h.idle_iff
  not_both := h.not_both
  no_error := by simp
  the_error _ := by
    cases he : s.err
    · simpa [he] using c.code_bounds
    · simpa [he] using h.the_error he

theorem StatusOk.acknowledge {s : State} (h : StatusOk s) (v : Word) : StatusOk (s.acknowledge v) where
  idle_iff := h.idle_iff
  not_both := fun ⟨hd, hb⟩ => h.not_both ⟨by simp_all, hb⟩
  no_error he := by
    cases hv : v.getLsbD 2 with
    | true => rw [acknowledge_errcode, hv, if_pos rfl]
    | false =>
      rw [acknowledge_err, hv, Bool.not_false, Bool.and_true] at he
      rw [acknowledge_errcode, hv, if_neg Bool.false_ne_true]
      exact h.no_error he
  the_error he := by
    rw [acknowledge_err, Bool.and_eq_true, Bool.not_eq_true'] at he
    rw [acknowledge_errcode, he.2, if_neg Bool.false_ne_true]
    exact h.the_error he.1

theorem StatusOk.clearDone {s : State} (h : StatusOk s) : StatusOk s.clearDone where
  idle_iff := h.idle_iff
  not_both := by simp
  no_error := h.no_error
  the_error := h.the_error

theorem Inv.reject {s : State} (h : Inv s) (c : ErrCode) : Inv (s.reject c) :=
  Inv.respond (h.of_status (h.status.recordError c 0) rfl) _

theorem Inv.acknowledge {s : State} (h : Inv s) (v : Word) : Inv (s.acknowledge v) :=
  h.of_status (h.status.acknowledge v) rfl

theorem Inv.clearDone {s : State} (h : Inv s) : Inv s.clearDone := h.of_status h.status.clearDone rfl

/-- An idle machine's lanes and operands are of no concern. -/
theorem Inv.of_idle_status {s t : State} (h : Inv s) (hb : s.busy = false) (hp' : t.phase = s.phase)
    (hb' : t.busy = s.busy) (hd : t.done = s.done) (he : t.err = s.err) (hc : t.errcode = s.errcode)
    (hm : t.mem = s.mem) (ho : t.op = s.op) (hr : t.raced = s.raced) : Inv t :=
  .of_idle (h.status.of_eq hp' hb' hd he hc) (hb'.trans hb) (h.memory.of_eq hm hb' ho hr)

/-! ### The acceptance of a command -/

/-- The acceptance of a command makes STATUS busy, from an idle machine with DONE = 0. -/
theorem StatusOk.busy {s t : State} (h : StatusOk s) (hp : t.phase ≠ .idle) (hb : t.busy = true) (hd : t.done = false)
    (he : t.err = s.err) (hc : t.errcode = s.errcode) : StatusOk t where
  idle_iff := by simp [hp, hb]
  not_both := by simp [hd]
  no_error := by rw [he, hc]; exact h.no_error
  the_error := by rw [he, hc]; exact h.the_error

theorem Inv.raced_of_idle {s : State} (h : Inv s) (hb : s.busy = false) : s.raced = [] :=
  h.memory.no_races (hashBusy_of_idle hb)

theorem Inv.loadStep {s : State} (h : Inv s) (hb : s.busy = false) {op : Op} {r : Nat} (hc : StepCommand op r) :
    Inv (s.clearDone.loadStep op r) := by
  obtain ⟨hop, harg⟩ := hc
  have hne : (s.clearDone.loadStep op r).hashBusy = false := by
    rcases hop with rfl | rfl | rfl | rfl | rfl | rfl | rfl <;> rfl
  exact {
    status := h.status.busy (by simp) rfl rfl rfl rfl
    seq := ⟨fun _ => hop, fun _ ho => by rcases ho with rfl | rfl <;> simpa [Op.takesArg] using harg (by simp),
      by simp, by simp⟩
    hash := ⟨by simp, by simp [hne], by simp [hne], by simp, by simp, by simp⟩
    replay := .of_idle hne
    memory := ⟨h.memory.mem_wf, fun _ => h.raced_of_idle hb⟩ }

theorem Inv.loadPermute {s : State} (h : Inv s) (hb : s.busy = false) : Inv s.clearDone.loadPermute where
  status := h.status.busy (by simp) rfl rfl rfl rfl
  seq := .of_perm rfl (.inl rfl) (Nat.zero_le _)
  hash := ⟨by simp, by simp [State.hashBusy], by simp [State.hashBusy], by simp, by simp, by simp⟩
  replay := .of_idle rfl
  memory := ⟨h.memory.mem_wf, fun _ => h.raced_of_idle hb⟩

theorem Inv.loadHash {s : State} (h : Inv s) (hr : rangeFails s = false) (hw : hashMeetsWindow s = false) :
    Inv s.clearDone.loadHash where
  status := h.status.busy (by simp) rfl rfl rfl rfl
  seq := .of_dma (.inl rfl)
  hash :=
    { op_hash := fun _ => rfl
      ranges := fun _ => ⟨hr, hw⟩
      nblk_eq := fun _ => rfl
      absorbing := fun _ => ⟨by simp [rateBytes, blockCount], by simp⟩
      permuting := by simp
      writing := by simp }
  replay := ⟨by simp, fun _ => rfl, fun _ => rfl⟩
  memory := ⟨h.memory.mem_wf, fun _ => rfl⟩

/-- An instruction keeps the invariant. -/
theorem Inv.exec {s t : State} (h : Inv s) (he : ExecCase s t) : Inv t := by
  cases he with
  | answered r b => exact (h.respond r).drawIf b
  | statusRead v => exact h.seeStatus.respond _
  | rejectedBusy _ => exact h.reject _
  | rejectedIdle c _ _ => exact h.clearDone.reject c
  | stepStarted op r hb hc => exact (h.loadStep hb hc).respond _
  | permuteStarted hb => exact (h.loadPermute hb).respond _
  | hashStarted _ hr hw => exact (h.loadHash hr hw).respond _
  | laneWritten i v hb => exact h.of_idle_status hb rfl rfl rfl rfl rfl rfl rfl rfl
  | srcWritten v hb => exact h.of_idle_status hb rfl rfl rfl rfl rfl rfl rfl rfl
  | lenWritten v hb => exact h.of_idle_status hb rfl rfl rfl rfl rfl rfl rfl rfl
  | dstWritten v hb => exact h.of_idle_status hb rfl rfl rfl rfl rfl rfl rfl rfl
  | ctrlWritten v => exact (h.setCtrl v).respond _
  | acknowledged v => exact (h.acknowledge v).respond _

/-! ### Other agents and reset -/

theorem Inv.noteVisible {s : State} (h : Inv s) (a : Nat) (v : Bool) : Inv (s.noteVisible a v) :=
  h.of_kept rfl rfl rfl rfl rfl rfl

theorem Inv.landStore {s : State} (h : Inv s) {a : Nat} (ha : a < 2 ^ 64) (b : Byte) (v : Bool) :
    Inv (s.landStore a b v) := by
  refine h.of_sameRegs rfl (h.replay.of_sameRegs rfl rfl rfl rfl) ⟨?_, h.memory.no_races⟩
  cases v
  · exact forget_wf _ _ _ h.memory.mem_wf
  · exact write_wf _ _ _ ha h.memory.mem_wf

theorem Inv.race {s : State} (h : Inv s) (hb : s.hashBusy = true) (a : Nat) : Inv (s.race a) :=
  h.of_sameRegs rfl (h.replay.of_sameRegs rfl rfl rfl rfl)
    ⟨forget_wf _ _ _ h.memory.mem_wf, fun hn => nomatch hb.symm.trans hn⟩

/-- The ranges of a HASH in progress end at 2^64 or below (41_sponge.md R183). -/
theorem HashOk.ranges_end {s : State} (h : HashOk s) (hb : s.hashBusy = true) :
    (0 < s.len.toNat → s.src.toNat + s.len.toNat ≤ 2 ^ 64) ∧ s.dst.toNat + 32 ≤ 2 ^ 64 := by
  obtain ⟨hr, _⟩ := h.ranges hb
  rw [rangeFails, Bool.or_eq_false_iff, Bool.and_eq_false_imp, digestBytes] at hr
  exact ⟨fun hl => Nat.le_of_not_lt (of_decide_eq_false (hr.1 (decide_eq_true hl))),
    Nat.le_of_not_lt (of_decide_eq_false hr.2)⟩

/-- The digest bytes a HASH has written are below 2^64. -/
theorem HashOk.digestWritten_bound {s : State} (h : HashOk s) (hb : s.hashBusy = true) :
    s.dst.toNat + s.digestWritten ≤ 2 ^ 64 := by
  obtain ⟨_, hd⟩ := h.ranges_end hb
  unfold State.digestWritten
  split
  · have hx : s.widx < 32 := (h.writing ‹_›).2.2
    omega
  · omega

/-- A byte taken is replaced and the lanes follow, so the lanes are still those of the bytes taken. -/
theorem Inv.rereadByte {s : State} (h : Inv s) (hb : s.hashBusy = true) (i : Nat) : Inv (s.rereadByte i) := by
  have hr : SameRegs s (s.rereadByte i) := rereadByte_sameRegs i s
  obtain ⟨m, u, heq, hl⟩ := rereadByte_eq i s
  refine h.of_sameRegs hr ⟨fun _ => ?_, fun _ => (congrArg State.laneAny heq :), fun _ => hl⟩
    ⟨?_, fun hn => by simp [hr.hashBusy, hb] at hn⟩
  · have ht : (s.rereadByte i).taken = s.taken.set i (Config.freeByte s.draws) := (congrArg State.taken heq :)
    rw [ht, List.length_set, hr.k, hr.len]
    exact h.replay.taken_len hb
  · exact rewriteDigest_wf _ _ (h.hash.digestWritten_bound hb) h.memory.mem_wf

theorem Inv.agentStore {s : State} (h : Inv s) (a : Word) (b : Byte) (v : Bool) : Inv (agentStore a b v s) := by
  rcases agentStore_cases a b v s with heq | ⟨hb, u, rfl | rfl, heq⟩ | heq <;> rw [heq]
  · exact h.respond _
  · exact ((h.race hb _).noteVisible _ _).respond _
  · exact (((h.race hb _).rereadByte hb _).noteVisible _ _).respond _
  · exact ((h.landStore a.isLt b v).noteVisible _ _).respond _

theorem Inv.agentStoreBytes {s : State} (h : Inv s) (a : Nat) (bs : List Byte) : Inv (agentStoreBytes a bs s) :=
  agentStoreBytes_keeps (fun _ _ _ h => h.agentStore _ _ _) (fun _ _ h => h.respond _) a bs h

theorem Inv.agentLoad {s : State} (h : Inv s) (a : Word) : Inv (agentLoad a s) := by
  obtain ⟨r, b, heq⟩ := agentLoad_eq a s
  exact heq ▸ (h.respond r).drawIf b

theorem Inv.agentLoadBytes {s : State} (h : Inv s) (a n : Nat) : Inv (agentLoadBytes a n s) :=
  h.of_kept rfl rfl rfl rfl rfl rfl

theorem Inv.answerInBytes {s : State} (h : Inv s) : Inv s.answerInBytes := by
  obtain ⟨r, heq⟩ := answerInBytes_eq s
  exact heq ▸ h.respond r

theorem Inv.resetBlock {s : State} (h : Inv s) : Inv (resetBlock s) := by
  refine .of_idle ⟨by simp [State.reset], by simp [State.reset], fun _ => rfl, by simp [State.reset]⟩ rfl ⟨?_, fun _ => rfl⟩
  rw [resetBlock_mem]
  split
  · exact forget_wf _ _ _ h.memory.mem_wf
  · exact h.memory.mem_wf

/-! ### The engine -/

/-- Completion, whatever the lanes: the machine is idle and no race is on record. -/
theorem Inv.complete {s : State} (hs : StatusOk s) (hm : Memory.wf s.mem) : Inv s.complete :=
  .of_idle ⟨by simp, by simp, hs.no_error, hs.the_error⟩ rfl ⟨hm, fun _ => rfl⟩

/-- The end of an abort, whatever the lanes. -/
theorem Inv.abort {s : State} (hs : StatusOk s) (hm : Memory.wf s.mem) : Inv s.abort :=
  .of_idle ⟨by simp, by simp, hs.no_error, hs.the_error⟩ rfl ⟨hm, fun _ => rfl⟩

theorem Inv.readFault {s : State} (h : Inv s) (first : Nat) : Inv (s.readFault first) :=
  .abort ((h.status.recordError .readFault (BitVec.ofNat 64 first)).of_eq rfl rfl rfl rfl rfl) h.memory.mem_wf

theorem Inv.writeFault {s : State} (h : Inv s) (first : Nat) : Inv (s.writeFault first) := by
  have ha : Inv (s.recordError .writeFault (BitVec.ofNat 64 first)).abort :=
    .abort (h.status.recordError .writeFault _) h.memory.mem_wf
  exact .of_idle (ha.status.of_eq rfl rfl rfl rfl rfl) rfl ⟨forget_wf _ _ _ h.memory.mem_wf, fun _ => rfl⟩

/-- While the engine works STATUS is as it was, whatever phase it goes to. -/
theorem StatusOk.of_working {s t : State} (h : StatusOk s) (hb : s.busy = true) (hp : t.phase ≠ .idle)
    (hb' : t.busy = s.busy) (hd : t.done = s.done) (he : t.err = s.err) (hc : t.errcode = s.errcode) : StatusOk t :=
  h.busy hp (hb'.trans hb) (hd.trans (by simpa [hb] using h.not_both)) he hc

/-! ### PERM: a round more, or the end of a block -/

theorem nextRound_sameRegs {u v : State} (h : SameRegs u v) : SameRegs u.nextRound v.nextRound :=
  (congrArg State.nextRound h :)

theorem endBlock_sameRegs {u v : State} (h : SameRegs u v) : SameRegs u.endBlock v.endBlock :=
  (congrArg State.endBlock h :)

/-- The lanes a HASH has after one round more of a block's permutation. -/
theorem applyRound_lanes_replay {s : State} (h : Inv s) (hb : s.hashBusy = true) (hp : s.phase = .perm) :
    s.applyRound.lanes = keccakRounds (s.rnd + 1) 0 (replay s.len.toNat s.nblk s.taken s.k) := by
  rw [keccakRounds_succ, Nat.zero_add, applyRound_lanes, laneValues_of_known (h.replay.known hb),
    h.replay.lanes_eq hb, State.replayLanes, if_pos hp]

theorem StepOk.nextRound {s : State} (h : StepOk s) (hp : s.phase = .perm) (hr : s.rnd ≠ 23) : StepOk s.nextRound :=
  .of_perm hp (h.perm_op hp) (Nat.lt_of_le_of_ne (h.rnd_le hp) hr)

theorem Inv.roundDone {s : State} (h : Inv s) (hp : s.phase = .perm) (hr : s.rnd ≠ 23) :
    Inv s.applyRound.nextRound := by
  have hregs := nextRound_sameRegs (applyRound_sameRegs s)
  have hhb : s.applyRound.nextRound.hashBusy = s.hashBusy := hregs.hashBusy
  refine .of_regs hregs (h.status.of_eq rfl rfl rfl rfl rfl) (h.seq.nextRound hp hr)
    (h.hash.of_eq rfl rfl rfl rfl rfl rfl rfl rfl rfl rfl rfl) ⟨fun hb => ?_, fun _ => by simp, fun hb => ?_⟩
    (h.memory.of_eq (by simp) (by simp) (by simp) (by simp)) <;> rw [hhb] at hb
  · simpa using h.replay.taken_len hb
  · rw [nextRound_lanes, applyRound_lanes_replay h hb hp]
    simp [State.replayLanes, hp]

/-- BLOCKS does not wrap: a HASH has fewer blocks than its 64-bit length has bytes, and one. -/
theorem HashOk.blocks_succ {s : State} (h : HashOk s) (hb : s.hashBusy = true) (hp : s.phase = .perm)
    (ho : s.op = .hash) : (s.blocks + 1).toNat = s.blocks.toNat + 1 := by
  obtain ⟨hk, hle⟩ := h.permuting hp ho
  have hn := h.nblk_eq hb
  have hlen := s.len.isLt
  simp only [blockCount, rateBytes] at hk hle hn
  bv_omega

theorem endBlock_cases (s : State) :
    (s.k = rateBytes * s.nblk ∧ s.endBlock.phase = .write ∧ s.endBlock.widx = 0) ∨
      (s.k ≠ rateBytes * s.nblk ∧ s.endBlock.phase = .absorb) := by
  by_cases hk : s.k = rateBytes * s.nblk <;> simp [hk]

theorem HashOk.endBlock {s : State} (h : HashOk s) (hb : s.hashBusy = true) (hp : s.phase = .perm)
    (ho : s.op = .hash) : HashOk s.endBlock := by
  obtain ⟨hk, hle⟩ := h.permuting hp ho
  have hbl : s.endBlock.blocks.toNat = s.blocks.toNat + 1 := h.blocks_succ hb hp ho
  refine ⟨fun _ => ho, h.ranges, h.nblk_eq, fun ha => ?_, fun hn => ?_, fun hw => ?_⟩ <;>
    rcases endBlock_cases s with ⟨hlast, he, hx⟩ | ⟨hlast, he⟩
  case refine_1.inr =>
    rw [hbl, endBlock_k, endBlock_nblk]
    simp only [rateBytes] at *
    omega
  case refine_3.inl =>
    rw [hbl, hx, endBlock_k, endBlock_nblk]
    simp only [rateBytes, digestBytes] at *
    omega
  -- the other cases name a phase that is not the next one
  all_goals simp_all only [reduceCtorEq]

theorem Inv.blockEnded {s : State} (h : Inv s) (hb : s.busy = true) (hp : s.phase = .perm) (ho : s.op = .hash)
    (hr : 23 ≤ s.rnd) : Inv s.applyRound.endBlock := by
  have hregs := endBlock_sameRegs (applyRound_sameRegs s)
  have hhb : s.hashBusy = true := by simp [State.hashBusy, hb, ho]
  have hrnd : s.rnd = 23 := Nat.le_antisymm (h.seq.rnd_le hp) hr
  obtain ⟨hk, _⟩ := h.hash.permuting hp ho
  have hdma : s.endBlock.phase = .absorb ∨ s.endBlock.phase = .write :=
    (endBlock_cases s).symm.imp (·.2) (·.2.1)
  refine .of_regs hregs (h.status.of_working hb (by rcases hdma with he | he <;> rw [he] <;> nofun) rfl rfl rfl rfl)
    (.of_dma hdma) (h.hash.endBlock hhb hp ho) ⟨fun _ => by simpa using h.replay.taken_len hhb, fun _ => by simp,
      fun _ => ?_⟩ (h.memory.of_eq (by simp) (by simp) (by simp) (by simp))
  have hne : s.applyRound.endBlock.phase ≠ .perm := by
    rw [hregs.phase]
    rcases hdma with he | he <;> rw [he] <;> nofun
  rw [endBlock_lanes, applyRound_lanes_replay h hhb hp, hrnd, State.replayLanes, if_neg hne]
  simp only [endBlock_k, endBlock_len, endBlock_nblk, endBlock_taken, applyRound_k, applyRound_len, applyRound_nblk,
    applyRound_taken]
  exact (permuteFull_eq_rounds _ (by simp only [rateBytes] at hk; omega) (by simp [hk])).symm

/-! ### ABSORB: a byte more -/

theorem setIfInBounds_known {s : State} (h : s.laneAny = Vector.replicate 25 false) (i : Nat) :
    s.laneAny.setIfInBounds i false = Vector.replicate 25 false := by
  rw [h]
  ext j hj
  simp

theorem nextByte_cases {s : State} (hp : s.phase = .absorb) :
    (s.k % rateBytes = 135 ∧ s.nextByte.phase = .perm ∧ s.nextByte.rnd = 0) ∨
      (s.k % rateBytes ≠ 135 ∧ s.nextByte.phase = .absorb) := by
  by_cases hk : s.k % rateBytes = 135
  · simp [hk]
  · simp [hk, hp]

theorem StepOk.nextByte {s : State} (hp : s.phase = .absorb) (ho : s.op = .hash) : StepOk s.nextByte := by
  rcases nextByte_cases hp with ⟨_, he, hr⟩ | ⟨_, he⟩
  · exact .of_perm he (.inr ho) (hr ▸ Nat.zero_le _)
  · exact .of_dma (.inl he)

theorem HashOk.nextByte {s : State} (h : HashOk s) (hp : s.phase = .absorb) : HashOk s.nextByte := by
  obtain ⟨hk, hbl⟩ := h.absorbing hp
  have ho : s.nextByte.op = .hash := h.op_hash (.inl hp)
  refine ⟨fun _ => ho, h.ranges, h.nblk_eq, fun ha => ?_, fun hn _ => ?_, fun hw => ?_⟩ <;>
    rcases nextByte_cases hp with ⟨hm, he, _⟩ | ⟨hm, he⟩
  case refine_1.inr =>
    rw [nextByte_k, nextByte_nblk, nextByte_blocks]
    simp only [rateBytes] at *
    omega
  case refine_2.inl =>
    rw [nextByte_k, nextByte_nblk, nextByte_blocks]
    simp only [rateBytes] at *
    omega
  -- the other cases name a phase that is not the next one
  all_goals simp_all only [reduceCtorEq]

theorem ReplayOk.lanes_of_absorb {s : State} (h : ReplayOk s) (hb : s.hashBusy = true) (hp : s.phase = .absorb) :
    s.lanes = permuteFull s.k (replay s.len.toNat s.nblk s.taken s.k) := by
  rw [h.lanes_eq hb, State.replayLanes, if_neg (by rw [hp]; nofun)]

/-- The replay of one byte more, its block not yet permuted, is that of the phase the block goes on in. -/
theorem replayLanes_nextByte {s t : State} (hp : s.phase = .absorb) (hr : SameRegs s.nextByte t) :
    t.replayLanes = replay s.len.toNat s.nblk t.taken (s.k + 1) := by
  have hlen : t.len = s.len := hr.len
  have hnblk : t.nblk = s.nblk := hr.nblk
  have hk : t.k = s.k + 1 := hr.k
  rw [State.replayLanes, hr.phase, hr.rnd, hlen, hnblk, hk]
  rcases nextByte_cases hp with ⟨_, he, hrnd⟩ | ⟨hm, he⟩
  · rw [if_pos he, hrnd, keccakRounds]
  · rw [if_neg (by rw [he]; nofun), permuteFull, if_neg]
    simp only [rateBytes] at *
    omega

/-- A byte of the padded message is absorbed: `m` is its input byte, `ys` are the bytes taken after it. -/
theorem Inv.absorbed {s : State} (h : Inv s) (hb : s.busy = true) (hp : s.phase = .absorb) (ho : s.op = .hash)
    {m : Byte} {ys : List Byte} (hlen : ys.length = min (s.k + 1) s.len.toNat)
    (hold : ∀ i, i < s.k → ys.getD i 0 = s.taken.getD i 0) (hm : ys.getD s.k 0 = m) :
    Inv { s.absorbByte m with taken := ys } := by
  have hregs : SameRegs s.nextByte { s.absorbByte m with taken := ys } := absorbByte_sameRegs m s
  have hhb : s.hashBusy = true := by simp [State.hashBusy, hb, ho]
  have hknown := h.replay.known hhb
  have hne : s.nextByte.phase ≠ .idle := by rcases nextByte_cases hp with ⟨_, he, _⟩ | ⟨_, he⟩ <;> rw [he] <;> nofun
  refine .of_regs hregs (h.status.of_working hb hne rfl rfl rfl rfl) (.nextByte hp ho) (h.hash.nextByte hp)
    ⟨fun _ => hlen, fun _ => setIfInBounds_known hknown _, fun _ => ?_⟩ (h.memory.of_eq rfl rfl rfl rfl)
  rw [replayLanes_nextByte hp hregs, replay_step hold hm, ← h.replay.lanes_of_absorb hhb hp, absorbAt,
    ← laneValue_of_known hknown]
  rfl

/-- An input byte is absorbed and taken. -/
theorem Inv.takeByte {s : State} (h : Inv s) (hb : s.busy = true) (hp : s.phase = .absorb) (ho : s.op = .hash)
    (hk : s.k < s.len.toNat) (m : Byte) : Inv (s.takeByte m) := by
  have hlen : s.taken.length = s.k := by
    rw [h.replay.taken_len (by simp [State.hashBusy, hb, ho]), Nat.min_eq_left hk.le]
  refine h.absorbed hb hp ho ?_ (fun i hi => ?_) ?_
  · rw [List.length_append, hlen, List.length_singleton, Nat.min_eq_left hk]
  · rw [List.getD_append _ _ _ _ (hlen ▸ hi)]
  · rw [List.getD_append_right _ _ _ _ hlen.le, hlen, Nat.sub_self, List.getD_cons_zero]

/-- A byte of padding is absorbed: nothing is taken. -/
theorem Inv.padded {s : State} (h : Inv s) (hb : s.busy = true) (hp : s.phase = .absorb) (ho : s.op = .hash)
    (hk : s.len.toNat ≤ s.k) : Inv (s.absorbByte 0) := by
  have hlen : s.taken.length = s.len.toNat := by
    rw [h.replay.taken_len (by simp [State.hashBusy, hb, ho]), Nat.min_eq_right hk]
  refine h.absorbed (ys := s.taken) hb hp ho ?_ (fun _ _ => rfl) (List.getD_eq_default _ _ (hlen.trans_le hk))
  rw [hlen, Nat.min_eq_right (Nat.le_succ_of_le hk)]

/-! ### WRITE: a digest byte more -/

theorem HashOk.nextDigestByte {s : State} (h : HashOk s) (hp : s.phase = .write) (hx : s.widx + 1 ≠ digestBytes) :
    HashOk s.nextDigestByte where
  op_hash := h.op_hash
  ranges := h.ranges
  nblk_eq := h.nblk_eq
  absorbing := h.absorbing
  permuting := h.permuting
  writing _ := by
    obtain ⟨hk, hbl, hlt⟩ := h.writing hp
    exact ⟨hk, hbl, by rw [nextDigestByte_widx]; omega⟩

theorem putDigestByte_wf {s : State} (h : Memory.wf s.mem) (ha : digestAddr s s.widx < 2 ^ 64) (b : Byte)
    (drawn : Bool) : Memory.wf (s.putDigestByte b drawn).mem := by
  show Memory.wf (s.dmaStore (digestAddr s s.widx) b).mem
  rw [dmaStore_mem]
  split
  · exact forget_wf _ _ _ h
  · exact write_wf _ _ _ ha h

theorem Inv.putDigestByte {s : State} (h : Inv s) (hp : s.phase = .write) (ha : digestAddr s s.widx < 2 ^ 64)
    (hx : s.widx + 1 ≠ digestBytes) (b : Byte) (drawn : Bool) : Inv (s.putDigestByte b drawn) :=
  .of_regs (putDigestByte_sameRegs b drawn s) (h.status.of_eq rfl rfl rfl rfl rfl) (.of_dma (.inr hp))
    (h.hash.nextDigestByte hp hx) (h.replay.of_eq rfl rfl rfl rfl rfl rfl rfl rfl rfl rfl)
    ⟨putDigestByte_wf h.memory.mem_wf ha b drawn, h.memory.no_races⟩

/-! ### Every step -/

/-- An engine step keeps the invariant. -/
theorem Inv.engine {s t : State} (h : Inv s) (he : EngineCase s t) : Inv t := by
  cases he with
  | waited => exact h
  | finished hu hm =>
    exact .complete (h.status.of_eq hu.phase hu.busy hu.done hu.err hu.errcode) (hm ▸ h.memory.mem_wf)
  | roundDone _ hp hr => exact h.roundDone hp hr
  | blockEnded hb hp ho hr => exact h.blockEnded hb hp ho hr
  | byteRead drawn m hb hp ho hk => exact (h.drawIf drawn).takeByte hb hp ho hk m
  | readFailed first => exact h.readFault first
  | padded hb hp ho hk => exact h.padded hb hp ho hk
  | byteWritten b drawn _ hp _ ha hx => exact h.putDigestByte hp ha hx b drawn
  | lastByteWritten b drawn ha =>
    exact .complete (h.status.of_eq rfl rfl rfl rfl rfl) (putDigestByte_wf h.memory.mem_wf ha b drawn)
  | writeFailed first => exact h.writeFault first

/-- Settles O57: by cases on what the step has done, each kept by the lemma of its operation. -/
theorem everyStepKeepsInv : Obligations.EveryStepKeepsInv := by
  intro s t h hst
  rcases step_cases hst with ⟨_, hst⟩ | ⟨e, es, _, hst⟩
  · exact h.engine (engineStep_case hst)
  · have h := h.withInputs es
    rcases hst with ⟨_, _, he | rfl⟩ | ⟨_, he⟩ | ⟨_, rfl⟩ | ⟨_, _, _, _, rfl⟩ | ⟨_, _, rfl⟩ | ⟨_, _, _, he | rfl | rfl⟩ |
      ⟨_, _, _, ⟨u, he | rfl, rfl⟩ | rfl | rfl⟩ | ⟨_, _, rfl⟩ | ⟨_, _, rfl⟩
    · exact h.exec he
    · exact h.respond _
    · exact h.engine (engineStep_case he)
    · exact h.resetBlock
    · exact h.agentStore _ _ _
    · exact h.agentLoad _
    · exact h.exec he
    · exact h.respond _
    · exact h.agentStoreBytes _ _
    · exact (h.exec he).answerInBytes
    · exact (h.respond _).answerInBytes
    · exact h.respond _
    · exact h.agentLoadBytes _ _
    · exact h.setMemResp _
    · exact h.setAgent _

end Sys2Proof.Machine
end

section
/-! PROOFS. No step faults from a state that meets the invariant, and one is refused only at the acceptance of a HASH over
the window (41_sponge.md R183; 20_memory.md R80; log 10, 11). -/

namespace Sys2Proof.Machine

/-- The result `r` of a step from `s` is a next state, or the refusal of a HASH over the window while idle. -/
def Answered (s : State) (r : Result) : Prop :=
  (∃ t, r = .next t) ∨ (r = .refused .hashRangeMeetsWindow ∧ s.busy = false)

theorem Answered.next {s : State} (t : State) : Answered s (.next t) := .inl ⟨t, rfl⟩

/-! ### The host's accesses -/

theorem issue_answered {start : State → Result} {s : State}
    (h : s.busy = false → Answered s (start s.clearDone)) : Answered s (issue start s) := by
  unfold issue
  split
  · exact .next _
  · exact h (by simpa using ‹¬s.busy = true›)

/-- The acceptance of a command that is not HASH. -/
theorem issue_next_answered {start : State → Result} {s : State} (h : ∀ u, ∃ t, start u = .next t) :
    Answered s (issue start s) :=
  issue_answered fun _ => .inl (h _)

theorem startHash_answered {s : State} (hb : s.busy = false) : Answered s (startHash s.clearDone) := by
  unfold startHash
  split
  · exact .next _
  · split
    · exact .inr ⟨rfl, hb⟩
    · exact .next _

theorem startIndexed_next (op : Op) (r : Nat) (s : State) :
    ∃ t, (if r ≤ 23 then startStep op r else startIllegal) s = .next t := by
  split
  · exact ⟨_, rfl⟩
  · exact ⟨_, rfl⟩

theorem writeWhileIdle_answered (set : State → State) (s : State) : Answered s (writeWhileIdle set s) := by
  unfold writeWhileIdle
  split
  · exact .next _
  · exact .next _

theorem execHash_answered (s : State) : Answered s (execHash s) := issue_answered startHash_answered

theorem wrCmd_answered (w : Word) (s : State) : Answered s (execWrCmd w s) := by
  unfold execWrCmd
  split
  case h_2 => exact .next _
  case h_5 => exact issue_next_answered (startIndexed_next _ _)
  case h_6 => exact execHash_answered s
  case h_11 => exact issue_next_answered (startIndexed_next _ _)
  all_goals exact issue_next_answered fun _ => ⟨_, rfl⟩

theorem exec_answered (i : Instr) (s : State) : Answered s (exec i s) := by
  cases i with
  | hash => exact execHash_answered s
  | clear | permute | theta | rho | pi | chi => exact issue_next_answered fun _ => ⟨_, rfl⟩
  | round r | iota r => exact issue_next_answered (startIndexed_next _ _)
  | wrCmd w => exact wrCmd_answered w s
  | wrLane | wrSrc | wrLen | wrDst => exact writeWhileIdle_answered _ s
  | rdLane i =>
    simp only [exec, execRdLane]
    split
    · exact .next _
    · exact .next _
  | rdBlocks =>
    simp only [exec, execRdBlocks]
    split
    · exact .next _
    · exact .next _
  | rdWrReserved d slot v => cases d <;> exact .next _
  | _ => exact .next _

theorem runAccess_answered (a : Access) (s : State) : Answered s (runAccess a s) := by
  unfold runAccess
  split
  · exact exec_answered _ s
  · exact .next _

theorem Answered.overBus {s : State} {r : Result} (h : Answered s r) : Answered s (answerOverBus r) := by
  rcases h with ⟨t, rfl⟩ | ⟨rfl, hb⟩
  · exact .next _
  · exact .inr ⟨rfl, hb⟩

theorem runBusWrite_answered (addr : Word) (bytes : List Byte) (s : State) : Answered s (runBusWrite addr bytes s) := by
  unfold runBusWrite
  split
  · exact runAccess_answered _ s
  · split
    · exact .next _
    · exact .next _

theorem runBusRead_answered (addr : Word) (n : Nat) (s : State) : Answered s (runBusRead addr n s) := by
  unfold runBusRead
  split
  · exact (runAccess_answered _ s).overBus
  · split
    · exact .next _
    · exact .next _

/-! ### The engine -/

theorem stepPhase_answers {s : State} (h : StepOk s) (hp : s.phase = .step) : ∃ t, stepPhase s = .next t := by
  unfold stepPhase
  rcases h.step_op hp with ho | ho | ho | ho | ho | ho | ho <;> rw [ho] <;> exact ⟨_, rfl⟩

theorem permPhase_answers {s : State} (h : StepOk s) (hp : s.phase = .perm) : ∃ t, permPhase s = .next t := by
  unfold permPhase
  rcases h.perm_op hp with ho | ho <;> rw [ho] <;> exact ⟨_, rfl⟩

theorem absorbInput_answers {s : State} (ha : sourceAddr s s.k < 2 ^ 64) : ∃ t, absorbInput s = .next t := by
  unfold absorbInput
  rw [if_neg (Nat.not_le_of_lt ha)]
  dsimp only
  split <;> exact ⟨_, rfl⟩

theorem writeDigest_answers {s : State} (ha : digestAddr s s.widx < 2 ^ 64) : ∃ t, writeDigest s = .next t := by
  unfold writeDigest
  rw [if_neg (Nat.not_le_of_lt ha)]
  dsimp only
  split <;> exact ⟨_, rfl⟩

theorem absorbPhase_answers {s : State} (h : HashOk s) (hb : s.busy = true) (hp : s.phase = .absorb) :
    ∃ t, absorbPhase s = .next t := by
  have ho : s.op = .hash := h.op_hash (.inl hp)
  obtain ⟨hsrc, _⟩ := h.ranges_end (by simp [State.hashBusy, hb, ho])
  unfold absorbPhase
  rw [ho]
  dsimp only
  split
  · exact absorbInput_answers (by simp only [sourceAddr]; omega)
  · exact ⟨_, rfl⟩

theorem writePhase_answers {s : State} (h : HashOk s) (hb : s.busy = true) (hp : s.phase = .write) :
    ∃ t, writePhase s = .next t := by
  have ho : s.op = .hash := h.op_hash (.inr hp)
  obtain ⟨_, hdst⟩ := h.ranges_end (by simp [State.hashBusy, hb, ho])
  have hx : s.widx < 32 := (h.writing hp).2.2
  unfold writePhase
  rw [ho]
  exact writeDigest_answers (by simp only [digestAddr]; omega)

theorem engineStep_answers {s : State} (h : Inv s) : ∃ t, engineStep s = .next t := by
  unfold engineStep
  split
  · rename_i hb
    split <;> rename_i hp
    · rw [h.status.idle_iff.1 hp] at hb
      cases hb
    · exact stepPhase_answers h.seq hp
    · exact permPhase_answers h.seq hp
    · exact absorbPhase_answers h.hash hb hp
    · exact writePhase_answers h.hash hb hp
  · exact ⟨s, rfl⟩

/-! ### Every step -/

theorem runEvent_answered {s : State} (h : Inv s) (e : Event) : Answered s (runEvent e s) := by
  cases e with
  | access a => exact runAccess_answered a s
  | engine => exact .inl (engineStep_answers h)
  | busWrite addr bytes => exact runBusWrite_answered addr bytes s
  | busRead addr n => exact runBusRead_answered addr n s
  | _ => exact .next _

theorem step_answered {s : State} (h : Inv s) : Answered s (step s) := by
  unfold step
  split
  · exact .inl (engineStep_answers h)
  · exact runEvent_answered (h.withInputs _) _

/-- Settles O58: from the invariant every step is answered, or is the refusal of a HASH over the window while idle. -/
theorem noFaultFromInv : Obligations.NoFaultFromInv := by
  intro s h
  rcases step_answered h with ⟨t, ht⟩ | ⟨hr, hb⟩
  · exact ⟨fun f hf => by simp [ht] at hf, fun r hr => by simp [ht] at hr⟩
  · exact ⟨fun f hf => by simp [hr] at hf, fun r hr' => ⟨by simpa [hr] using hr'.symm, hb⟩⟩

end Sys2Proof.Machine
end

section
/-! PROOFS. The accesses to the block's window and the block's own accesses to memory: host accesses that go wrong, reads,
the bytes of a bus transaction, and what the engine writes (20_memory.md R71 to R76). -/

namespace Sys2Proof.Machine

open Sys2Proof.Spec

/-! ### The window -/

theorem inWindow_iff (s : State) (a : Nat) : inWindow s a = true ↔ InWindow s a := by
  simp only [inWindow, Bool.and_eq_true, decide_eq_true_eq]
  rfl

theorem inWindow_eq_false {s : State} {a : Nat} (h : ¬InWindow s a) : inWindow s a = false :=
  Bool.eq_false_iff.2 fun hw => h ((inWindow_iff s a).1 hw)

/-! ### Accesses that go wrong -/

/-- The decoder accepts no access that is misaligned or of another width (20_memory.md R71). -/
theorem decodeAccess_wrong {a : Access} (h : a.offset.toNat % 8 ≠ 0 ∨ a.width ≠ 64) :
    ∃ e, decodeAccess a = .error e := by
  unfold decodeAccess
  split
  · exact ⟨_, rfl⟩
  · rename_i ho
    rw [if_pos (h.resolve_left ho)]
    exact ⟨_, rfl⟩

/-- Settles O7: the decoder rejects such an access, so that it gets the bus error response. -/
theorem wrongAccessesGetABusError : Obligations.WrongAccessesGetABusError := by
  intro s a es hi h
  obtain ⟨e, he⟩ := decodeAccess_wrong h
  rw [step_input hi, runEvent, runAccess, he]
  rfl

/-! ### Reads -/

/-- The result `r` of a read from `s` answers a value and changes nothing but the response and the draw counter. -/
def OnlyAnswers (s : State) (r : Result) : Prop :=
  ∃ v n, r = .next { s with response := .readData v, draws := n }

theorem readDone_onlyAnswers (v : Word) (s : State) : OnlyAnswers s (readDone v s) := ⟨v, s.draws, rfl⟩

theorem readAny_onlyAnswers (i : Nat) (s : State) : OnlyAnswers s (readAny i s) :=
  ⟨Config.freeWord s.draws i, s.draws + 1, rfl⟩

theorem execRdLane_onlyAnswers (i : Nat) (s : State) : OnlyAnswers s (execRdLane i s) := by
  unfold execRdLane
  split
  · exact readAny_onlyAnswers i s
  · exact readDone_onlyAnswers _ s

theorem execRdBlocks_onlyAnswers (s : State) : OnlyAnswers s (execRdBlocks s) := by
  unfold execRdBlocks
  split
  · exact readAny_onlyAnswers 25 s
  · exact readDone_onlyAnswers _ s

/-- Settles O39: RD STATUS notes what the reading agent has seen, and every other read only answers. -/
theorem readsHaveNoSideEffect : Obligations.ReadsHaveNoSideEffect := by
  intro s i rdr hr
  have quiet : ∀ {j : Instr}, OnlyAnswers s (exec j s) → ∃ (v : Word) (n : Nat) (d : List DigestByte),
      exec j s = .next { s with response := .readData v, draws := n, digested := d } ∧
        (j ≠ .rdStatus → d = s.digested) :=
    fun ⟨v, n, h⟩ => ⟨v, n, s.digested, h, fun _ => rfl⟩
  simp only [List.mem_cons, List.not_mem_nil, or_false] at hr
  rcases hr with rfl | rfl | rfl | rfl | rfl | rfl | rfl | rfl | rfl | rfl | rfl
  · exact quiet (execRdLane_onlyAnswers i s)
  · exact quiet (readDone_onlyAnswers _ s)
  · exact quiet (readDone_onlyAnswers _ s)
  · exact ⟨s.statusWord, s.draws, _, rfl, fun h => absurd rfl h⟩
  · exact quiet (readDone_onlyAnswers _ s)
  · exact quiet (readDone_onlyAnswers _ s)
  · exact quiet (readDone_onlyAnswers _ s)
  · exact quiet (readDone_onlyAnswers _ s)
  · exact quiet (execRdBlocks_onlyAnswers s)
  · exact quiet (readDone_onlyAnswers _ s)
  · exact quiet (readDone_onlyAnswers _ s)

/-! ### The bytes of a bus transaction -/

/-- Byte k of a little-endian string (20_memory.md R72). -/
theorem getElem_leBytes (n v k : Nat) (hk : k < (leBytes n v).length) :
    (leBytes n v)[k] = BitVec.ofNat 8 (v / 256 ^ k) := by
  induction n generalizing v k with
  | zero => cases hk
  | succ n ih =>
    cases k with
    | zero => simp [leBytes]
    | succ k =>
      have hk' : k < (leBytes n (v / 256)).length := Nat.lt_of_succ_lt_succ hk
      calc (leBytes (n + 1) v)[k + 1] = (leBytes n (v / 256))[k] := rfl
        _ = BitVec.ofNat 8 (v / 256 / 256 ^ k) := ih (v / 256) k hk'
        _ = BitVec.ofNat 8 (v / 256 ^ (k + 1)) := by rw [Nat.div_div_eq_div_mul, ← Nat.pow_succ']

/-- Eight bytes are those of the value they spell. -/
theorem eq_leBytes {bytes : List Byte} {v : Word} (h8 : bytes.length = 8)
    (h : ∀ k (hk : k < 8), bytes[k] = BitVec.ofNat 8 (v.toNat / 256 ^ k)) : bytes = leBytes 8 v.toNat :=
  List.ext_getElem (by rw [h8, leBytes_length]) fun k hk hk' =>
    (h k (h8 ▸ hk)).trans (getElem_leBytes 8 v.toNat k hk').symm

theorem leNat_replicate_zero (n : Nat) : leNat (List.replicate n 0) = 0 := by
  induction n with
  | zero => rfl
  | succ n ih => rw [List.replicate_succ, leNat, ih]; rfl

section
variable {s : State} {addr : Word} {o : BitVec 12} (ha : addr.toNat = windowBase s + o.toNat)
include ha

theorem inWindow_of_offset : inWindow s addr.toNat = true := by
  have ho := o.isLt
  simp only [inWindow, Bool.and_eq_true, decide_eq_true_eq]
  omega

/-- Eight bytes at the offset `o` of the window are the 64-bit access to the register there (20_memory.md R72). -/
theorem busAccess_of_offset (d : Dir) {bytes : List Byte} (h8 : bytes.length = 8) :
    busAccess s d addr bytes = ⟨d, 64, o, BitVec.ofNat 64 (leNat bytes)⟩ := by
  rw [busAccess, h8, ha, Nat.add_sub_cancel_left, BitVec.ofNat_toNat, BitVec.setWidth_eq]

theorem runBusWrite_of_offset {v : Word} :
    runBusWrite addr (leBytes 8 v.toNat) s = runAccess ⟨.write, 64, o, v⟩ s := by
  have hv : BitVec.ofNat 64 (leNat (leBytes 8 v.toNat)) = v := by
    rw [leNat_leBytes, Nat.mod_eq_of_lt (show v.toNat < 256 ^ 8 from v.isLt), BitVec.ofNat_toNat, BitVec.setWidth_eq]
  rw [runBusWrite, if_pos (inWindow_of_offset ha), busAccess_of_offset ha _ (leBytes_length _ _), hv]

theorem runBusRead_of_offset : runBusRead addr 8 s = answerOverBus (runAccess ⟨.read, 64, o, 0⟩ s) := by
  rw [runBusRead, if_pos (inWindow_of_offset ha), busAccess_of_offset ha _ List.length_replicate,
    leNat_replicate_zero]
  rfl

end

theorem answerInBytes_readData {t : State} {v : Word} (h : t.response = .readData v) :
    t.answerInBytes = { t with response := .readBytes (leBytes 8 v.toNat) } := by
  rw [State.answerInBytes, h]
  rfl

/-- Settles O8: a bus transaction of the bytes of a word at a register's offset is the access of that word. -/
theorem busBytesAreLittleEndian : Obligations.BusBytesAreLittleEndian := by
  intro s es o addr v bytes h8 ha hb
  have ha' : addr.toNat = windowBase (s.withInputs es) + o.toNat := ha
  obtain rfl := eq_leBytes h8 hb
  refine ⟨fun hi => ?_, fun hi t ht hv => ?_⟩
  · rw [step_input hi, runEvent, runBusWrite_of_offset ha']
    rfl
  · have ht' : runAccess ⟨.read, 64, o, 0⟩ (s.withInputs es) = .next t := ht
    rw [step_input hi, runEvent, runBusRead_of_offset ha', ht', answerOverBus, answerInBytes_readData hv]

/-! ### What the engine writes -/

theorem le_transFirst (join : List Nat) {lo a : Nat} (n : Nat) (h : lo ≤ a) : lo ≤ transFirst join lo n a := by
  induction n generalizing a with
  | zero => exact h
  | succ n ih =>
    simp only [transFirst]
    split
    · rename_i hj
      have hlo : lo < a := of_decide_eq_true (Bool.and_eq_true_iff.1 hj).1
      exact ih (Nat.le_sub_one_of_lt hlo)
    · exact h

/-- Memory reads alike in `s` and `t` but for the bytes of [DST, DST + 32) (20_memory.md R76). -/
def KeepsOutsideDigest (s t : State) : Prop :=
  ∀ a, ¬(s.dst.toNat ≤ a ∧ a < s.dst.toNat + 32) → Memory.read t.mem a = Memory.read s.mem a

/-- A byte stored by the block changes no other address. -/
theorem read_dmaStore_other (s : State) {a x : Nat} (b : Byte) (h : x ≠ a) :
    Memory.read (s.dmaStore a b).mem x = Memory.read s.mem x := by
  rw [dmaStore_mem]
  split
  · rw [read_forget, if_neg (by omega)]
  · exact read_write_other _ _ h

theorem writeByte_keepsOutsideDigest {s : State} (hx : s.widx < 32) : KeepsOutsideDigest s s.writeByte := by
  intro a ha
  obtain ⟨b, drawn, h⟩ := writeByte_eq s
  have hm : s.writeByte.mem = (s.dmaStore (digestAddr s s.widx) b).mem := by
    rw [h]
    split <;> rfl
  rw [hm, read_dmaStore_other]
  simp only [digestAddr]
  omega

/-- A failing transaction that starts in the digest range leaves any value there alone. -/
theorem writeFault_keepsOutsideDigest {s : State} {first : Nat} (hf : s.dst.toNat ≤ first) :
    KeepsOutsideDigest s (s.writeFault first) := by
  intro a ha
  rw [writeFault_mem, read_forget, if_neg]
  simp only [digestAddr, digestBytes]
  omega

/-- What a WRITE step does to memory: `writeDigest_next` does not say where a failing transaction starts. -/
theorem writeDigest_keepsOutsideDigest {s t : State} (hx : s.widx < 32) (h : writeDigest s = .next t) :
    KeepsOutsideDigest s t := by
  have hfirst : s.dst.toNat ≤
      (s.transaction .write (digestAddr s 0) (digestAddr s digestBytes) (digestAddr s s.widx)).1 :=
    le_transFirst (lo := digestAddr s 0) _ _ (by simp only [digestAddr]; omega)
  unfold writeDigest at h
  split at h
  · cases h
  · dsimp only at h
    split at h <;> injection h with h <;> subst h
    · exact writeFault_keepsOutsideDigest hfirst
    · exact fun _ _ => rfl
    · exact writeByte_keepsOutsideDigest hx
    · exact writeByte_keepsOutsideDigest hx

theorem stepPhase_mem {s t : State} (h : stepPhase s = .next t) : t.mem = s.mem := by
  obtain ⟨u, rfl, hu⟩ := stepPhase_next h
  rcases hu with ⟨_, rfl⟩ | ⟨_, rfl⟩ | ⟨_, rfl⟩ | ⟨_, rfl⟩ | ⟨_, rfl⟩ | ⟨_, rfl⟩ | ⟨_, rfl⟩ <;>
    simp only [complete_mem, setLanes_mem, mapLanes_mem, mapLane_mem]

theorem permPhase_mem {s t : State} (h : permPhase s = .next t) : t.mem = s.mem := by
  rcases permPhase_next h with ⟨_, _, rfl⟩ | ⟨_, _, rfl⟩ | ⟨_, _, rfl⟩ | ⟨_, _, rfl⟩ <;> simp

theorem absorbPhase_mem {s t : State} (h : absorbPhase s = .next t) : t.mem = s.mem := by
  obtain ⟨_, ⟨_, h⟩ | ⟨_, rfl⟩⟩ := absorbPhase_next h
  · obtain ⟨_, rfl | rfl | ⟨first, rfl⟩⟩ := absorbInput_next h
    · rfl
    · obtain ⟨drawn, m, h⟩ := absorbRead_eq s
      rw [h]
      rfl
    · rfl
  · rfl

/-- Settles O55: only WRITE stores, and each store and each failing transaction is in the digest range. -/
theorem engineWritesOnlyTheDigest : Obligations.EngineWritesOnlyTheDigest := by
  intro s t hinv h a ha
  rcases engineStep_next h with ⟨_, rfl⟩ | ⟨hb, ⟨_, h⟩ | ⟨_, h⟩ | ⟨_, h⟩ | ⟨hp, h⟩⟩
  · rfl
  · rw [stepPhase_mem h]
  · rw [permPhase_mem h]
  · rw [absorbPhase_mem h]
  · obtain ⟨_, _, hx⟩ := hinv.hash.writing hp
    exact writeDigest_keepsOutsideDigest hx (writePhase_next h).2 a fun hd => ha ⟨hb, hp, hd⟩

end Sys2Proof.Machine
end

section
/-! PROOFS. The stores and loads of another agent: which of the three things a store can do, said once (`StoreCase`), what each
leaves in memory, in the lanes and in the records of the model, and what a load gets (20_memory.md R84). -/

namespace Sys2Proof.Machine

open Sys2Proof.Spec

/-! ### The ranges of a HASH in progress -/

/-- `a` is a source byte of the HASH in progress. -/
def InBusySource (s : State) (a : Nat) : Prop :=
  s.busy = true ∧ s.op = .hash ∧ s.src.toNat ≤ a ∧ a < s.src.toNat + s.len.toNat

/-- `a` is a destination byte of the HASH in progress. -/
def InBusyDigest (s : State) (a : Nat) : Prop :=
  s.busy = true ∧ s.op = .hash ∧ s.dst.toNat ≤ a ∧ a < s.dst.toNat + 32

theorem hashBusy_iff (s : State) : s.hashBusy = true ↔ s.busy = true ∧ s.op = .hash := by
  simp [State.hashBusy]

theorem inBusySource_iff (s : State) (a : Nat) : (s.hashBusy && inSource s a) = true ↔ InBusySource s a := by
  simp only [Bool.and_eq_true, hashBusy_iff, inSource, decide_eq_true_eq, and_assoc]
  rfl

theorem inBusyDigest_iff (s : State) (a : Nat) : (s.hashBusy && inDigest s a) = true ↔ InBusyDigest s a := by
  simp only [Bool.and_eq_true, hashBusy_iff, inDigest, decide_eq_true_eq, and_assoc]
  rfl

/-! ### What a store does -/

/-- The states a store of `b` to `a` outside the window can lead to, before its visibility is noted and it is answered. -/
inductive StoreCase (s : State) (a : Nat) (b : Byte) (v : Bool) : State → Prop where
  | landed : ¬InBusySource s a → ¬InBusyDigest s a → StoreCase s a b v (s.landStore a b v)
  | raced : InBusySource s a ∨ InBusyDigest s a → ¬(InBusySource s a ∧ a < s.src.toNat + s.k) →
      StoreCase s a b v (s.race a)
  | reread : InBusySource s a → a < s.src.toNat + s.k →
      StoreCase s a b v ((s.race a).rereadByte (a - s.src.toNat))

theorem agentStore_inWindow {s : State} {a : Word} (h : InWindow s a.toNat) (b : Byte) (v : Bool) :
    agentStore a b v s = s.respond .busError := by
  rw [agentStore, if_pos ((inWindow_iff s _).2 h)]

theorem agentStore_case {s : State} {a : Word} (h : ¬InWindow s a.toNat) (b : Byte) (v : Bool) :
    ∃ u, StoreCase s a.toNat b v u ∧ agentStore a b v s = (u.noteVisible a.toNat v).respond .writeDone := by
  rw [agentStore_outside (inWindow_eq_false h)]
  refine ⟨_, ?_, rfl⟩
  have hrange : (s.hashBusy && (inSource s a.toNat || inDigest s a.toNat)) = true ↔
      InBusySource s a.toNat ∨ InBusyDigest s a.toNat := by
    rw [Bool.and_or_distrib_left, Bool.or_eq_true, inBusySource_iff, inBusyDigest_iff]
  split
  · rename_i hr
    have htaken : (inSource s a.toNat && a.toNat < sourceAddr s s.k) = true ↔
        InBusySource s a.toNat ∧ a.toNat < s.src.toNat + s.k := by
      rw [← inBusySource_iff, (Bool.and_eq_true_iff.1 hr).1, Bool.true_and, Bool.and_eq_true, decide_eq_true_eq]
      rfl
    split
    · rename_i ht
      obtain ⟨hs, hk⟩ := htaken.1 ht
      exact .reread hs hk
    · rename_i ht
      exact .raced (hrange.1 hr) fun h => ht (htaken.2 h)
  · rename_i hr
    exact .landed (fun h => hr (hrange.2 (.inl h))) fun h => hr (hrange.2 (.inr h))

/-- The state with the fields another agent's store can change blanked. -/
def State.unstored (s : State) : State :=
  { s with
    lanes := zeroLanes, laneAny := Vector.replicate 25 false, mem := [], raced := [], unseen := [], digested := []
    taken := [], response := .none, draws := 0 }

/-- A state that differs from `s` in those fields alone is `s` with its own values there. -/
theorem eq_of_unstored {s t : State} (h : t.unstored = s.unstored) :
    t = { s with
      lanes := t.lanes, laneAny := t.laneAny, mem := t.mem, raced := t.raced, unseen := t.unseen
      digested := t.digested, taken := t.taken, response := t.response, draws := t.draws } :=
  congrArg (fun w : State => { w with
    lanes := t.lanes, laneAny := t.laneAny, mem := t.mem, raced := t.raced, unseen := t.unseen
    digested := t.digested, taken := t.taken, response := t.response, draws := t.draws }) h

section
variable {s u : State} {a : Nat} {b : Byte} {v : Bool} (h : StoreCase s a b v u)
include h

theorem StoreCase.unstored : u.unstored = s.unstored := by
  cases h with
  | landed => rfl
  | raced => rfl
  | reread =>
    obtain ⟨m, d, heq, _⟩ := rereadByte_eq (a - s.src.toNat) (s.race a)
    exact (congrArg State.unstored heq).trans rfl

/-- A race leaves any value, on record until the HASH ends (20_memory.md R84 H-2, H-4). -/
theorem StoreCase.of_race (hr : InBusySource s a ∨ InBusyDigest s a) : Memory.read u.mem a = none ∧ a ∈ u.raced := by
  have hforgot : Memory.read (s.race a).mem a = none := by
    rw [race_mem, read_forget, if_pos (by omega)]
  have hnoted : a ∈ (s.race a).raced := (mem_addAddr _ _ _).2 (.inl rfl)
  cases h with
  | landed hs hd => exact absurd hr (not_or.2 ⟨hs, hd⟩)
  | raced => exact ⟨hforgot, hnoted⟩
  | reread =>
    obtain ⟨m, d, heq, _⟩ := rereadByte_eq (a - s.src.toNat) (s.race a)
    have hraced : ((s.race a).rereadByte (a - s.src.toNat)).raced = (s.race a).raced := (congrArg State.raced heq :)
    refine ⟨?_, hraced ▸ hnoted⟩
    rw [read_rereadByte, List.contains_iff_mem.2 hnoted, if_pos rfl, hforgot, ite_self]

/-- A store that is not visible leaves any value (20_memory.md R84 H-1). -/
theorem StoreCase.of_unseen (hv : v = false) : Memory.read u.mem a = none := by
  subst hv
  by_cases hr : InBusySource s a ∨ InBusyDigest s a
  · exact (h.of_race hr).1
  · cases h with
    | landed => rw [landStore_mem, if_neg Bool.false_ne_true, read_forget, if_pos (by omega)]
    | raced hr' => exact absurd hr' hr
    | reread hs => exact absurd (.inl hs) hr

/-- A store changes no other byte, but for the digest bytes written where a source byte is reread. -/
theorem StoreCase.read_other {x : Nat} (hx : x ≠ a)
    (hw : ¬(InBusySource s a ∧ s.phase = .write ∧ s.dst.toNat ≤ x ∧ x < s.dst.toNat + s.widx)) :
    Memory.read u.mem x = Memory.read s.mem x := by
  have hrace : Memory.read (s.race a).mem x = Memory.read s.mem x := by
    rw [race_mem, read_forget, if_neg (by omega)]
  cases h with
  | landed =>
    rw [landStore_mem]
    split
    · exact read_write_other _ _ hx
    · exact hrace
  | raced => exact hrace
  | reread hs _ =>
    rw [read_rereadByte, if_neg, hrace]
    rintro ⟨hlo, hhi⟩
    unfold State.digestWritten at hhi
    split at hhi
    · exact hw ⟨hs, ‹_›, hlo, hhi⟩
    · exact absurd hhi (Nat.not_lt_of_le hlo)

end

/-! ### A store that lands, and one to a byte not yet absorbed -/

/-- The lanes and the bytes taken of `u` are those of `s`, and no free value is drawn. -/
def SameLanes (s u : State) : Prop :=
  u.lanes = s.lanes ∧ u.laneAny = s.laneAny ∧ u.taken = s.taken ∧ u.draws = s.draws

/-- A digest byte stored to is no digest byte from then on. -/
theorem unreadBy_landStore (s : State) (a : Nat) (b : Byte) (v : Bool) (g x : Nat) :
    UnreadBy (s.landStore a b v) g x ↔ UnreadBy s g x ∧ x ≠ a := by
  have hf := unreadBy_filter s.digested (· != a) g x
  rwa [unreadBy_iff, unreadBy_iff, bne_iff_ne] at hf

section
variable {s u : State} {a : Nat} {b : Byte} {v : Bool} (h : StoreCase s a b v u)
include h

theorem StoreCase.eq_landStore (hr : ¬(InBusySource s a ∨ InBusyDigest s a)) : u = s.landStore a b v := by
  cases h with
  | landed => rfl
  | raced hr' => exact absurd hr' hr
  | reread hs => exact absurd (.inl hs) hr

theorem StoreCase.of_no_race (hr : ¬(InBusySource s a ∨ InBusyDigest s a)) :
    SameLanes s u ∧ ∀ g x, UnreadBy u g x ↔ UnreadBy s g x ∧ x ≠ a := by
  rw [h.eq_landStore hr]
  exact ⟨⟨rfl, rfl, rfl, rfl⟩, unreadBy_landStore s a b v⟩

theorem StoreCase.read_of_visible (hr : ¬(InBusySource s a ∨ InBusyDigest s a)) (hv : v = true) :
    Memory.read u.mem a = some b := by
  rw [h.eq_landStore hr, landStore_mem, if_pos hv, read_write_same]

/-- Where the block has yet to absorb the byte, no lane changes. -/
theorem StoreCase.of_not_absorbed (hs : InBusySource s a) (hk : s.src.toNat + s.k ≤ a) : SameLanes s u := by
  cases h with
  | landed hs' => exact absurd hs hs'
  | raced => exact ⟨rfl, rfl, rfl, rfl⟩
  | reread _ hk' => exact absurd hk' (Nat.not_lt_of_le hk)

end

/-! ### A store to a byte the block has absorbed -/

theorem digestByte_eq (A : Lanes) (k : Nat) :
    digestByte A k = BitVec.ofNat 8 ((lane A (k / 8)).toNat / 2 ^ (8 * (k % 8))) := by
  rw [digestByte, byteOf, BitVec.extractLsb', Nat.shiftRight_eq_div_pow]

section
variable {s u : State} {a : Nat} {b : Byte} {v : Bool} (h : StoreCase s a b v u)
  (hs : InBusySource s a) (hk : a < s.src.toNat + s.k)
include h hs hk

theorem StoreCase.eq_rereadByte : u = (s.race a).rereadByte (a - s.src.toNat) := by
  cases h with
  | landed hs' => exact absurd hs hs'
  | raced _ hk' => exact absurd ⟨hs, hk⟩ hk'
  | reread => rfl

/-- The byte counts as taken with a free value, and the lanes are those of the bytes taken (20_memory.md R84 H-2). -/
theorem StoreCase.of_absorbed :
    u.taken = s.taken.set (a - s.src.toNat) (Config.freeByte s.draws) ∧ u.draws = s.draws + 1 ∧
      u.laneAny = Vector.replicate 25 false ∧ u.lanes = u.replayLanes := by
  obtain ⟨m, d, heq, hl⟩ := rereadByte_eq (a - s.src.toNat) (s.race a)
  rw [h.eq_rereadByte hs hk]
  exact ⟨(congrArg State.taken heq :), (congrArg State.draws heq :), (congrArg State.laneAny heq :), hl⟩

/-- Before its block is permuted, no lane changes but the one the byte entered. -/
theorem StoreCase.lane_of_absorbed (hinv : Inv s) (hp : s.phase = .absorb)
    (hblock : (a - s.src.toNat) / 136 = s.k / 136) {j : Nat} (hj : j ≠ (a - s.src.toNat) % 136 / 8) :
    lane u.lanes j = lane s.lanes j := by
  obtain rfl := h.eq_rereadByte hs hk
  obtain ⟨m, d, heq, hl⟩ := rereadByte_eq (a - s.src.toNat) (s.race a)
  have hset : ((s.race a).rereadByte (a - s.src.toNat)).replayLanes =
      State.replayLanes { s with taken := s.taken.set (a - s.src.toNat) (Config.freeByte s.draws) } :=
    (congrArg State.replayLanes heq).trans rfl
  obtain ⟨hb, ho, hlo, _⟩ := hs
  rw [hl, hset, lane_replayLanes_set _ (by rw [hp]; nofun) (by omega) hblock hj,
    ← hinv.replay.lanes_eq ((hashBusy_iff s).2 ⟨hb, ho⟩)]

/-- The digest bytes written are those of the new lanes, but for raced ones. -/
theorem StoreCase.read_digest_of_absorbed (hp : s.phase = .write) {x : Nat} (hx : x < s.widx)
    (hne : s.dst.toNat + x ≠ a) :
    Memory.read u.mem (s.dst.toNat + x) =
      if s.dst.toNat + x ∈ s.raced then none
      else some (BitVec.ofNat 8 ((lane u.lanes (x / 8)).toNat / 2 ^ (8 * (x % 8)))) := by
  have hw : (s.race a).digestWritten = s.widx := if_pos hp
  have hr : (s.race a).raced.contains (s.dst.toNat + x) = true ↔ s.dst.toNat + x ∈ s.raced := by
    rw [List.contains_iff_mem, race_raced, mem_addAddr, or_iff_right hne]
  rw [h.eq_rereadByte hs hk, read_rereadByte, hw, race_dst, if_pos (by omega), Nat.add_sub_cancel_left, digestByte_eq]
  simp only [hr]

end

/-- Noting a store's visibility and answering it changes no byte taken. -/
theorem replayLanes_answered (a : Nat) (v : Bool) (u : State) :
    ((u.noteVisible a v).respond .writeDone).replayLanes = u.replayLanes :=
  replayLanes_of_eq rfl rfl rfl rfl rfl rfl

/-! ### What the block reads and writes at such a byte -/

theorem dmaByte_of_raced {s : State} {a : Nat} (h : a ∈ s.raced) : s.dmaByte a = none := by
  rw [State.dmaByte, if_pos (List.contains_iff_mem.2 h)]

theorem dmaByte_of_unseen {s : State} {a : Nat} (h : a ∈ s.unseen) (hm : Memory.read s.mem a = none) :
    s.dmaByte a = none := by
  unfold State.dmaByte
  split
  · rfl
  · split
    · rw [if_pos (List.contains_iff_mem.2 h)]
    · exact hm

theorem read_dmaStore_of_raced {s : State} {a : Nat} (h : a ∈ s.raced) (b : Byte) :
    Memory.read (s.dmaStore a b).mem a = none := by
  rw [dmaStore_mem, if_pos (List.contains_iff_mem.2 h), read_forget, if_pos (by omega)]

/-! ### What a load gets -/

theorem agentByte_eq_read {s : State} {a : Nat} (hd : ¬InBusyDigest s a) (hu : ¬UnreadBy s s.agent a) :
    s.agentByte a = Memory.read s.mem a := by
  rw [State.agentByte, if_neg]
  rw [Bool.or_eq_true, inBusyDigest_iff, unreadBy_iff]
  exact not_or.2 ⟨hd, hu⟩

theorem agentByte_eq_none {s : State} {a : Nat}
    (h : InBusyDigest s a ∨ UnreadBy s s.agent a ∨ Memory.read s.mem a = none) : s.agentByte a = none := by
  by_cases hr : InBusyDigest s a ∨ UnreadBy s s.agent a
  · rw [State.agentByte, if_pos]
    rwa [Bool.or_eq_true, inBusyDigest_iff, unreadBy_iff]
  · obtain ⟨hd, hu⟩ := not_or.1 hr
    rw [agentByte_eq_read hd hu]
    exact (h.resolve_left hd).resolve_left hu

theorem agentLoad_of_some {s : State} {a : Word} {b : Byte} (h : ¬InWindow s a.toNat)
    (hb : s.agentByte a.toNat = some b) : agentLoad a s = s.respond (.readData (b.setWidth 64)) := by
  rw [agentLoad, inWindow_eq_false h, if_neg Bool.false_ne_true, hb]

theorem agentLoad_of_none {s : State} {a : Word} (h : ¬InWindow s a.toNat) (hb : s.agentByte a.toNat = none) :
    agentLoad a s = (s.respond (.readData ((Config.freeByte s.draws).setWidth 64))).drawIf true := by
  rw [agentLoad, inWindow_eq_false h, if_neg Bool.false_ne_true, hb]

theorem agentLoad_inWindow {s : State} {a : Word} (h : InWindow s a.toNat) : agentLoad a s = s.respond .busError := by
  rw [agentLoad, if_pos ((inWindow_iff s _).2 h)]

/-! ### The statement -/

/-- Settles O49: each clause about a store is the lemma on the case the clause is about; its visibility is noted and it is
answered after that, which touches neither memory nor the lanes. -/
theorem racesGiveAnyValue : Obligations.RacesGiveAnyValue := by
  intro s a es
  refine ⟨fun b v hi => ⟨fun hw => ?_, fun hw => ?_⟩,
    fun hi => ⟨fun hw => ?_, fun hw => ⟨fun hn => ?_, fun hd hu b hb => ?_⟩⟩, fun g hi => ?_⟩
  · rw [step_input hi, runEvent, agentStore_inWindow (s := s.withInputs es) hw]
    rfl
  · obtain ⟨u, hu, heq⟩ := agentStore_case (s := s.withInputs es) hw b v
    refine ⟨(u.noteVisible a.toNat v).respond .writeDone, by rw [step_input hi, runEvent, heq],
      eq_of_unstored (s := s.withInputs es) hu.unstored, fun hv => ?_, fun hb ho hlo hhi => ?_,
      fun hb ho hlo hhi => ?_, fun hv hr => ?_, fun x hx hn => ?_⟩
    · have hm := hu.of_unseen hv
      have hn : a.toNat ∈ (u.noteVisible a.toNat v).unseen := by
        rw [noteVisible_unseen, hv]
        exact (mem_addAddr _ _ _).2 (.inl rfl)
      exact ⟨hm, dmaByte_of_unseen hn hm⟩
    · have hs : InBusySource (s.withInputs es) a.toNat := ⟨hb, ho, hlo, hhi⟩
      obtain ⟨hm, hr⟩ := hu.of_race (.inl hs)
      refine ⟨hm, dmaByte_of_raced hr, fun hk => hu.of_not_absorbed hs hk, fun hk => ?_⟩
      obtain ⟨htaken, hdraws, hany, hlanes⟩ := hu.of_absorbed hs hk
      exact ⟨htaken, hdraws, hany, hlanes.trans (replayLanes_answered _ _ _).symm,
        fun hinv hp hblock j hj => hu.lane_of_absorbed hs hk (hinv.withInputs es) hp hblock hj,
        fun hp x hx hne => hu.read_digest_of_absorbed hs hk hp hx hne⟩
    · obtain ⟨hm, hr⟩ := hu.of_race (.inr ⟨hb, ho, hlo, hhi⟩)
      exact ⟨hm, read_dmaStore_of_raced (s := (u.noteVisible a.toNat v).respond .writeDone) hr⟩
    · have hno : ¬(InBusySource (s.withInputs es) a.toNat ∨ InBusyDigest (s.withInputs es) a.toNat) := by
        rintro (⟨hb, ho, h⟩ | ⟨hb, ho, h⟩)
        · exact hr ⟨hb, ho, .inl h⟩
        · exact hr ⟨hb, ho, .inr h⟩
      obtain ⟨⟨hlanes, hany, htaken, hdraws⟩, hunread⟩ := hu.of_no_race hno
      exact ⟨hlanes, hany, htaken, hdraws, hu.read_of_visible hno hv, hunread⟩
    · exact hu.read_other hx fun ⟨⟨hb, ho, hlo, hhi⟩, hp, hd⟩ => hn ⟨hb, ho, hp, hlo, hhi, hd⟩
  · rw [step_input hi, runEvent, agentLoad_inWindow (s := s.withInputs es) hw]
    rfl
  · rw [step_input hi, runEvent, agentLoad_of_none (s := s.withInputs es) hw (agentByte_eq_none hn)]
    rfl
  · have hread := agentByte_eq_read (s := s.withInputs es) hd hu
    rw [step_input hi, runEvent, agentLoad_of_some (s := s.withInputs es) hw (hread.trans hb)]
    rfl
  · rw [step_input hi]
    rfl

end Sys2Proof.Machine
end

section
/-! PROOFS. The decoder and the encoder against each other: the fields of a command word as numbers, the opcode map, what the
command decoder accepts said once (`decodeCommand_eq_ok_iff`), and the register accesses (30_encoding.md R100 to R107). -/

namespace Sys2Proof

/-! ### The fields of a command word -/

theorem cmdOp_toNat (w : Word) : (cmdOp w).toNat = w.toNat % 256 := by
  simp [cmdOp, BitVec.extractLsb'_toNat]

theorem cmdArg_eq (w : Word) : cmdArg w = w.toNat / 256 % 32 := by
  simp [cmdArg, BitVec.extractLsb'_toNat, Nat.shiftRight_eq_div_pow]

theorem cmdRsv_eq_zero_iff (w : Word) : cmdRsv w = 0 ↔ w.toNat / 2 ^ 13 = 0 := by
  have hlt : w.toNat / 2 ^ 13 < 2 ^ 51 := by omega
  rw [← BitVec.toNat_inj, cmdRsv, BitVec.extractLsb'_toNat, Nat.shiftRight_eq_div_pow, Nat.mod_eq_of_lt hlt]
  rfl

/-! ### The opcode map -/

@[simp] theorem opOfCode_code (op : Op) : opOfCode op.code = some op := by cases op <;> rfl

/-- `opOfCode` reads the opcode map backwards, and no code stands for two opcodes (R102). -/
theorem opOfCode_eq_some_iff {c : BitVec 8} {op : Op} : opOfCode c = some op ↔ c = op.code := by
  refine ⟨fun h => ?_, fun h => h ▸ opOfCode_code op⟩
  unfold opOfCode at h
  split at h
  case h_11 => cases h
  all_goals
    injection h with h
    subst h
    exact BitVec.eq_of_toNat_eq ‹_›

/-- The codes of R102 are the codes of the ten opcodes. -/
theorem mem_opcodes_iff (n : Nat) :
    n ∈ [0x00, 0x01, 0x02, 0x03, 0x04, 0x10, 0x11, 0x12, 0x13, 0x14] ↔ ∃ op : Op, n = op.code.toNat := by
  constructor
  · intro h
    simp only [List.mem_cons, List.not_mem_nil, or_false] at h
    rcases h with rfl | rfl | rfl | rfl | rfl | rfl | rfl | rfl | rfl | rfl
    exacts [⟨.nop, rfl⟩, ⟨.clear, rfl⟩, ⟨.permute, rfl⟩, ⟨.round, rfl⟩, ⟨.hash, rfl⟩, ⟨.theta, rfl⟩, ⟨.rho, rfl⟩,
      ⟨.pi, rfl⟩, ⟨.chi, rfl⟩, ⟨.iota, rfl⟩]
  · rintro ⟨op, rfl⟩
    cases op <;> decide

theorem Op.takesArg_iff_code (op : Op) : op.takesArg = true ↔ op.code.toNat = 0x03 ∨ op.code.toNat = 0x14 := by
  cases op <;> decide

/-! ### The argument -/

/-- The arguments an opcode is decoded with: a round index for ROUND and IOTA, 0 for every other (R101, R103). -/
def Op.ArgLegal (op : Op) (r : Nat) : Prop := if op.takesArg = true then r ≤ 23 else r = 0

theorem Op.argLegal_iff (op : Op) (r : Nat) :
    op.ArgLegal r ↔ if op = .round ∨ op = .iota then r ≤ 23 else r = 0 := by
  cases op <;> rfl

theorem Op.argLegal_of_takesArg {op : Op} (h : op.takesArg = true) (r : Nat) : op.ArgLegal r ↔ r ≤ 23 := by
  rw [ArgLegal, if_pos h]

theorem Op.argLegal_of_not_takesArg {op : Op} (h : op.takesArg = false) (r : Nat) : op.ArgLegal r ↔ r = 0 := by
  simp [ArgLegal, h]

theorem Op.ArgLegal.le {op : Op} {r : Nat} (h : op.ArgLegal r) : r ≤ 23 := by
  cases ht : op.takesArg with
  | true => exact (argLegal_of_takesArg ht r).1 h
  | false => exact ((argLegal_of_not_takesArg ht r).1 h).le.trans (Nat.zero_le 23)

/-- R104 (c) and (d): the argument of an opcode is refused. -/
theorem Op.not_argLegal_iff (op : Op) (r : Nat) :
    ¬op.ArgLegal r ↔
      (r ≠ 0 ∧ op.code.toNat ≠ 0x03 ∧ op.code.toNat ≠ 0x14) ∨
      ((op.code.toNat = 0x03 ∨ op.code.toNat = 0x14) ∧ 24 ≤ r) := by
  have hcode := op.takesArg_iff_code
  cases ht : op.takesArg with
  | true =>
    have hc := hcode.1 ht
    rw [argLegal_of_takesArg ht]
    omega
  | false =>
    have hc : ¬(op.code.toNat = 0x03 ∨ op.code.toNat = 0x14) := fun h => by simp [hcode.2 h] at ht
    rw [argLegal_of_not_takesArg ht]
    omega

/-! ### The command decoder -/

/-- The fields of `w` are those of a command word of `op` (R100 to R103). -/
structure IsCommand (op : Op) (w : Word) : Prop where
  rsv : cmdRsv w = 0
  code : cmdOp w = op.code
  arg : op.ArgLegal (cmdArg w)

/-- The fields as numbers. -/
theorem isCommand_iff {op : Op} {w : Word} :
    IsCommand op w ↔
      w.toNat / 2 ^ 13 = 0 ∧ w.toNat % 256 = op.code.toNat ∧ op.ArgLegal (w.toNat / 256 % 32) := by
  rw [← cmdRsv_eq_zero_iff, ← cmdOp_toNat, BitVec.toNat_inj, ← cmdArg_eq]
  exact ⟨fun ⟨hv, ho, ha⟩ => ⟨hv, ho, ha⟩, fun ⟨hv, ho, ha⟩ => ⟨hv, ho, ha⟩⟩

theorem decodeCommand_of_isCommand {w : Word} {op : Op} (h : IsCommand op w) : decodeCommand w = .ok (op, cmdArg w) := by
  obtain ⟨hv, ho, ha⟩ := h
  rw [decodeCommand, if_neg (not_not.2 hv), ho, opOfCode_code]
  cases ht : op.takesArg with
  | true => simp [ht, (op.argLegal_of_takesArg ht _).1 ha]
  | false => simp [ht, (op.argLegal_of_not_takesArg ht _).1 ha]

/-- The decoder refuses every word that is no command word (R104). -/
theorem decodeCommand_of_not_isCommand {w : Word} (h : ¬∃ op, IsCommand op w) : ∃ e, decodeCommand w = .error e := by
  by_cases hv : cmdRsv w = 0
  case neg => exact ⟨_, if_pos hv⟩
  rw [decodeCommand, if_neg (not_not.2 hv)]
  cases ho : opOfCode (cmdOp w) with
  | none => exact ⟨_, rfl⟩
  | some op =>
    have ha : ¬op.ArgLegal (cmdArg w) := fun ha => h ⟨op, hv, opOfCode_eq_some_iff.1 ho, ha⟩
    cases ht : op.takesArg with
    | true => simp [ht, mt (op.argLegal_of_takesArg ht _).2 ha]
    | false => simp [ht, mt (op.argLegal_of_not_takesArg ht _).2 ha]

theorem decodeCommand_eq_ok_iff {w : Word} {op : Op} {r : Nat} :
    decodeCommand w = .ok (op, r) ↔ IsCommand op w ∧ cmdArg w = r := by
  refine ⟨fun h => ?_, fun ⟨hc, hr⟩ => hr ▸ decodeCommand_of_isCommand hc⟩
  by_cases hc : ∃ op', IsCommand op' w
  · obtain ⟨op', hc⟩ := hc
    cases (decodeCommand_of_isCommand hc).symm.trans h
    exact ⟨hc, rfl⟩
  · obtain ⟨e, he⟩ := decodeCommand_of_not_isCommand hc
    cases he.symm.trans h

theorem decodeCommand_error_iff {w : Word} : (∃ e, decodeCommand w = .error e) ↔ ¬∃ op, IsCommand op w := by
  refine ⟨fun ⟨e, he⟩ ⟨op, hc⟩ => ?_, decodeCommand_of_not_isCommand⟩
  cases he.symm.trans (decodeCommand_of_isCommand hc)

/-- A word is no command word by one of the causes of R104. -/
theorem not_isCommand_iff (w : Word) :
    (¬∃ op, IsCommand op w) ↔
      (w.toNat / 2 ^ 13 ≠ 0 ∨
       w.toNat % 256 ∉ [0x00, 0x01, 0x02, 0x03, 0x04, 0x10, 0x11, 0x12, 0x13, 0x14] ∨
       (w.toNat / 256 % 32 ≠ 0 ∧ w.toNat % 256 ≠ 0x03 ∧ w.toNat % 256 ≠ 0x14) ∨
       ((w.toNat % 256 = 0x03 ∨ w.toNat % 256 = 0x14) ∧ 24 ≤ w.toNat / 256 % 32)) := by
  rw [mem_opcodes_iff]
  constructor
  · intro hw
    by_cases hv : w.toNat / 2 ^ 13 = 0
    case neg => exact .inl hv
    by_cases ho : ∃ op : Op, w.toNat % 256 = op.code.toNat
    case neg => exact .inr (.inl ho)
    obtain ⟨op, ho⟩ := ho
    rw [ho]
    exact .inr (.inr ((op.not_argLegal_iff _).1 fun ha => hw ⟨op, isCommand_iff.2 ⟨hv, ho, ha⟩⟩))
  · rintro h ⟨op, hc⟩
    obtain ⟨hv, ho, ha⟩ := isCommand_iff.1 hc
    rw [ho] at h
    rcases h with h | h | h
    · exact h hv
    · exact h ⟨op, rfl⟩
    · exact (op.not_argLegal_iff _).2 h ha

/-! ### The command words -/

theorem Op.code_lt (op : Op) : op.code.toNat < 256 := op.code.isLt

theorem commandWord_toNat (op : Op) {r : Nat} (hr : r ≤ 23) : (commandWord op r).toNat = op.code.toNat + r * 256 := by
  have hc := op.code_lt
  rw [commandWord, BitVec.toNat_ofNat, Nat.mod_eq_of_lt (by omega)]

/-- A command word is the sum of its fields: OP, 256 times ARG, and no RSV. -/
theorem isCommand_and_arg_iff {w : Word} {op : Op} {r : Nat} :
    IsCommand op w ∧ cmdArg w = r ↔ w = commandWord op r ∧ op.ArgLegal r := by
  have hc := op.code_lt
  rw [isCommand_iff, cmdArg_eq]
  constructor
  · rintro ⟨⟨hv, ho, ha⟩, rfl⟩
    refine ⟨BitVec.eq_of_toNat_eq ?_, ha⟩
    rw [commandWord_toNat op ha.le]
    omega
  · rintro ⟨rfl, ha⟩
    have hr := ha.le
    have harg : (op.code.toNat + r * 256) / 256 % 32 = r := by omega
    rw [commandWord_toNat op hr, harg]
    exact ⟨⟨by omega, by omega, ha⟩, rfl⟩

/-- Settles O4: the decoder accepts the words with the fields of a command, and these are the command words. -/
theorem commandWordsDecodeExactly : Obligations.CommandWordsDecodeExactly := fun _ op r => by
  rw [decodeCommand_eq_ok_iff, isCommand_and_arg_iff, op.argLegal_iff r]

theorem decodeCommand_commandWord {op : Op} {r : Nat} (h : op.ArgLegal r) :
    decodeCommand (commandWord op r) = .ok (op, r) :=
  decodeCommand_eq_ok_iff.2 (isCommand_and_arg_iff.2 ⟨rfl, h⟩)

/-! ### The register accesses -/

theorem accessInstr_readLane {i : Nat} (h : i ≤ 24) (v : Word) : accessInstr .read i v = .rdLane i := if_pos h
theorem accessInstr_writeLane {i : Nat} (h : i ≤ 24) (v : Word) : accessInstr .write i v = .wrLane i v := if_pos h

theorem reservedSlot_iff (slot : Nat) :
    reservedSlot slot = true ↔ 25 ≤ slot ∧ slot ≤ 31 ∨ 41 ≤ slot ∧ slot ≤ 511 := by
  simp [reservedSlot]

theorem lt_of_reservedSlot {slot : Nat} (h : reservedSlot slot = true) : slot < 512 := by
  rw [reservedSlot_iff] at h
  omega

/-- A reserved slot is that of no lane and of no register (R107). -/
theorem accessInstr_reserved {slot : Nat} (h : reservedSlot slot = true) (d : Dir) (v : Word) :
    accessInstr d slot v = .rdWrReserved d slot (if d = .write then v else 0) := by
  rw [reservedSlot_iff] at h
  unfold accessInstr
  rw [if_neg (by omega)]
  split
  case h_19 | h_20 => rfl
  all_goals omega

theorem decodeAccess_aligned {a : Access} (ho : a.offset.toNat % 8 = 0) (hw : a.width = 64) :
    decodeAccess a = .ok (accessInstr a.dir (a.offset.toNat / 8) a.value) := by
  rw [decodeAccess, if_neg (not_not.2 ho), if_neg (not_not.2 hw)]

/-- Settles O6: an aligned access is that of its slot, and the clauses name the slot of each register. -/
theorem offsetsSelectRegisters : Obligations.OffsetsSelectRegisters := by
  rintro ⟨d, width, offset, v⟩ o rfl
  refine ⟨Machine.decodeAccess_wrong, fun ho hw => ?_⟩
  rw [decodeAccess_aligned ho hw]
  dsimp only at ho ⊢
  have hres : 0x0C8 ≤ offset.toNat ∧ offset.toNat ≤ 0x0F8 ∨ 0x148 ≤ offset.toNat →
      reservedSlot (offset.toNat / 8) = true := fun h => by
    have hlt : offset.toNat < 2 ^ 12 := offset.isLt
    exact (reservedSlot_iff _).2 (by omega)
  refine ⟨?_, ?_, ?_, ?_, ?_, ?_, ?_, ?_, ?_, ?_, ?_, ?_, ?_⟩
  · rintro hl rfl
    rw [accessInstr_writeLane (by omega)]
  · rintro hl rfl
    rw [accessInstr_readLane (by omega)]
  · rintro hr rfl
    rw [accessInstr_reserved (hres hr), if_pos rfl]
  · rintro hr rfl
    rw [accessInstr_reserved (hres hr), if_neg (by decide)]
  all_goals
    intro h
    rw [h]
    cases d <;> rfl

/-! ### The bytes of an instruction -/

theorem ofNat_leNat_leBytes (w : Word) : BitVec.ofNat 64 (leNat (leBytes 8 w.toNat)) = w := by
  rw [leNat_leBytes, Nat.mod_eq_of_lt (show w.toNat < 256 ^ 8 from w.isLt), BitVec.ofNat_toNat, BitVec.setWidth_eq]

theorem decode_commandBytes {op : Op} {r : Nat} (h : op.ArgLegal r) :
    decode (commandBytes op r) = .ok (commandInstr op r) := by
  rw [decode, if_pos (commandBytes_length op r), commandBytes, ofNat_leNat_leBytes, decodeCommand_commandWord h]

theorem accessKey_lt (d : Dir) {slot : Nat} (h : slot < 512) : accessKey d slot < 0x2000 := by
  cases d <;> simp only [accessKey] <;> omega

/-- A key is read back as its direction and its offset. -/
theorem keyAccess_accessKey (d : Dir) {slot : Nat} (h : slot < 512) (v : Word) :
    keyAccess (accessKey d slot) v = ⟨d, 64, BitVec.ofNat 12 (8 * slot), v⟩ := by
  cases d with
  | read =>
    have hd : ¬8 * slot / 0x1000 % 2 = 1 := by omega
    simp only [keyAccess, accessKey, hd, if_false]
  | write =>
    have hd : (0x1000 + 8 * slot) / 0x1000 % 2 = 1 := by omega
    have ho : BitVec.ofNat 12 (0x1000 + 8 * slot) = BitVec.ofNat 12 (8 * slot) :=
      BitVec.eq_of_toNat_eq (by simp only [BitVec.toNat_ofNat]; omega)
    simp only [keyAccess, accessKey, hd, if_true, ho]

theorem decode_accessBytes (d : Dir) {slot : Nat} (h : slot < 512) (v : Word) :
    decode (accessBytes d slot v) = .ok (accessInstr d slot v) := by
  have hk := accessKey_lt d h
  have hkey : leNat (leBytes 2 (accessKey d slot)) = accessKey d slot := by
    rw [leNat_leBytes]
    omega
  have hoff : (BitVec.ofNat 12 (8 * slot)).toNat = 8 * slot := by
    rw [BitVec.toNat_ofNat]
    omega
  have ha : decodeAccess ⟨d, 64, BitVec.ofNat 12 (8 * slot), v⟩ = .ok (accessInstr d slot v) := by
    rw [decodeAccess_aligned (by rw [hoff]; omega) rfl, hoff, Nat.mul_div_cancel_left slot (by decide)]
  rw [decode, accessBytes_length, if_neg (by decide), if_pos rfl, accessBytes_take, accessBytes_drop, hkey, if_pos hk,
    ofNat_leNat_leBytes, keyAccess_accessKey d h, ha]

/-- Settles O3: a command is its word's bytes, a register access its key's and its data's. -/
theorem decodeOfEncodeIsTheInstruction : Obligations.DecodeOfEncodeIsTheInstruction := by
  intro i hi
  cases i with
  | nop | clear | permute | hash | theta | rho | pi | chi => exact decode_commandBytes rfl
  | round r | iota r => exact decode_commandBytes (show r ≤ 23 from of_decide_eq_true hi)
  | wrLane i v =>
    have hl : i ≤ 24 := of_decide_eq_true hi
    rw [encode, decode_accessBytes _ (by omega), accessInstr_writeLane hl]
  | rdLane i =>
    have hl : i ≤ 24 := of_decide_eq_true hi
    rw [encode, decode_accessBytes _ (by omega), accessInstr_readLane hl]
  | rdWrReserved d slot v =>
    cases d with
    | write => rw [encode, decode_accessBytes _ (lt_of_reservedSlot hi), accessInstr_reserved hi, if_pos rfl]
    | read =>
      simp only [Instr.wellFormed, Bool.and_eq_true, beq_iff_eq] at hi
      obtain ⟨hr, rfl⟩ := hi
      rw [encode, decode_accessBytes _ (lt_of_reservedSlot hr), accessInstr_reserved hr, if_neg (by decide)]
  | _ => exact decode_accessBytes _ (by decide) _

/-- Settles O2: each word is decoded by evaluation, the accesses with the data 0 above their key. -/
theorem writtenOutWordsDecode : Obligations.WrittenOutWordsDecode :=
  ⟨rfl, rfl, rfl, rfl, rfl, rfl, rfl, rfl⟩

end Sys2Proof
end

section
/-! PROOFS. What the write of an illegal command word does while idle (42_host_interface.md R234; 60_exceptions.md R272). -/

namespace Sys2Proof.Machine

open Sys2Proof.Spec

/-- A rejected write is the rejection of the statements (60_exceptions.md R272): the error is no DMA error. -/
theorem reject_eq_rejected (s : State) {c : ErrCode} (h : c.isDma = false) : s.reject c = rejected c.code s := by
  simp [State.reject, State.recordError, State.respond, rejected, h]

theorem issue_of_idle {s : State} (hb : s.busy = false) (start : State → Result) : issue start s = start s.clearDone :=
  if_neg (Bool.eq_false_iff.1 hb)

theorem execWrCmd_of_error {w : Word} {e : Reject} (h : decodeCommand w = .error e) (s : State) :
    execWrCmd w s = issue startIllegal s := by
  rw [execWrCmd, h]

/-- Settles O5: a word is refused when it is no command word, and the refusal of its write is that of an error while idle. -/
theorem illegalWordsByCause : Obligations.IllegalWordsByCause := by
  refine fun w => ⟨decodeCommand_error_iff.trans (not_isCommand_iff w), fun ⟨e, he⟩ s hb => ?_⟩
  calc exec (.wrCmd w) s = issue startIllegal s := execWrCmd_of_error he s
    _ = startIllegal s.clearDone := issue_of_idle hb _
    _ = .next (rejected 0x01 s.clearDone) := congrArg _ (reject_eq_rejected s.clearDone (c := .illegalCmd) rfl)

end Sys2Proof.Machine
end

section
/-! PROOFS. The step mappings against the coordinates and generators of the spec (40_permutation.md R131 to R139). -/

namespace Sys2Proof.Machine

open Sys2Proof.Spec

theorem at2_lanesOf (f : Nat → Word) {x y : Nat} (hx : x ≤ 4) (hy : y ≤ 4) : at2 (lanesOf f) x y = f (x + 5 * y) := by
  rw [at2, lane_lanesOf, if_pos (by omega)]

/-- The rotation of 00_scope.md R12 is the library's. -/
theorem rotl64_eq_rotateLeft (v : Word) (n : Nat) : rotl64 v n = v.rotateLeft n := by
  rw [rotl64, BitVec.rotateLeft_def]
  by_cases h0 : n % 64 = 0
  · rw [h0, BitVec.ushiftRight_eq_zero (Nat.le_refl 64)]
    simp
  · rw [Nat.mod_eq_of_lt (by omega : 64 - n % 64 < 64)]

theorem columnParity_eq_parity (A : Lanes) (x : Nat) : columnParity A x = parity A x := rfl

/-- Settles O9: theta's columns x - 1 and x + 1 are those of the lane's own x. -/
theorem thetaAddsTwoColumnParities : Obligations.ThetaAddsTwoColumnParities := by
  intro A x y hx hy
  have hmod : (x + 5 * y) % 5 = x := by omega
  rw [theta, at2_lanesOf _ hx hy, hmod, rotl64_eq_rotateLeft, columnParity_eq_parity, columnParity_eq_parity]
  rfl

/-- Settles O10: the rotation is the library's, and lane 0 has the offset 0. -/
theorem rhoRotatesEachLane : Obligations.RhoRotatesEachLane := by
  have hrho (A : Lanes) {i : Nat} (hi : i ≤ 24) : lane (rho A) i = (lane A i).rotateLeft (rhoOffset i) := by
    rw [rho, lane_lanesOf, if_pos (by omega), rotl64_eq_rotateLeft]
  refine fun A i hi => ⟨hrho A hi, ?_⟩
  rw [hrho A (Nat.zero_le 24), show rhoOffset 0 = 0 from rfl, ← rotl64_eq_rotateLeft]
  simp [rotl64]

theorem at2_pi (A : Lanes) {x y : Nat} (hx : x ≤ 4) (hy : y ≤ 4) : at2 (pi A) x y = at2 A ((x + 3 * y) % 5) x := by
  have hmod : (x + 5 * y) % 5 = x := by omega
  have hdiv : (x + 5 * y) / 5 = y := by omega
  rw [pi, at2_lanesOf _ hx hy, piSource, hmod, hdiv, at2]

/-- Settles O11: PI_SRC undoes the forward map, y + 3 (2x + 3y) being x modulo 5. -/
theorem piRelocatesLanes : Obligations.PiRelocatesLanes := by
  intro A x y hx hy
  have hback : (y + 3 * ((2 * x + 3 * y) % 5)) % 5 = x := by omega
  exact ⟨by rw [at2_pi A hy (by omega), hback], at2_pi A hx hy⟩

/-- Settles O12: chi's two neighbours are in the row of the lane's own y. -/
theorem chiCombinesARow : Obligations.ChiCombinesARow := by
  intro A x y hx hy
  have hmod : (x + 5 * y) % 5 = x := by omega
  have hdiv : (x + 5 * y) / 5 = y := by omega
  rw [chi, at2_lanesOf _ hx hy, hmod, hdiv]
  rfl

/-- The table of R131 holds the constants of the generator. -/
theorem roundConstant_eq_rcOf {r : Nat} (hr : r ≤ 23) : roundConstant r = BitVec.ofNat 64 (rcOf r) := by
  have htable : ∀ r < 24, roundConstant r = BitVec.ofNat 64 (rcOf r) := by decide
  exact htable r (by omega)

theorem lane_iota_zero (A : Lanes) (r : Nat) : lane (iota A r) 0 = lane A 0 ^^^ roundConstant r := by
  rw [iota, lane_putLane, if_pos (by decide)]

theorem lane_iota_of_pos (A : Lanes) (r : Nat) {i : Nat} (hi : 1 ≤ i) : lane (iota A r) i = lane A i := by
  rw [iota, lane_putLane, if_neg (by omega)]

/-- Settles O13: iota writes lane 0 alone, and the table's constant is the generator's. -/
theorem iotaAddsTheRoundConstant : Obligations.IotaAddsTheRoundConstant := by
  intro A r hr
  exact ⟨by rw [lane_iota_zero, roundConstant_eq_rcOf hr], fun i => lane_iota_of_pos A r⟩

/-- Settles O14: the walk is run for its 24 times. -/
theorem rhoOffsetsAreTheWalk : Obligations.RhoOffsetsAreTheWalk := by
  have hwalk : ∀ t < 24, rhoOffset ((rhoCell t).1 + 5 * (rhoCell t).2) = (t + 1) * (t + 2) / 2 % 64 := by decide
  exact ⟨rfl, fun t ht => hwalk t (by omega)⟩

end Sys2Proof.Machine
end

section
/-! PROOFS. The commands of the STEP phase and PERMUTE, from their acceptance to their completion, and runs of them
(40_permutation.md R140 to R148; 42_host_interface.md R234, R248). -/

namespace Sys2Proof.Machine

open Sys2Proof.Spec

/-! ### The lanes as the next step sees them -/

theorem laneValue_eq_seen (s : State) (i : Nat) : s.laneValue i = seen s s.draws i := by
  simp only [State.laneValue, seen, laneIsAny_iff]

theorem laneValues_eq_seenLanes (s : State) : s.laneValues = seenLanes s :=
  congrArg lanesOf (funext (laneValue_eq_seen s))

/-- Some lane is marked just when the marks are not those of known lanes. -/
theorem someLaneAny_iff (s : State) : s.someLaneAny = true ↔ ¬LanesKnown s := by
  refine ⟨fun h hk => by simp [someLaneAny_of_known hk] at h, fun h => ?_⟩
  by_contra hno
  refine h (Vector.ext fun i hi => ?_)
  simp only [State.someLaneAny, List.any_eq_true, not_exists, not_and] at hno
  simpa using hno s.laneAny[i] (by simp)

theorem lanesDrawn_of_known {s : State} (h : LanesKnown s) : lanesDrawn s = 0 := if_pos h

theorem someLaneAny_toNat (s : State) : s.someLaneAny.toNat = lanesDrawn s := by
  by_cases h : LanesKnown s
  · rw [someLaneAny_of_known h, lanesDrawn_of_known h, Bool.toNat_false]
  · rw [(someLaneAny_iff s).2 h, Bool.toNat_true]
    exact (if_neg h).symm

theorem seenLanes_of_known {s : State} (h : LanesKnown s) : seenLanes s = s.lanes := by
  rw [← laneValues_eq_seenLanes, laneValues_of_known h]

theorem mapLanes_eq (f : Lanes → Lanes) (s : State) :
    s.mapLanes f = { s with
      lanes := f (seenLanes s), laneAny := Vector.replicate 25 false, draws := s.draws + lanesDrawn s } := by
  rw [State.mapLanes, laneValues_eq_seenLanes, State.drawIf, someLaneAny_toNat]
  rfl

/-! ### A STEP command -/

/-- What a STEP command makes of known lanes, with its argument where it has one (40_permutation.md R140 to R146). -/
def stageMap : Op → Nat → Lanes → Lanes
  | .clear, _, _ => zeroLanes
  | .theta, _, A => theta A
  | .rho, _, A => rho A
  | .pi, _, A => pi A
  | .chi, _, A => chi A
  | .iota, r, A => iota A r
  | .round, r, A => keccakRound A r
  | .nop, _, A => A
  | .permute, _, A => A
  | .hash, _, A => A

/-- ARG after the acceptance of a STEP command. -/
def argAfter (op : Op) (r : Nat) (s : State) : Nat := if op.takesArg then r else s.arg

theorem stageMap_argAfter (op : Op) (r : Nat) (s : State) : stageMap op (argAfter op r s) = stageMap op r := by
  cases op <;> rfl

theorem exec_stage_eq_issue {op : Op} {r : Nat} (hc : StepCommand op r) (s : State) :
    exec (commandInstr op r) s = issue (startStep op r) s := by
  obtain ⟨hop, hr⟩ := hc
  cases op with
  | clear | theta | rho | pi | chi => rfl
  | iota => exact congrArg (issue · s) (if_pos (hr (.inl rfl)))
  | round => exact congrArg (issue · s) (if_pos (hr (.inr rfl)))
  | nop | permute | hash => simp at hop

theorem exec_stage_of_idle {s : State} (hb : s.busy = false) {op : Op} {r : Nat} (hc : StepCommand op r) :
    exec (commandInstr op r) s = .next (stepAccepted op (argAfter op r s) s) := by
  rw [exec_stage_eq_issue hc, issue_of_idle hb]
  rfl

/-- The state once a STEP command with the step mapping f has completed, whatever the lanes held (log 4). -/
def stageCompleted (op : Op) (r : Nat) (f : Lanes → Lanes) (s : State) : State :=
  { stepCompleted op r (f (seenLanes s)) s with
    laneAny := Vector.replicate 25 false, draws := s.draws + lanesDrawn s }

theorem mapLanes_complete (op : Op) (r : Nat) (f : Lanes → Lanes) (s : State) :
    ((stepAccepted op r s).mapLanes f).complete = stageCompleted op r f s := by
  rw [mapLanes_eq]
  rfl

theorem stageCompleted_of_known {s : State} (h : LanesKnown s) (op : Op) (r : Nat) (f : Lanes → Lanes) :
    stageCompleted op r f s = stepCompleted op r (f s.lanes) s := by
  rw [stageCompleted, seenLanes_of_known h, lanesDrawn_of_known h, ← h]
  rfl

/-- IOTA reads and writes lane 0 alone, which is the step mapping where the other lanes are known. -/
theorem mapLane_complete_of_known {s : State} (h : LanesKnown s) (r : Nat) :
    ((stepAccepted .iota r s).mapLane 0 (· ^^^ roundConstant r)).complete = stageCompleted .iota r (iota · r) s := by
  have hk : (stepAccepted .iota r s).laneAny = Vector.replicate 25 false := h
  rw [stageCompleted_of_known h, State.mapLane, laneValue_of_known hk, laneIsAny_of_known hk, State.setLane,
    setIfInBounds_known hk, ← hk]
  rfl

theorem setLanes_complete_of_known {s : State} (h : LanesKnown s) (r : Nat) :
    ((stepAccepted .clear r s).setLanes zeroLanes).complete = stageCompleted .clear r (fun _ => zeroLanes) s := by
  rw [stageCompleted_of_known h, State.setLanes, ← h]
  rfl

/-- The one engine step of a STEP command. IOTA and CLEAR do not look at all 25 lanes, so they draw as `stageCompleted`
says where the lanes are known. -/
theorem engineStep_stage {s : State} {op : Op} {r : Nat} (hc : StepCommand op r)
    (hk : LanesKnown s ∨ op ≠ .iota ∧ op ≠ .clear) :
    engineStep (stepAccepted op r s) = .next (stageCompleted op r (stageMap op r) s) := by
  cases op with
  | theta | rho | pi | chi | round => exact congrArg _ (mapLanes_complete _ r _ s)
  | iota => exact congrArg _ (mapLane_complete_of_known (hk.resolve_right (·.1 rfl)) r)
  | clear => exact congrArg _ (setLanes_complete_of_known (hk.resolve_right (·.2 rfl)) r)
  | nop | permute | hash => simp [StepCommand] at hc

theorem StepCommand.argAfter {op : Op} {r : Nat} (h : StepCommand op r) (s : State) :
    StepCommand op (argAfter op r s) :=
  ⟨h.1, fun ho => by rcases ho with rfl | rfl <;> exact h.2 (by simp)⟩

theorem runsInOneStep_of_known {s : State} (hb : s.busy = false) (hk : LanesKnown s) {op : Op} {r : Nat}
    (hc : StepCommand op r) :
    RunsInOneStep (commandInstr op r) op (argAfter op r s) (stageMap op r s.lanes) s := by
  refine ⟨exec_stage_of_idle hb hc, ?_⟩
  rw [engineStep_stage (hc.argAfter s) (.inl hk), stageMap_argAfter, stageCompleted_of_known hk]

/-- Settles O16: each of the seven commands is an instance of `runsInOneStep_of_known`. -/
theorem stageCommandsRunInOneStep : Obligations.StageCommandsRunInOneStep := by
  intro s hb hk
  have hrun (op : Op) (r : Nat) (hc : StepCommand op r) := runsInOneStep_of_known hb hk hc
  exact ⟨hrun .clear 0 (by simp [StepCommand]), hrun .theta 0 (by simp [StepCommand]),
    hrun .rho 0 (by simp [StepCommand]), hrun .pi 0 (by simp [StepCommand]), hrun .chi 0 (by simp [StepCommand]),
    fun r hr => ⟨hrun .iota r (by simp [StepCommand, hr]), hrun .round r (by simp [StepCommand, hr])⟩⟩

/-! ### PERMUTE -/

theorem keccakRounds_eq_foldl (n : Nat) (A : Lanes) : keccakRounds n 0 A = (List.range n).foldl keccakRound A := by
  induction n with
  | zero => rfl
  | succ n ih => rw [keccakRounds_succ, ih, Nat.zero_add, List.range_succ, List.foldl_concat]

/-- A PERMUTE that has completed with the lanes A, RND being r and d the draws made (40_permutation.md R147). -/
def permuteCompleted (A : Lanes) (d r : Nat) (s : State) : State :=
  { s with
    lanes := A, laneAny := Vector.replicate 25 false, draws := d, rnd := r, phase := .idle, busy := false, done := true,
    raced := [] }

/-- The state of a PERMUTE once it has completed with the round RND and the n rounds after it. -/
def roundsCompleted (n : Nat) (s : State) : State :=
  permuteCompleted (keccakRounds (n + 1) s.rnd (seenLanes s)) (s.draws + lanesDrawn s) (s.rnd + n) s

theorem applyRound_lanes_eq (s : State) : s.applyRound.lanes = keccakRound (seenLanes s) s.rnd := by
  rw [applyRound_lanes, laneValues_eq_seenLanes]

theorem applyRound_draws_eq (s : State) : s.applyRound.draws = s.draws + lanesDrawn s := by
  rw [applyRound_draws, someLaneAny_toNat]

theorem mapLanes_complete_eq (f : Lanes → Lanes) (s : State) :
    (s.mapLanes f).complete = permuteCompleted (s.mapLanes f).lanes (s.mapLanes f).draws s.rnd s := rfl

theorem applyRound_complete (s : State) : s.applyRound.complete = roundsCompleted 0 s := by
  have h : s.applyRound.complete = permuteCompleted s.applyRound.lanes s.applyRound.draws s.rnd s :=
    mapLanes_complete_eq _ s
  rw [h, applyRound_lanes_eq, applyRound_draws_eq, roundsCompleted, keccakRounds, keccakRounds, Nat.add_zero]

/-- What a completed PERMUTE keeps, each of its steps keeps. -/
theorem permuteCompleted_mapLanes_nextRound (A : Lanes) (d r : Nat) (f : Lanes → Lanes) (s : State) :
    permuteCompleted A d r (s.mapLanes f).nextRound = permuteCompleted A d r s := rfl

/-- After one round every lane is known, so the rounds that follow draw no free value. -/
theorem roundsCompleted_nextRound (n : Nat) (s : State) :
    roundsCompleted n s.applyRound.nextRound = roundsCompleted (n + 1) s := by
  have hk : LanesKnown s.applyRound.nextRound := by rw [LanesKnown, nextRound_laneAny, applyRound_laneAny]
  rw [roundsCompleted, seenLanes_of_known hk, lanesDrawn_of_known hk, nextRound_lanes, nextRound_draws, nextRound_rnd,
    applyRound_rnd, applyRound_lanes_eq, applyRound_draws_eq, Nat.add_zero, Nat.add_right_comm s.rnd 1 n,
    State.applyRound, permuteCompleted_mapLanes_nextRound]
  rfl

/-- A PERMUTE in progress, with n rounds to come after the next one. -/
structure Permuting (n : Nat) (s : State) : Prop where
  busy  : s.busy = true
  phase : s.phase = .perm
  op    : s.op = .permute
  rnd   : s.rnd + n = 23

theorem Permuting.nextRound {n : Nat} {s : State} (h : Permuting (n + 1) s) : Permuting n s.applyRound.nextRound where
  busy := by simpa using h.busy
  phase := by simpa using h.phase
  op := by simpa using h.op
  rnd := by rw [nextRound_rnd, applyRound_rnd, Nat.add_assoc, Nat.add_comm 1 n]; exact h.rnd

theorem Permuting.withInputs {n : Nat} {s : State} (h : Permuting n s) (es : List Event) :
    Permuting n (s.withInputs es) :=
  ⟨h.busy, h.phase, h.op, h.rnd⟩

theorem Permuting.engineStep_eq {n : Nat} {s : State} (h : Permuting n s) :
    engineStep s = .next (if s.rnd = 23 then s.applyRound.complete else s.applyRound.nextRound) := by
  simp only [engineStep, h.busy, if_true, h.phase, permPhase, h.op]

theorem Permuting.engineStep_last {s : State} (h : Permuting 0 s) : engineStep s = .next (roundsCompleted 0 s) := by
  rw [h.engineStep_eq, if_pos (show s.rnd = 23 from h.rnd), applyRound_complete]

theorem Permuting.engineStep_next {n : Nat} {s : State} (h : Permuting (n + 1) s) :
    engineStep s = .next s.applyRound.nextRound := by
  rw [h.engineStep_eq, if_neg (by have := h.rnd; omega)]

theorem engineRun_succ {s t : State} (h : engineStep s = .next t) (n : Nat) : engineRun (n + 1) s = engineRun n t := by
  rw [engineRun, h]

theorem Permuting.engineRun_eq {n : Nat} {s : State} (h : Permuting n s) :
    engineRun (n + 1) s = .next (roundsCompleted n s) := by
  induction n generalizing s with
  | zero => rw [engineRun_succ h.engineStep_last, engineRun]
  | succ n ih => rw [engineRun_succ h.engineStep_next, ih h.nextRound, roundsCompleted_nextRound]

theorem permuting_permuteAccepted (s : State) : Permuting 23 (permuteAccepted s) := ⟨rfl, rfl, rfl, rfl⟩

theorem exec_permute_of_idle {s : State} (hb : s.busy = false) : exec .permute s = .next (permuteAccepted s) :=
  issue_of_idle hb startPermute

theorem permuted_eq_keccakRounds (A : Lanes) : permuted A = keccakRounds 24 0 A := (keccakRounds_eq_foldl 24 A).symm

/-- Settles O18: one engine step for each round, the first of which alone can see a free value. -/
theorem permuteComputesKeccakF : Obligations.PermuteComputesKeccakF := by
  refine fun s hb => ⟨exec_permute_of_idle hb, ?_⟩
  rw [(permuting_permuteAccepted s).engineRun_eq, permuted_eq_keccakRounds]
  rfl

/-! ### Runs of commands -/

theorem run_succ {s t : State} (h : step s = .next t) (n : Nat) : core.run (n + 1) s = core.run n t := by
  simp only [Host.Core.run, show core.step s = .next t from h]

theorem step_engine (es : List Event) (s : State) :
    step (s.withInputs (.engine :: es)) = engineStep (s.withInputs es) := rfl

theorem execWrCmd_of_ok {w : Word} {op : Op} {r : Nat} (h : decodeCommand w = .ok (op, r)) (s : State) :
    execWrCmd w s = exec (commandInstr op r) s := by
  rw [execWrCmd, h]
  cases op <;> rfl

theorem decodeAccess_cmd (w : Word) : decodeAccess ⟨.write, 64, 0x118, w⟩ = .ok (.wrCmd w) := by
  have hoff : (0x118 : BitVec 12).toNat = 8 * 35 := by decide
  rw [decodeAccess_aligned (by rw [hoff]) rfl, hoff]
  rfl

/-- A write of a command word to CMD is the command (42_host_interface.md R234). -/
theorem step_cmd {op : Op} {r : Nat} (h : op.ArgLegal r) (es : List Event) (s : State) :
    step (s.withInputs (cmd op r :: es)) = exec (commandInstr op r) (s.withInputs es) := by
  have hstep : step (s.withInputs (cmd op r :: es)) =
      runAccess ⟨.write, 64, 0x118, commandWord op r⟩ (s.withInputs es) := rfl
  rw [hstep, runAccess, decodeAccess_cmd]
  exact execWrCmd_of_ok (decodeCommand_commandWord h) (s.withInputs es)

/-- A STEP command and its engine step at the head of the events to come. -/
theorem run_stage {s : State} {op : Op} {r : Nat} (hb : s.busy = false) (hk : LanesKnown s ∨ op ≠ .iota ∧ op ≠ .clear)
    (hc : StepCommand op r) (ha : op.ArgLegal r) (es : List Event) (n : Nat) :
    core.run (n + 2) (s.withInputs (cmd op r :: .engine :: es)) =
      core.run n ((stageCompleted op (argAfter op r s) (stageMap op r) s).withInputs es) := by
  have haccept : step (s.withInputs (cmd op r :: .engine :: es)) =
      .next ((stepAccepted op (argAfter op r s) s).withInputs (.engine :: es)) :=
    (step_cmd ha _ s).trans (exec_stage_of_idle (s := s.withInputs (.engine :: es)) hb hc)
  have hdone : step ((stepAccepted op (argAfter op r s) s).withInputs (.engine :: es)) =
      .next ((stageCompleted op (argAfter op r s) (stageMap op r) s).withInputs es) := by
    rw [step_engine, ← stageMap_argAfter op r s]
    exact engineStep_stage (s := s.withInputs es) (hc.argAfter s) hk
  rw [run_succ haccept, run_succ hdone]

/-- The events of a list of commands, each with its engine step. -/
def stageEvents (cs : List (Op × Nat)) : List Event := cs.flatMap fun c => [cmd c.1 c.2, .engine]

/-- The machine is done, with the lanes A, all known. -/
def StagesDone (A : Lanes) (t : State) : Prop :=
  t.lanes = A ∧ LanesKnown t ∧ t.busy = false ∧ t.done = true

theorem stageCompleted_stagesDone (op : Op) (r : Nat) (f : Lanes → Lanes) (s : State) (es : List Event) :
    StagesDone (f (seenLanes s)) ((stageCompleted op r f s).withInputs es) := ⟨rfl, rfl, rfl, rfl⟩

/-- A list of STEP commands, each run to completion, leaves the lanes of their step mappings one after the other. -/
theorem run_stages {c : Op × Nat} {cs : List (Op × Nat)}
    (hc : ∀ d ∈ c :: cs, StepCommand d.1 d.2 ∧ d.1.ArgLegal d.2) {s : State} (hb : s.busy = false)
    (hk : LanesKnown s ∨ c.1 ≠ .iota ∧ c.1 ≠ .clear) {n : Nat} (hn : n = 2 * (c :: cs).length) :
    ∃ t, core.run n (s.withInputs (stageEvents (c :: cs))) = .next t ∧
      StagesDone ((c :: cs).foldl (fun A d => stageMap d.1 d.2 A) (seenLanes s)) t := by
  subst hn
  obtain ⟨hstep, harg⟩ := hc c (by simp)
  induction cs generalizing c s with
  | nil => exact ⟨_, run_stage hb hk hstep harg [] 0, stageCompleted_stagesDone ..⟩
  | cons d cs ih =>
    have hrest : ∀ e ∈ d :: cs, StepCommand e.1 e.2 ∧ e.1.ArgLegal e.2 := fun e he => hc e (List.mem_cons_of_mem c he)
    obtain ⟨hstep', harg'⟩ := hrest d (by simp)
    have hrun := run_stage hb hk hstep harg (stageEvents (d :: cs)) (2 * (d :: cs).length)
    obtain ⟨t, ht, hdone⟩ := ih hrest (s := stageCompleted c.1 (argAfter c.1 c.2 s) (stageMap c.1 c.2) s) rfl (.inl rfl)
      hstep' harg'
    have hseen : seenLanes (stageCompleted c.1 (argAfter c.1 c.2 s) (stageMap c.1 c.2) s) =
        stageMap c.1 c.2 (seenLanes s) := seenLanes_of_known rfl
    rw [hseen] at hdone
    rw [List.length_cons, Nat.mul_succ, List.foldl_cons]
    exact ⟨t, hrun.trans ht, hdone⟩

/-- Settles O24: the step mappings of the five commands one after the other are that of ROUND. -/
theorem fiveStagesEqualARound : Obligations.FiveStagesEqualARound := by
  intro s r hb hr
  obtain ⟨t, ht, htl, -, htb, htd⟩ := run_stages (c := (.theta, 0)) (cs := [(.rho, 0), (.pi, 0), (.chi, 0), (.iota, r)])
    (by simp [StepCommand, Op.argLegal_iff, hr]) hb (.inr (by simp)) rfl
  obtain ⟨u, hu, hul, -, hub, hud⟩ := run_stages (c := (.round, r)) (cs := [])
    (by simp [StepCommand, Op.argLegal_iff, hr]) hb (.inr (by simp)) rfl
  have hlanes : t.lanes = u.lanes := by
    rw [htl, hul]
    simp only [List.foldl_cons, List.foldl_nil, stageMap, keccakRound]
  exact ⟨t, u, ht, hu, hlanes, htd, hud, htb, hub⟩

theorem iota_iota (A : Lanes) (r : Nat) : iota (iota A r) r = A := by
  refine lanes_ext fun i _ => ?_
  rcases Nat.eq_zero_or_pos i with rfl | hi
  · rw [lane_iota_zero, lane_iota_zero, BitVec.xor_assoc, BitVec.xor_self, BitVec.xor_zero]
  · rw [lane_iota_of_pos _ r hi, lane_iota_of_pos _ r hi]

/-- Settles O26: the constant is XORed into lane 0 twice. -/
theorem iotaTwiceRestores : Obligations.IotaTwiceRestores := by
  intro s r hb hk hr
  obtain ⟨t, ht, htl, -⟩ := run_stages (c := (.iota, r)) (cs := [(.iota, r)])
    (by simp [StepCommand, Op.argLegal_iff, hr]) hb (.inl hk) rfl
  refine ⟨t, ht, ?_⟩
  rw [htl, List.foldl_cons, List.foldl_cons, List.foldl_nil, stageMap, stageMap, iota_iota, seenLanes_of_known hk]

/-- The engine steps of a PERMUTE, taken as events. -/
theorem Permuting.run_eq {n : Nat} {s : State} (h : Permuting n s) :
    core.run (n + 1) (s.withInputs (List.replicate (n + 1) .engine)) = .next ((roundsCompleted n s).withInputs []) := by
  have hturn : step (s.withInputs (List.replicate (n + 1) .engine)) =
      engineStep (s.withInputs (List.replicate n .engine)) := step_engine _ s
  induction n generalizing s with
  | zero => exact run_succ (hturn.trans (h.withInputs _).engineStep_last) 0
  | succ n ih =>
    have hstep : step (s.withInputs (List.replicate (n + 2) .engine)) =
        .next (s.applyRound.nextRound.withInputs (List.replicate (n + 1) .engine)) :=
      hturn.trans (h.withInputs _).engineStep_next
    rw [run_succ hstep, ih h.nextRound (step_engine _ _), roundsCompleted_nextRound]

theorem run_permute {s : State} (hb : s.busy = false) :
    core.run 25 (s.withInputs (cmd .permute 0 :: List.replicate 24 .engine)) =
      .next ((roundsCompleted 23 (permuteAccepted s)).withInputs []) := by
  have haccept : step (s.withInputs (cmd .permute 0 :: List.replicate 24 .engine)) =
      .next ((permuteAccepted s).withInputs (List.replicate 24 .engine)) :=
    (step_cmd (op := .permute) (r := 0) rfl _ s).trans (exec_permute_of_idle (s := s.withInputs _) hb)
  rw [run_succ haccept, (permuting_permuteAccepted s).run_eq]

/-- Settles O25: ROUND 0 to ROUND 23 are 24 step mappings, and PERMUTE the rounds of KeccakF. -/
theorem roundsInOrderEqualPermute : Obligations.RoundsInOrderEqualPermute := by
  intro s hb
  have hrounds : (List.range 24).map (Op.round, ·) = (.round, 0) :: (List.range' 1 23).map (Op.round, ·) := by decide
  have hlegal : ∀ d ∈ (List.range 24).map (Op.round, ·), StepCommand d.1 d.2 ∧ d.1.ArgLegal d.2 := by
    intro d hd
    obtain ⟨r, hr, rfl⟩ := List.mem_map.1 hd
    have hr : r ≤ 23 := Nat.le_of_lt_succ (List.mem_range.1 hr)
    simp [StepCommand, Op.argLegal_iff, hr]
  obtain ⟨t, ht, htl, -, -, htd⟩ := run_stages (hrounds ▸ hlegal) hb (.inr (by simp)) (n := 48) (by simp)
  rw [← hrounds, List.foldl_map] at htl
  rw [← hrounds, stageEvents, List.flatMap_map] at ht
  refine ⟨t, _, ht, run_permute hb, ?_, htd, rfl⟩
  calc t.lanes = permuted (seenLanes s) := htl
    _ = keccakRounds 24 0 (seenLanes s) := permuted_eq_keccakRounds _

end Sys2Proof.Machine
end

section
/-! PROOFS. The acceptance of HASH, the platform's answers in the terms of the statements, and the engine's steps of a HASH:
ABSORB, PERM and WRITE, and the two DMA faults (41_sponge.md R181 to R191). -/

namespace Sys2Proof.Machine

open Sys2Proof.Spec

/-! ### The acceptance of HASH -/

theorem rangeFails_iff (s : State) : rangeFails s = true ↔ RangeError s := by
  simp only [rangeFails, Bool.or_eq_true, Bool.and_eq_true, decide_eq_true_eq]
  rfl

theorem rangeFails_eq_false {s : State} (h : ¬RangeError s) : rangeFails s = false :=
  Bool.eq_false_iff.2 fun hr => h ((rangeFails_iff s).1 hr)

/-- Two ranges meet in the higher of their first addresses, if anywhere. -/
theorem rangesMeet_iff (a n b m : Nat) :
    rangesMeet a n b m = true ↔ ∃ x, (a ≤ x ∧ x < a + n) ∧ b ≤ x ∧ x < b + m := by
  simp only [rangesMeet, Bool.and_eq_true, decide_eq_true_eq]
  exact ⟨fun h => ⟨max a b, by omega⟩, fun ⟨x, h⟩ => by omega⟩

theorem hashMeetsWindow_iff (s : State) : hashMeetsWindow s = true ↔ MeetsWindow s := by
  rw [hashMeetsWindow, Bool.or_eq_true, rangesMeet_iff, rangesMeet_iff, ← exists_or]
  refine exists_congr fun x => ?_
  rw [← or_and_right, and_comm, and_assoc]
  rfl

theorem hashMeetsWindow_eq_false {s : State} (h : ¬MeetsWindow s) : hashMeetsWindow s = false :=
  Bool.eq_false_iff.2 fun hw => h ((hashMeetsWindow_iff s).1 hw)

theorem exec_hash_of_idle {s : State} (hb : s.busy = false) : exec .hash s = startHash s.clearDone :=
  issue_of_idle hb startHash

/-- Settles O19: neither check of the acceptance looks at DONE, which is cleared before them. -/
theorem hashIsAccepted : Obligations.HashIsAccepted := by
  intro s hb hr hw
  have hr' : rangeFails s.clearDone = false := rangeFails_eq_false (s := s.clearDone) hr
  have hw' : hashMeetsWindow s.clearDone = false := hashMeetsWindow_eq_false (s := s.clearDone) hw
  rw [exec_hash_of_idle hb, startHash, hr', hw']
  rfl

/-- Settles O20: the range check comes first, and RANGE is no DMA error. -/
theorem hashRangeErrorIsRejected : Obligations.HashRangeErrorIsRejected := by
  intro s hb hr
  have hr' : rangeFails s.clearDone = true := (rangeFails_iff s.clearDone).2 hr
  rw [exec_hash_of_idle hb, startHash, if_pos hr', reject_eq_rejected _ rfl]
  rfl

/-! ### The platform's answers -/

theorem blocks_iff (r : RespRule) (d : Dir) (first last : Nat) : r.blocks d first last = true ↔ Blocks r d first last := by
  have hmeet : rangesMeet r.base r.size first (last + 1 - first) = true ↔
      ∃ x, first ≤ x ∧ x ≤ last ∧ r.base ≤ x ∧ x < r.base + r.size :=
    (rangesMeet_iff ..).trans (exists_congr fun x => by omega)
  rw [RespRule.blocks, Blocks, Bool.and_eq_true, Bool.and_eq_true, hmeet, beq_iff_eq, and_assoc, and_comm (b := _ = true)]
  cases r.answer <;> simp

theorem blockedBy_of_answer {s : State} {d : Dir} {first last : Nat} {ans : Answer} (h : GetsAnswer s d first last ans) :
    (s.blockedBy d first last).map RespRule.answer = some ans := by
  obtain ⟨pre, r, post, hl, hans, hr, hpre⟩ := h
  have hfind : s.blockedBy d first last = some r :=
    List.find?_eq_some_iff_append.2 ⟨(blocks_iff ..).2 hr, pre, post, hl, fun q hq => by
      rw [Bool.not_eq_true', Bool.eq_false_iff, Ne, blocks_iff]
      exact hpre q hq⟩
  rw [hfind, Option.map_some, hans]

theorem blockedBy_of_data {s : State} {d : Dir} {first last : Nat} (h : GetsData s d first last) :
    s.blockedBy d first last = none :=
  List.find?_eq_none.2 fun q hq => (blocks_iff ..).not.2 (h q hq)

theorem deviceByte_eq_some_iff (r : RespRule) (a : Nat) (b : Byte) : r.deviceByte a = some b ↔ Gives r a b := by
  unfold RespRule.deviceByte Gives
  rw [Bool.and_assoc]
  split
  · rename_i h
    simp only [Bool.and_eq_true, beq_iff_eq, decide_eq_true_eq] at h
    cases r.answer <;> simp [h]
  · rename_i h
    simp only [Bool.and_eq_true, beq_iff_eq, decide_eq_true_eq] at h
    simp only [reduceCtorEq, false_iff]
    exact fun ⟨hd, _, ha⟩ => h ⟨hd, ha⟩

theorem deviceByte_eq_none_iff (r : RespRule) (a : Nat) : r.deviceByte a = none ↔ ∀ b, ¬Gives r a b := by
  simp only [Option.eq_none_iff_forall_ne_some, ne_eq, deviceByte_eq_some_iff]

/-- What the block reads is what the statements say it reads (20_memory.md R80, R84; log 12). -/
theorem dmaByte_of_readsAs {s : State} {a : Nat} {v : Option Byte} (h : ReadsAs s a v) : s.dmaByte a = v := by
  have hfree : a ∉ s.raced → s.raced.contains a = false := fun hn => by simpa using hn
  rcases h with ⟨hr, rfl⟩ | ⟨hr, pre, r, post, b, hl, hg, hpre, rfl⟩ | ⟨hr, hno, rfl⟩
  · exact dmaByte_of_raced hr
  · have hdev : s.deviceByte a = some b :=
      List.findSome?_eq_some_iff.2 ⟨pre, r, post, hl, (deviceByte_eq_some_iff ..).2 hg, fun q hq =>
        (deviceByte_eq_none_iff ..).2 (hpre q hq)⟩
    simp only [State.dmaByte, hfree hr, hdev, Bool.false_eq_true, if_false, List.contains_iff_mem]
  · have hdev : s.deviceByte a = none :=
      List.findSome?_eq_none_iff.2 fun q hq => (deviceByte_eq_none_iff ..).2 (hno q hq)
    simp only [State.dmaByte, hfree hr, hdev, Bool.false_eq_true, if_false]

/-! ### ABSORB -/

theorem engineStep_of_absorbing {s : State} (h : Absorbing s) :
    engineStep s = if s.k < s.len.toNat then absorbInput s else .next (s.absorbByte 0) := by
  obtain ⟨hb, hp, ho⟩ := h
  simp only [engineStep, hb, if_true, hp, absorbPhase, ho]

theorem engineStep_of_padding {s : State} (h : Absorbing s) (hk : ¬s.k < s.len.toNat) :
    engineStep s = .next (s.absorbByte 0) := by
  rw [engineStep_of_absorbing h, if_neg hk]

theorem engineStep_of_input {s : State} (h : Absorbing s) (hk : s.k < s.len.toNat)
    (ha : s.src.toNat + s.k < 2 ^ 64) (hd : ∀ first last, ReadCovers s first last → GetsData s .read first last) :
    engineStep s = .next s.absorbRead := by
  have hfit : ¬2 ^ 64 ≤ sourceAddr s s.k := Nat.not_le_of_lt ha
  rcases hc : s.transaction .read (sourceAddr s 0) (sourceAddr s s.len.toNat) (sourceAddr s s.k) with ⟨first, last⟩
  rw [engineStep_of_absorbing h, if_pos hk, absorbInput, if_neg hfit]
  dsimp only
  rw [hc, blockedBy_of_data (hd first last hc)]
  rfl

theorem absorbRead_of_readsAs_some {s : State} {m : Byte} (h : ReadsAs s (s.src.toNat + s.k) (some m)) :
    s.absorbRead = s.takeByte m := by
  rw [State.absorbRead, sourceAddr, dmaByte_of_readsAs h]

theorem absorbRead_of_readsAs_none {s : State} (h : ReadsAs s (s.src.toNat + s.k) none) :
    s.absorbRead = (s.drawIf true).takeByte (Config.freeByte s.draws) := by
  rw [State.absorbRead, sourceAddr, dmaByte_of_readsAs h]

theorem laneIsAny_toNat (s : State) (i : Nat) : (s.laneIsAny i).toNat = laneDrawn s i := by
  unfold laneDrawn
  split
  · rw [(laneIsAny_iff s i).2 ‹_›, Bool.toNat_true]
  · rw [Bool.eq_false_iff.2 (mt (laneIsAny_iff s i).1 ‹_›), Bool.toNat_false]

/-- What a lane operation does to lane i, seen with a free value where it holds any value. -/
theorem mapLane_eq (i : Nat) (f : Word → Word) (s : State) :
    s.mapLane i f = { s with
      lanes := putLane s.lanes i (f (seen s s.draws i)), laneAny := s.laneAny.setIfInBounds i false
      draws := s.draws + laneDrawn s i } := by
  rw [State.mapLane, laneValue_eq_seen, State.drawIf, laneIsAny_toNat]
  rfl

/-- The lane of padded-message byte K has the byte XORed into it, and K counts up (41_sponge.md R186). -/
theorem absorbByte_eq {s : State} (hp : s.phase = .absorb) (m : Byte) :
    s.absorbByte m = { s with
      lanes := putLane s.lanes (s.k % 136 / 8)
        (xorByte (s.k % 136) (padByte s.len.toNat s.nblk s.k m) (seen s s.draws (s.k % 136 / 8)))
      laneAny := s.laneAny.setIfInBounds (s.k % 136 / 8) false
      draws := s.draws + laneDrawn s (s.k % 136 / 8)
      k := s.k + 1
      phase := if s.k % 136 = 135 then .perm else .absorb
      rnd := if s.k % 136 = 135 then 0 else s.rnd } := by
  rw [State.absorbByte, mapLane_eq, State.nextByte, hp]
  rfl

/-- Settles O42: an input byte that is known, one that is any value and is drawn for, and a byte of padding are absorbed alike,
from the state with the draws made for the byte. -/
theorem absorbStepXorsOneByte : Obligations.AbsorbStepXorsOneByte := by
  intro s m n i h hi hm
  have hp : s.phase = .absorb := h.2.1
  have hstep : engineStep s = .next { State.absorbByte m { s with draws := s.draws + n } with
      taken := if s.k < s.len.toNat then s.taken ++ [m] else s.taken } := by
    split at hm
    · rename_i hk
      obtain ⟨ha, hd, hread⟩ := hm
      rw [engineStep_of_input h hk ha hd, if_pos hk]
      rcases hread with ⟨hr, rfl⟩ | ⟨hr, rfl, rfl⟩
      · rw [absorbRead_of_readsAs_some hr]
        rfl
      · rw [absorbRead_of_readsAs_none hr]
        rfl
    · rename_i hk
      obtain ⟨rfl, rfl⟩ := hm
      rw [engineStep_of_padding h hk, if_neg hk]
      rfl
  rw [absorbByte_eq (s := { s with draws := s.draws + n }) hp] at hstep
  subst hi
  have hi : s.k % 136 / 8 < 25 := by omega
  refine ⟨padByte s.len.toNat s.nblk s.k m, rfl, _, hstep, ?_, ?_, fun j hj => ⟨?_, ?_⟩, rfl⟩
  · rw [lane_putLane, if_pos ⟨rfl, hi⟩]
    rfl
  · simp [hi]
  · rw [lane_putLane, if_neg fun h => hj h.1.symm]
  · simp [Ne.symm hj]

/-! ### PERM -/

theorem engineStep_of_hashPerm {s : State} (hb : s.busy = true) (hp : s.phase = .perm) (ho : s.op = .hash) :
    engineStep s = .next (if s.rnd < 23 then s.applyRound.nextRound else s.applyRound.endBlock) := by
  simp only [engineStep, hb, if_true, hp, permPhase, ho]

theorem endBlock_of_last {s : State} (h : s.k = 136 * s.nblk) :
    s.endBlock = { s with blocks := s.blocks + 1, phase := .write, widx := 0 } := by
  have h : s.k = rateBytes * s.nblk := h
  rw [State.endBlock, if_pos h, if_pos h]

theorem endBlock_of_more {s : State} (h : s.k ≠ 136 * s.nblk) :
    s.endBlock = { s with blocks := s.blocks + 1, phase := .absorb } := by
  have h : ¬s.k = rateBytes * s.nblk := h
  rw [State.endBlock, if_neg h, if_neg h]

/-- Settles O43: one round over the lanes as they are seen, and then RND or the end of the block. -/
theorem hashPermStepRunsOneRound : Obligations.HashPermStepRunsOneRound := by
  intro s t hb hp ho _ ht
  have hround : s.applyRound = t := ht ▸ mapLanes_eq _ s
  have hstep := engineStep_of_hashPerm hb hp ho
  rw [hround] at hstep
  refine ⟨fun hr => ?_, fun hr hk => ?_, fun hr hk => ?_⟩
  · rw [hstep, if_pos hr, ht]
    rfl
  · rw [hstep, if_neg (Nat.not_lt_of_le hr.ge), endBlock_of_last (by rw [ht]; exact hk), ht]
  · rw [hstep, if_neg (Nat.not_lt_of_le hr.ge), endBlock_of_more (by rw [ht]; exact hk), ht]

/-! ### WRITE -/

theorem engineStep_of_writing {s : State} (h : Writing s) : engineStep s = writeDigest s := by
  obtain ⟨hb, hp, ho⟩ := h
  simp only [engineStep, hb, if_true, hp, writePhase, ho]

theorem engineStep_of_writing_data {s : State} (h : Writing s) (ha : s.dst.toNat + s.widx < 2 ^ 64)
    (hd : ∀ first last, WriteCovers s first last → GetsData s .write first last) :
    engineStep s = .next s.writeByte := by
  have hfit : ¬2 ^ 64 ≤ digestAddr s s.widx := Nat.not_le_of_lt ha
  rcases hc : s.transaction .write (digestAddr s 0) (digestAddr s digestBytes) (digestAddr s s.widx) with ⟨first, last⟩
  rw [engineStep_of_writing h, writeDigest, if_neg hfit]
  dsimp only
  rw [hc, blockedBy_of_data (hd first last hc)]
  rfl

/-- Byte k of a lane as a number (00_scope.md R16). -/
theorem byteOf_eq (v : Word) (k : Nat) : byteOf v k = BitVec.ofNat 8 (v.toNat / 2 ^ (8 * k)) := by
  rw [byteOf, BitVec.extractLsb', Nat.shiftRight_eq_div_pow]

theorem read_dmaStore (s : State) (a : Nat) (b : Byte) (x : Nat) :
    Memory.read (s.dmaStore a b).mem x =
      if x = a then if x ∈ s.raced then none else some b else Memory.read s.mem x := by
  split
  · subst x
    split
    · exact read_dmaStore_of_raced ‹_› b
    · rw [dmaStore_mem, if_neg (by simpa), read_write_same]
  · exact read_dmaStore_other s b ‹_›

theorem unreadBy_of_putDigest {s t : State} {a : Nat} (ht : t.digested = putDigest s.digested a) (g x : Nat) :
    UnreadBy t g x ↔ x = a ∨ UnreadBy s g x := by
  have h := unreadBy_putDigest s.digested a g x
  rwa [← ht, unreadBy_iff, unreadBy_iff] at h

/-- A WRITE step stores the byte, counts WIDX up, and completes the command after the 32nd byte (41_sponge.md R188;
42_host_interface.md R248). -/
theorem writeByte_eq_stored (s : State) : s.writeByte = { s with
    mem := (s.dmaStore (s.dst.toNat + s.widx) (byteOf (seen s s.draws (s.widx / 8)) (s.widx % 8))).mem
    digested := putDigest s.digested (s.dst.toNat + s.widx)
    draws := s.draws + laneDrawn s (s.widx / 8)
    widx := s.widx + 1
    raced := if s.widx = 31 then [] else s.raced
    busy := if s.widx = 31 then false else s.busy
    done := if s.widx = 31 then true else s.done
    phase := if s.widx = 31 then .idle else s.phase } := by
  have hlast : s.widx + 1 = digestBytes ↔ s.widx = 31 := Nat.succ_inj
  rw [State.writeByte, laneValue_eq_seen, State.drawIf, laneIsAny_toNat]
  by_cases hx : s.widx = 31
  · simp only [if_pos (hlast.2 hx), if_pos hx]
    rfl
  · simp only [if_neg (mt hlast.1 hx), if_neg hx]
    rfl

/-- Settles O44: memory and the record of digest bytes are those of the store, and the rest is the step's own. -/
theorem writeStepStoresOneByte : Obligations.WriteStepStoresOneByte := by
  intro s h ha _ hd
  have hstep := engineStep_of_writing_data h ha hd
  rw [writeByte_eq_stored, h.1, h.2.1] at hstep
  refine ⟨_, hstep, fun a => ?_, unreadBy_of_putDigest rfl, rfl⟩
  rw [← byteOf_eq]
  exact read_dmaStore s _ _ a

/-! ### The DMA faults -/

theorem recordError_of_dma {c : ErrCode} (h : c.isDma = true) (a : Word) (s : State) :
    s.recordError c a = { s with
      err := true, errcode := if s.err then s.errcode else c.code
      faultAddr := if s.err then s.faultAddr else a } := by
  cases he : s.err <;> simp [State.recordError, h, he]

theorem inDigest_iff (s : State) (a : Nat) : inDigest s a = true ↔ s.dst.toNat ≤ a ∧ a < s.dst.toNat + 32 := by
  rw [inDigest, Bool.and_eq_true, decide_eq_true_eq, decide_eq_true_eq]
  rfl

/-- Settles O45: the engine step is the abort of a READ_FAULT. -/
theorem readFaultAborts : Obligations.ReadFaultAborts := by
  intro s first last h hk ha hc hans
  have hfit : ¬2 ^ 64 ≤ sourceAddr s s.k := Nat.not_le_of_lt ha
  have hc : s.transaction .read (sourceAddr s 0) (sourceAddr s s.len.toNat) (sourceAddr s s.k) = (first, last) := hc
  have hstep : engineStep s = .next (s.readFault first) := by
    rw [engineStep_of_absorbing h, if_pos hk, absorbInput, if_neg hfit]
    dsimp only
    rw [hc, blockedBy_of_answer hans]
  refine ⟨_, hstep, ?_⟩
  rw [State.readFault, recordError_of_dma rfl]
  rfl

/-- Settles O46: the engine step is the abort of a WRITE_FAULT, which forgets the digest bytes from the transaction on. -/
theorem writeFaultAborts : Obligations.WriteFaultAborts := by
  intro s first last h _ ha hc hans
  have hfit : ¬2 ^ 64 ≤ digestAddr s s.widx := Nat.not_le_of_lt ha
  have hc : s.transaction .write (digestAddr s 0) (digestAddr s digestBytes) (digestAddr s s.widx) = (first, last) := hc
  have hstep : engineStep s = .next (s.writeFault first) := by
    rw [engineStep_of_writing h, writeDigest, if_neg hfit]
    dsimp only
    rw [hc, blockedBy_of_answer hans]
  refine ⟨_, hstep, fun a => ?_, fun g a => ?_, ?_⟩
  · have hrange : first ≤ a ∧ a < first + (digestAddr s digestBytes - first) ↔ first ≤ a ∧ a < s.dst.toNat + 32 := by
      simp only [digestAddr, digestBytes]
      omega
    rw [writeFault_mem, read_forget]
    simp only [hrange]
  · have hkept : (!inDigest s a) = true ↔ ¬(s.dst.toNat ≤ a ∧ a < s.dst.toNat + 32) := by
      rw [Bool.not_eq_true', Bool.eq_false_iff, Ne, inDigest_iff]
    have hstruck := unreadBy_filter s.digested (!inDigest s ·) g a
    rwa [unreadBy_iff, unreadBy_iff, hkept] at hstruck
  · rw [State.writeFault, recordError_of_dma rfl]
    rfl

end Sys2Proof.Machine
end

section
/-! PROOFS. The padded message and the sponge byte by byte: the padding of the machine against that of 41_sponge.md R185, and a
block XORed in byte by byte against the block of R189. -/

namespace Sys2Proof.Machine

open Sys2Proof.Spec

/-! ### The padding -/

theorem padByte_eq (l n k : Nat) (m : Byte) :
    padByte l n k m = m ||| (if k = l then 0x01 else 0x00) ||| (if k = 136 * n - 1 then 0x80 else 0x00) := rfl

/-- Inside the message the padded message is the message: neither padding bit is set there. -/
theorem padByte_of_message {l k : Nat} (hk : k < l) (m : Byte) : padByte l (l / 136 + 1) k m = m := by
  rw [padByte_eq, if_neg (Nat.ne_of_lt hk), if_neg (by omega)]
  exact (BitVec.or_zero).trans BitVec.or_zero

/-- The two cases of 41_sponge.md R185: one byte of padding with both bits, or two bytes with zeros between. -/
theorem padByte_of_padding {l q : Nat} (hq : l + q < 136 * (l / 136 + 1)) :
    padByte l (l / 136 + 1) (l + q) 0 = (padding l).getD q 0 := by
  rw [padByte_eq, padding]
  by_cases hl : l % 136 = 135
  · obtain rfl : q = 0 := by omega
    rw [if_pos hl, if_pos (Nat.add_zero l), if_pos (by omega)]
    rfl
  · rw [if_neg hl]
    rcases q with _ | q
    · rw [if_pos (Nat.add_zero l), if_neg (by omega)]
      rfl
    · rw [if_neg (by omega), List.getD_cons_succ]
      rcases Nat.lt_or_ge q (134 - l % 136) with hzero | hlast
      · rw [if_neg (by omega), List.getD_append _ _ _ _ (by simpa using hzero), List.getD_replicate _ hzero]
        rfl
      · obtain rfl : q = 134 - l % 136 := by omega
        rw [if_pos (by omega), List.getD_append_right _ _ _ _ (by simp), List.length_replicate, Nat.sub_self]
        rfl

/-- Byte k of the padded message, as the machine makes it (41_sponge.md R184, R185). -/
theorem padByte_eq_padded {M : List Byte} {k : Nat} (hk : k < 136 * (M.length / 136 + 1)) :
    padByte M.length (M.length / 136 + 1) k (M.getD k 0) = (padded M).getD k 0 := by
  rw [padded]
  rcases Nat.lt_or_ge k M.length with hlt | hge
  · rw [padByte_of_message hlt, List.getD_append _ _ _ _ hlt]
  · obtain ⟨q, rfl⟩ := Nat.exists_eq_add_of_le hge
    rw [List.getD_eq_default _ _ hge, padByte_of_padding hk, List.getD_append_right _ _ _ _ hge, Nat.add_sub_cancel_left]

/-! ### A lane of a block, byte by byte -/

/-- The number of the first n + 1 bytes of a string. -/
theorem leNat_take_succ (bs : List Byte) (n : Nat) :
    leNat (bs.take (n + 1)) = 2 ^ (8 * n) * (bs.getD n 0).toNat + leNat (bs.take n) := by
  induction bs generalizing n with
  | nil => simp [leNat]
  | cons b bs ih =>
    cases n with
    | zero => simp [leNat]
    | succ n =>
      rw [List.take_succ_cons, leNat, ih, List.take_succ_cons, leNat, List.getD_cons_succ, Nat.mul_succ, Nat.pow_add]
      ring

/-- The first n bytes of a lane of a block, little-endian (00_scope.md R16). -/
def lePart (P : List Byte) (o n : Nat) : Word := BitVec.ofNat 64 (leNat ((P.drop o).take n))

theorem lePart_zero (P : List Byte) (o : Nat) : lePart P o 0 = 0 := rfl

theorem lePart_eight (P : List Byte) (o : Nat) : lePart P o 8 = le64 P o := rfl

/-- One byte more is XORed in at its place, where the bytes before it leave zeros. -/
theorem lePart_succ (P : List Byte) (o : Nat) {n : Nat} (hn : n < 8) :
    lePart P o (n + 1) = lePart P o n ^^^ ((P.getD (o + n) 0).setWidth 64 <<< (8 * n)) := by
  have hlt : leNat ((P.drop o).take n) < 2 ^ (8 * n) :=
    calc leNat ((P.drop o).take n) < 256 ^ ((P.drop o).take n).length := leNat_lt _
      _ ≤ 256 ^ n := Nat.pow_le_pow_right (by decide) (List.length_take_le _ _)
      _ = 2 ^ (8 * n) := by rw [Nat.pow_mul]
  have hget : (P.drop o).getD n 0 = P.getD (o + n) 0 := by simp [List.getD_eq_getElem?_getD]
  refine BitVec.eq_of_getLsbD_eq fun i hi => ?_
  rw [lePart, lePart, leNat_take_succ, hget, BitVec.getLsbD_ofNat, Nat.testBit_two_pow_mul_add _ hlt, BitVec.getLsbD_xor,
    BitVec.getLsbD_ofNat, BitVec.getLsbD_shiftLeft, BitVec.getLsbD_setWidth]
  rcases Nat.lt_or_ge i (8 * n) with hlo | hhi
  · simp [hlo, hi]
  · rw [Nat.testBit_lt_two_pow (hlt.trans_le (Nat.pow_le_pow_right (by decide) hhi))]
    have hi' : i - 8 * n < 64 := by omega
    simp [hi, Nat.not_lt_of_le hhi, hi', BitVec.getLsbD]

/-! ### A block, byte by byte -/

/-- The lanes once the first j bytes of block b are XORed into A: lane i has got its first j - 8i bytes, 8 at most. -/
def absorbPart (P : List Byte) (b j : Nat) (A : Lanes) : Lanes :=
  lanesOf fun i => if i < 17 then lane A i ^^^ lePart P (136 * b + 8 * i) (min 8 (j - 8 * i)) else lane A i

theorem lane_absorbPart (P : List Byte) (b j : Nat) (A : Lanes) {i : Nat} (hi : i < 25) :
    lane (absorbPart P b j A) i =
      if i < 17 then lane A i ^^^ lePart P (136 * b + 8 * i) (min 8 (j - 8 * i)) else lane A i := by
  rw [absorbPart, lane_lanesOf, if_pos hi]

theorem absorbPart_zero (P : List Byte) (b : Nat) (A : Lanes) : absorbPart P b 0 A = A := by
  refine lanes_ext fun i hi => ?_
  rw [lane_absorbPart _ _ _ _ hi, Nat.zero_sub, Nat.min_zero, lePart_zero]
  split
  · exact BitVec.xor_zero
  · rfl

/-- All 136 bytes of a block are the block (41_sponge.md R189). -/
theorem absorbPart_all (P : List Byte) (b : Nat) (A : Lanes) : absorbPart P b 136 A = absorbBlock P b A := by
  refine lanes_ext fun i hi => ?_
  rw [lane_absorbPart _ _ _ _ hi, absorbBlock, lane_lanesOf, if_pos hi]
  split
  · rw [Nat.min_eq_left (by omega), lePart_eight]
  · rfl

/-- The machine absorbs byte j of block b: only its lane gets a byte more. -/
theorem absorbAt_absorbPart {P : List Byte} {l n b j : Nat} {m : Byte} (hj : j < 136)
    (hm : padByte l n (136 * b + j) m = P.getD (136 * b + j) 0) (A : Lanes) :
    absorbAt l n (136 * b + j) m (absorbPart P b j A) = absorbPart P b (j + 1) A := by
  refine lanes_ext fun i hi => ?_
  have hmod : (136 * b + j) % rateBytes = j := by
    rw [show rateBytes = 136 from rfl, Nat.mul_add_mod, Nat.mod_eq_of_lt hj]
  rw [lane_absorbAt, hmod, hm, lane_absorbPart _ _ _ _ (by omega), lane_absorbPart _ _ _ _ hi, lane_absorbPart _ _ _ _ hi]
  by_cases hji : j / 8 = i
  · have hbytes : min 8 (j - 8 * i) = j % 8 := by omega
    have hbytes' : min 8 (j + 1 - 8 * i) = j % 8 + 1 := by omega
    have hplace : 136 * b + 8 * i + j % 8 = 136 * b + j := by omega
    rw [if_pos ⟨hji, hi⟩, hji, if_pos (by omega), if_pos (by omega), hbytes, hbytes', lePart_succ _ _ (by omega), hplace,
      xorByte, BitVec.xor_assoc]
  · have hbytes : min 8 (j + 1 - 8 * i) = min 8 (j - 8 * i) := by omega
    rw [if_neg fun h => hji h.1, hbytes]

end Sys2Proof.Machine
end

section
/-! PROOFS. A whole HASH, from its acceptance to its completion: 160 engine steps for each block of the padded message, then 32
for the digest (41_sponge.md R184 to R189). -/

namespace Sys2Proof.Machine

open Sys2Proof.Spec

/-! ### Runs of the engine -/

theorem engineRun_add {s t : State} {m : Nat} (h : engineRun m s = .next t) (n : Nat) :
    engineRun (m + n) s = engineRun n t := by
  induction m generalizing s with
  | zero =>
    rw [Nat.zero_add, show s = t by simpa [engineRun] using h]
  | succ m ih =>
    cases hs : engineStep s with
    | next u =>
      rw [engineRun_succ hs] at h
      rw [Nat.add_right_comm, engineRun_succ hs, ih h]
    | fault f => simp [engineRun, hs] at h
    | refused r => simp [engineRun, hs] at h

theorem engineRun_concat {s t u : State} {n : Nat} (h : engineRun n s = .next t) (hu : engineStep t = .next u) :
    engineRun (n + 1) s = .next u := by
  rw [engineRun_add h, engineRun_succ hu, engineRun]

/-! ### One step on known lanes -/

theorem seen_of_known {s : State} (h : LanesKnown s) (n i : Nat) : seen s n i = lane s.lanes i := by
  have hi : ¬s.laneAny[i]? = some true := mt (laneIsAny_iff s i).2 (Bool.eq_false_iff.1 (laneIsAny_of_known h i))
  exact if_neg hi

theorem laneDrawn_of_known {s : State} (h : LanesKnown s) (i : Nat) : laneDrawn s i = 0 := by
  rw [← laneIsAny_toNat, laneIsAny_of_known h, Bool.toNat_false]

theorem absorbByte_of_known {s : State} (h : LanesKnown s) (hp : s.phase = .absorb) (m : Byte) :
    s.absorbByte m = { s with
      lanes := absorbAt s.len.toNat s.nblk s.k m s.lanes
      k := s.k + 1
      phase := if s.k % 136 = 135 then .perm else .absorb
      rnd := if s.k % 136 = 135 then 0 else s.rnd } := by
  rw [absorbByte_eq hp, seen_of_known h, laneDrawn_of_known h, setIfInBounds_known h, ← h]
  rfl

theorem applyRound_of_known {s : State} (h : LanesKnown s) :
    s.applyRound = { s with lanes := keccakRound s.lanes s.rnd } := by
  rw [State.applyRound, mapLanes_eq, seenLanes_of_known h, lanesDrawn_of_known h, ← h]
  rfl

/-! ### The states of a HASH -/

/-- Memory holds the message M at SRC, and the platform answers every access from it. -/
structure HoldsMessage (s : State) (M : List Byte) : Prop where
  plain  : s.platform.memResp = []
  length : M.length = s.len.toNat
  fits   : ¬RangeError s
  read   : ∀ k (h : k < M.length), Memory.read s.mem (s.src.toNat + k) = some M[k]

/-- A HASH of the message M accepted in `s`, with the lanes A, after k bytes and b blocks; RND is r (41_sponge.md R186, R187). -/
def hashAt (s : State) (M : List Byte) (phase : Phase) (A : Lanes) (k b r : Nat) : State :=
  { hashAccepted s with
    phase := phase, lanes := A, k := k, blocks := BitVec.ofNat 64 b, rnd := r, taken := M.take k }

theorem hashAccepted_eq_hashAt (s : State) (M : List Byte) :
    hashAccepted s = hashAt s M .absorb zeroLanes 0 0 s.rnd := rfl

theorem hashAt_known (s : State) (M : List Byte) (phase : Phase) (A : Lanes) (k b r : Nat) :
    LanesKnown (hashAt s M phase A k b r) := rfl

theorem getsData_of_plain {s : State} (h : s.platform.memResp = []) (d : Dir) (first last : Nat) :
    GetsData s d first last := by
  intro q hq
  rw [h] at hq
  cases hq

/-- An unraced byte that memory holds is read as it is, where no device answers. -/
theorem readsAs_of_plain {s : State} (hp : s.platform.memResp = []) (hr : s.raced = []) {a : Nat} {m : Byte}
    (hm : Memory.read s.mem a = some m) : ReadsAs s a (some m) := by
  refine .inr (.inr ⟨by simp [hr], fun q hq => ?_, hm.symm⟩)
  rw [hp] at hq
  cases hq

theorem HoldsMessage.source_fits {s : State} {M : List Byte} (h : HoldsMessage s M) {k : Nat} (hk : k < M.length) :
    s.src.toNat + k < 2 ^ 64 := by
  by_contra hover
  have hlen := h.length
  exact h.fits (.inl ⟨by omega, by omega⟩)

theorem HoldsMessage.digest_fits {s : State} {M : List Byte} (h : HoldsMessage s M) : s.dst.toNat + 32 ≤ 2 ^ 64 :=
  Nat.le_of_not_lt fun hlt => h.fits (.inr hlt)

/-! ### ABSORB -/

/-- Each ABSORB step takes the next byte of the message, or of the padding, into the lanes. -/
theorem engineStep_hashAt_absorb {s : State} {M : List Byte} (h : HoldsMessage s M) (A : Lanes) (k b r : Nat) :
    engineStep (hashAt s M .absorb A k b r) = .next (hashAt s M (if k % 136 = 135 then .perm else .absorb)
      (absorbAt M.length (M.length / 136 + 1) k (M.getD k 0) A) (k + 1) b (if k % 136 = 135 then 0 else r)) := by
  have habs : Absorbing (hashAt s M .absorb A k b r) := ⟨rfl, rfl, rfl⟩
  have hstep := absorbByte_of_known (hashAt_known s M .absorb A k b r) rfl
  rcases Nat.lt_or_ge k M.length with hk | hk
  · have hks : k < s.len.toNat := h.length ▸ hk
    have hread := absorbRead_of_readsAs_some
      (readsAs_of_plain (s := hashAt s M .absorb A k b r) h.plain rfl (h.read k hk))
    rw [engineStep_of_input habs hks (h.source_fits hk) fun _ _ _ => getsData_of_plain h.plain _ _ _, hread,
      State.takeByte, hstep, List.getD_eq_getElem _ _ hk, h.length, hashAt, hashAt,
      List.take_succ_eq_append_getElem hk]
    rfl
  · rw [engineStep_of_padding habs (Nat.not_lt_of_le (h.length ▸ hk)), hstep, List.getD_eq_default _ _ hk, h.length,
      hashAt, hashAt, List.take_of_length_le hk, List.take_of_length_le (Nat.le_succ_of_le hk)]
    rfl

theorem engineRun_hashAt_absorb {s : State} {M : List Byte} (h : HoldsMessage s M) (A : Lanes) {b : Nat}
    (hb : b ≤ M.length / 136) (r : Nat) {j : Nat} (hj : j ≤ 135) :
    engineRun j (hashAt s M .absorb A (136 * b) b r) =
      .next (hashAt s M .absorb (absorbPart (padded M) b j A) (136 * b + j) b r) := by
  induction j with
  | zero => rw [absorbPart_zero, engineRun, Nat.add_zero]
  | succ j ih =>
    have hmid : ¬(136 * b + j) % 136 = 135 := by omega
    have hstep := engineStep_hashAt_absorb h (absorbPart (padded M) b j A) (136 * b + j) b r
    rw [if_neg hmid, if_neg hmid, absorbAt_absorbPart (by omega) (padByte_eq_padded (by omega))] at hstep
    exact engineRun_concat (ih (by omega)) hstep

/-- A block is absorbed in 136 steps (41_sponge.md R186). -/
theorem engineRun_hashAt_absorbed {s : State} {M : List Byte} (h : HoldsMessage s M) (A : Lanes) {b : Nat}
    (hb : b ≤ M.length / 136) (r : Nat) :
    engineRun 136 (hashAt s M .absorb A (136 * b) b r) =
      .next (hashAt s M .perm (absorbBlock (padded M) b A) (136 * (b + 1)) b 0) := by
  have hlast : (136 * b + 135) % 136 = 135 := by omega
  have hstep := engineStep_hashAt_absorb h (absorbPart (padded M) b 135 A) (136 * b + 135) b r
  rw [if_pos hlast, if_pos hlast, absorbAt_absorbPart (by omega) (padByte_eq_padded (by omega)), absorbPart_all] at hstep
  exact engineRun_concat (engineRun_hashAt_absorb h A hb r (Nat.le_refl 135)) hstep

/-! ### PERM -/

theorem engineStep_hashAt_perm (s : State) (M : List Byte) (A : Lanes) (k b r : Nat) :
    engineStep (hashAt s M .perm A k b r) = .next (if r < 23 then hashAt s M .perm (keccakRound A r) k b (r + 1)
      else (hashAt s M .perm (keccakRound A r) k b r).endBlock) := by
  rw [engineStep_of_hashPerm rfl rfl rfl, applyRound_of_known (hashAt_known ..)]
  rfl

theorem engineRun_hashAt_perm (s : State) (M : List Byte) (A : Lanes) (k b : Nat) {n : Nat} (hn : n ≤ 23) :
    engineRun n (hashAt s M .perm A k b 0) = .next (hashAt s M .perm (keccakRounds n 0 A) k b n) := by
  induction n with
  | zero => rfl
  | succ n ih =>
    refine engineRun_concat (ih (by omega)) ?_
    rw [engineStep_hashAt_perm, if_pos (Nat.lt_of_succ_le hn), keccakRounds_succ, Nat.zero_add]

/-- A block is absorbed and permuted in 160 steps (41_sponge.md R186, R187). -/
theorem engineRun_hashAt_block {s : State} {M : List Byte} (h : HoldsMessage s M) (A : Lanes) {b : Nat}
    (hb : b ≤ M.length / 136) (r : Nat) :
    engineRun 160 (hashAt s M .absorb A (136 * b) b r) =
      .next (hashAt s M .perm (permuted (absorbBlock (padded M) b A)) (136 * (b + 1)) b 23).endBlock := by
  rw [engineRun_add (engineRun_hashAt_absorbed h A hb r) 24, permuted_eq_keccakRounds, keccakRounds_succ 23, Nat.zero_add]
  refine engineRun_concat (engineRun_hashAt_perm s M _ _ b (Nat.le_refl 23)) ?_
  rw [engineStep_hashAt_perm, if_neg (Nat.lt_irrefl 23)]

/-! ### The blocks of the message -/

/-- The end of a block that is not the last of the message. -/
theorem endBlock_hashAt_more {s : State} {M : List Byte} (h : HoldsMessage s M) (A : Lanes) {b : Nat}
    (hb : b < M.length / 136) :
    (hashAt s M .perm A (136 * (b + 1)) b 23).endBlock = hashAt s M .absorb A (136 * (b + 1)) (b + 1) 23 := by
  have hmore : (hashAt s M .perm A (136 * (b + 1)) b 23).k ≠ 136 * (hashAt s M .perm A (136 * (b + 1)) b 23).nblk := by
    show 136 * (b + 1) ≠ 136 * (s.len.toNat / 136 + 1)
    rw [← h.length]
    omega
  rw [endBlock_of_more hmore, hashAt, hashAt, BitVec.ofNat_add]
  rfl

/-- The state of a HASH that has absorbed the whole message and begins to write the digest of the lanes A. -/
def hashAbsorbed (s : State) (M : List Byte) (A : Lanes) : State :=
  { hashAt s M .write A (136 * (M.length / 136 + 1)) (M.length / 136 + 1) 23 with widx := 0 }

/-- The end of the last block of the message. -/
theorem endBlock_hashAt_last {s : State} {M : List Byte} (h : HoldsMessage s M) (A : Lanes) :
    (hashAt s M .perm A (136 * (M.length / 136 + 1)) (M.length / 136) 23).endBlock = hashAbsorbed s M A := by
  have hlast : (hashAt s M .perm A (136 * (M.length / 136 + 1)) (M.length / 136) 23).k =
      136 * (hashAt s M .perm A (136 * (M.length / 136 + 1)) (M.length / 136) 23).nblk := by
    show 136 * (M.length / 136 + 1) = 136 * (s.len.toNat / 136 + 1)
    rw [h.length]
  rw [endBlock_of_last hlast, hashAbsorbed, hashAt, hashAt, BitVec.ofNat_add]
  rfl

/-- After n blocks, but the last, HASH goes on to absorb from the state of the sponge (41_sponge.md R189). -/
theorem engineRun_blocks {s : State} {M : List Byte} (h : HoldsMessage s M) {n : Nat} (hn : n ≤ M.length / 136) :
    ∃ r, engineRun (160 * n) (hashAccepted s) = .next (hashAt s M .absorb (sponge (padded M) n) (136 * n) n r) := by
  induction n with
  | zero => exact ⟨s.rnd, congrArg _ (hashAccepted_eq_hashAt s M)⟩
  | succ n ih =>
    obtain ⟨r, ih⟩ := ih (Nat.le_of_succ_le hn)
    refine ⟨23, ?_⟩
    rw [Nat.mul_succ, engineRun_add ih, engineRun_hashAt_block h _ (Nat.le_of_succ_le hn), endBlock_hashAt_more h _ hn]
    rfl

theorem engineRun_message {s : State} {M : List Byte} (h : HoldsMessage s M) :
    engineRun (160 * (M.length / 136 + 1)) (hashAccepted s) = .next (hashAbsorbed s M (finalLanes M)) := by
  obtain ⟨r, hrun⟩ := engineRun_blocks h (Nat.le_refl (M.length / 136))
  rw [Nat.mul_succ, engineRun_add hrun, engineRun_hashAt_block h _ (Nat.le_refl _), endBlock_hashAt_last h]
  rfl

/-! ### WRITE -/

/-- A HASH that writes the digest of known lanes to memory that answers, with no race on record. -/
structure WritesDigest (s : State) : Prop where
  writing : Writing s
  known   : LanesKnown s
  unraced : s.raced = []
  plain   : s.platform.memResp = []
  fits    : s.dst.toNat + 32 ≤ 2 ^ 64

/-- Memory `m` reads as that of `s`, but for the first n digest bytes, which are those of the lanes (20_memory.md R75). -/
def HoldsDigest (s : State) (n : Nat) (m : Memory) : Prop :=
  ∀ a, Memory.read m a =
    if s.dst.toNat ≤ a ∧ a < s.dst.toNat + n then some (digestByte s.lanes (a - s.dst.toNat)) else Memory.read s.mem a

/-- The state `s` with WIDX = n, and with the memory and the record of digest bytes that n WRITE steps leave. -/
def digestAt (s : State) (n : Nat) (m : Memory) (d : List DigestByte) : State :=
  { s with widx := n, mem := m, digested := d }

theorem WritesDigest.digestAt {s : State} (h : WritesDigest s) (n : Nat) (m : Memory) (d : List DigestByte) :
    WritesDigest (digestAt s n m d) :=
  ⟨h.writing, h.known, h.unraced, h.plain, h.fits⟩

/-- One digest byte more, at DST + n. -/
theorem HoldsDigest.succ {s : State} {n : Nat} {m m' : Memory} (hm : HoldsDigest s n m)
    (hm' : ∀ a, Memory.read m' a = if a = s.dst.toNat + n then some (digestByte s.lanes n) else Memory.read m a) :
    HoldsDigest s (n + 1) m' := by
  intro a
  rw [hm']
  by_cases ha : a = s.dst.toNat + n
  · rw [if_pos ha, if_pos (by omega), ha, Nat.add_sub_cancel_left]
  · have hrange : s.dst.toNat ≤ a ∧ a < s.dst.toNat + (n + 1) ↔ s.dst.toNat ≤ a ∧ a < s.dst.toNat + n := by omega
    rw [if_neg ha, hm a]
    simp only [hrange]

/-- A WRITE step that meets no race and no rule of the platform, of a byte of known lanes. -/
theorem engineStep_writesDigest {s : State} (h : WritesDigest s) (hx : s.widx ≤ 31) : ∃ m d,
    (∀ a, Memory.read m a =
      if a = s.dst.toNat + s.widx then some (digestByte s.lanes s.widx) else Memory.read s.mem a) ∧
    engineStep s =
      .next (if s.widx = 31 then (digestAt s 32 m d).complete else digestAt s (s.widx + 1) m d) := by
  have hfits : s.dst.toNat + s.widx < 2 ^ 64 := by
    have := h.fits
    omega
  have hunraced (a : Nat) : a ∉ s.raced := by simp [h.unraced]
  have hstep := engineStep_of_writing_data h.writing hfits fun _ _ _ => getsData_of_plain h.plain _ _ _
  rw [writeByte_eq_stored, seen_of_known h.known, laneDrawn_of_known h.known, ← digestByte] at hstep
  refine ⟨(s.dmaStore (s.dst.toNat + s.widx) (digestByte s.lanes s.widx)).mem,
    putDigest s.digested (s.dst.toNat + s.widx), fun a => ?_, hstep.trans (congrArg _ ?_)⟩
  · rw [read_dmaStore, if_neg (hunraced a)]
  · by_cases hlast : s.widx = 31
    · simp only [hlast]
      rfl
    · simp only [if_neg hlast]
      rfl

theorem engineRun_digestAt {s : State} (h : WritesDigest s) (hx : s.widx = 0) {n : Nat} (hn : n ≤ 31) :
    ∃ m d, HoldsDigest s n m ∧ engineRun n s = .next (digestAt s n m d) := by
  induction n with
  | zero => exact ⟨s.mem, s.digested, fun a => by rw [if_neg (by omega)], by rw [engineRun, digestAt, ← hx]⟩
  | succ n ih =>
    obtain ⟨m, d, hm, hrun⟩ := ih (by omega)
    obtain ⟨m', d', hm', hstep⟩ := engineStep_writesDigest (h.digestAt n m d) (Nat.le_of_succ_le hn)
    have hmore : ¬(digestAt s n m d).widx = 31 := Nat.ne_of_lt hn
    rw [if_neg hmore] at hstep
    exact ⟨m', d', hm.succ hm', engineRun_concat hrun hstep⟩

/-- The digest is written and the command completed in 32 steps (41_sponge.md R188; 42_host_interface.md R248). -/
theorem engineRun_digest {s : State} (h : WritesDigest s) (hx : s.widx = 0) :
    ∃ m d, HoldsDigest s 32 m ∧ engineRun 32 s = .next (digestAt s 32 m d).complete := by
  obtain ⟨m, d, hm, hrun⟩ := engineRun_digestAt h hx (Nat.le_refl 31)
  obtain ⟨m', d', hm', hstep⟩ := engineStep_writesDigest (h.digestAt 31 m d) (Nat.le_refl 31)
  have hlast : (digestAt s 31 m d).widx = 31 := rfl
  rw [if_pos hlast] at hstep
  exact ⟨m', d', hm.succ hm', engineRun_concat hrun hstep⟩

/-! ### The statement -/

theorem writesDigest_hashAbsorbed {s : State} {M : List Byte} (h : HoldsMessage s M) (A : Lanes) :
    WritesDigest (hashAbsorbed s M A) where
  writing := ⟨rfl, rfl, rfl⟩
  known := rfl
  unraced := rfl
  plain := h.plain
  fits := h.digest_fits

theorem blocks_hashAbsorbed {s : State} {M : List Byte} (h : HoldsMessage s M) (A : Lanes) :
    (hashAbsorbed s M A).blocks.toNat = M.length / 136 + 1 := by
  have hlen : M.length < 2 ^ 64 := h.length ▸ s.len.isLt
  exact Nat.mod_eq_of_lt (by omega)

/-- Settles O60: the blocks are absorbed as the sponge has them, and the digest is that of the lanes they leave. What a lane
holds is of no concern once the digest is that of the lanes, so the lanes are any `A` from there on. -/
theorem hashComputesKeccak256 : Obligations.HashComputesKeccak256 := by
  intro s M hb hr hw hresp hlen hread
  have h : HoldsMessage s M := ⟨hresp, hlen, hr, hread⟩
  have habsorbed := engineRun_message h
  simp only [digest, ← digestByte_eq]
  generalize finalLanes M = A at habsorbed ⊢
  obtain ⟨m, d, hm, hrun⟩ := engineRun_digest (writesDigest_hashAbsorbed h A) rfl
  exact ⟨_, hashIsAccepted s hb hr hw, (engineRun_add habsorbed 32).trans hrun, hm, rfl, rfl, blocks_hashAbsorbed h A,
    rfl, rfl, rfl, rfl, rfl, rfl, rfl, rfl, rfl, rfl, rfl⟩

end Sys2Proof.Machine
end

section
/-! PROOFS. The register accesses of the host, one by one: what each answers and what it writes (42_host_interface.md R236 to
R247). -/

namespace Sys2Proof.Machine

open Sys2Proof.Spec

/-! ### The shapes of an access -/

theorem readDone_eq (v : Word) (s : State) : readDone v s = .next { s with response := .readData v } := rfl

theorem writeIgnored_eq (s : State) : writeIgnored s = .next { s with response := .writeDone } := rfl

theorem readAny_eq (i : Nat) (s : State) :
    readAny i s = .next { s with response := .readData (Config.freeWord s.draws i), draws := s.draws + 1 } := rfl

theorem writeWhileIdle_of_idle {s : State} (hb : s.busy = false) (set : State → State) :
    writeWhileIdle set s = .next ((set s).respond .writeDone) :=
  if_neg (Bool.eq_false_iff.1 hb)

theorem writeWhileIdle_of_busy {s : State} (hb : s.busy = true) (set : State → State) :
    writeWhileIdle set s = .next (rejected 0x02 s) :=
  (if_pos hb).trans (congrArg _ (reject_eq_rejected s (c := .busy) rfl))

/-! ### The lanes -/

theorem laneIsAny_eq_false {s : State} {i : Nat} (h : s.laneAny[i]? = some false) : s.laneIsAny i = false := by
  rw [State.laneIsAny, h, Option.getD_some]

theorem exec_rdLane_of_known {s : State} {i : Nat} (hb : s.busy = false) (hi : s.laneAny[i]? = some false) :
    exec (.rdLane i) s = .next { s with response := .readData (lane s.lanes i) } := by
  have hknown : ¬(s.busy || s.laneIsAny i) = true := by simp [hb, laneIsAny_eq_false hi]
  exact (if_neg hknown).trans (readDone_eq _ s)

/-- Settles O28: a read looks at BUSY and at the mark of its lane. -/
theorem laneReads : Obligations.LaneReads := by
  refine fun s i _ => ⟨exec_rdLane_of_known, fun h => ?_⟩
  have hany : (s.busy || s.laneIsAny i) = true := by rwa [Bool.or_eq_true, laneIsAny_iff]
  exact (if_pos hany).trans (readAny_eq i s)

/-- Settles O27: the lane is written and its mark cleared, which is what the read after it looks at. -/
theorem laneWrites : Obligations.LaneWrites := by
  refine fun s i v hi => ⟨fun hb => ?_, fun hb => writeWhileIdle_of_busy hb _⟩
  have hlane : lane (putLane s.lanes i v) i = v := by rw [lane_putLane, if_pos ⟨rfl, Nat.lt_succ_of_le hi⟩]
  have hmark : (s.laneAny.setIfInBounds i false)[i]? = some false := by simp [Nat.lt_succ_of_le hi]
  refine ⟨_, writeWhileIdle_of_idle hb _, hlane, fun j hj => ⟨?_, ?_⟩, rfl, ?_⟩
  · exact (lane_putLane ..).trans (if_neg fun h => hj h.1.symm)
  · simp [Ne.symm hj]
  · rw [exec_rdLane_of_known (s := (s.setLane i v).respond .writeDone) hb hmark, respond_lanes, setLane_lanes, hlane]

/-! ### ID, CTRL and STATUS -/

/-- Settles O29: the fields of ID make up the constant. -/
theorem idIsConstant : Obligations.IdIsConstant :=
  fun s _ => ⟨readDone_eq idWord s, writeIgnored_eq s⟩

theorem toNat_append_eq_add {m n : Nat} (x : BitVec m) (y : BitVec n) : (x ++ y).toNat = 2 ^ n * x.toNat + y.toNat := by
  rw [BitVec.toNat_append, ← Nat.shiftLeft_add_eq_or_of_lt y.isLt, Nat.shiftLeft_eq, Nat.mul_comm]

theorem ctrlWord_toNat (s : State) : s.ctrlWord.toNat = 2 * s.ieErr.toNat + s.ieDone.toNat := by
  simp only [State.ctrlWord, toNat_append_eq_add, BitVec.toNat_ofBool, BitVec.toNat_ofNat]
  omega

theorem statusWord_toNat (s : State) :
    s.statusWord.toNat =
      256 * s.errcode.toNat + 8 * s.irq.toNat + 4 * s.err.toNat + 2 * s.done.toNat + s.busy.toNat := by
  simp only [State.statusWord, toNat_append_eq_add, BitVec.toNat_ofBool, BitVec.toNat_ofNat]
  omega

/-- Settles O30: IRQ is a function of the enables, and CTRL reads as the two bits. -/
theorem ctrlHoldsTheEnables : Obligations.CtrlHoldsTheEnables :=
  fun s _ => ⟨⟨_, rfl, rfl, rfl⟩, s.ctrlWord, readDone_eq _ s, ctrlWord_toNat s⟩

theorem seeStatus_digested_of_done {s : State} (h : s.done = true) :
    s.seeStatus.digested = seenBy s.digested s.agent := if_pos h

theorem seeStatus_digested_of_not_done {s : State} (h : s.done = false) : s.seeStatus.digested = s.digested :=
  if_neg (Bool.eq_false_iff.1 h)

theorem unreadBy_of_seeStatus {s : State} (h : s.done = true) (g a : Nat) :
    UnreadBy s.seeStatus g a ↔ UnreadBy s g a ∧ g ≠ s.agent := by
  have hseen := unreadBy_seenBy s.digested s.agent g a
  rwa [← seeStatus_digested_of_done h, unreadBy_iff, unreadBy_iff] at hseen

/-- Settles O31: the record of digest bytes is that of `seeStatus`, and the fields of the word are disjoint. -/
theorem statusReads : Obligations.StatusReads :=
  fun s => ⟨s.statusWord, _, readDone_eq s.statusWord s.seeStatus, rfl, seeStatus_digested_of_not_done,
    unreadBy_of_seeStatus, statusWord_toNat s⟩

/-- Settles O32: the two acknowledging bits, set or not. -/
theorem statusAcknowledges : Obligations.StatusAcknowledges := by
  intro s v
  have hclear (b c : Bool) : (b && !c) = if c = true then false else b := by cases b <;> cases c <;> rfl
  have hack : s.acknowledge v = { s with
      done := if v.getLsbD 1 = true then false else s.done, err := if v.getLsbD 2 = true then false else s.err
      errcode := if v.getLsbD 2 = true then 0 else s.errcode } := by
    rw [State.acknowledge, hclear, hclear]
  rw [exec, execWrStatus, hack]
  rfl

/-! ### CMD, the operands, BLOCKS, FAULT_ADDR and the reserved slots -/

/-- Settles O33: RD CMD is a read of 0. -/
theorem cmdReadsZero : Obligations.CmdReadsZero := readDone_eq 0

/-- Settles O34: each operand is written by `writeWhileIdle`. -/
theorem operandWrites : Obligations.OperandWrites := fun _ _ =>
  ⟨fun hb => ⟨writeWhileIdle_of_idle hb _, writeWhileIdle_of_idle hb _, writeWhileIdle_of_idle hb _⟩,
    fun hb => ⟨writeWhileIdle_of_busy hb _, writeWhileIdle_of_busy hb _, writeWhileIdle_of_busy hb _⟩⟩

/-- Settles O35: each operand is read by `readDone`. -/
theorem operandReads : Obligations.OperandReads :=
  fun s => ⟨readDone_eq s.src s, readDone_eq s.len s, readDone_eq s.dst s⟩

/-- Settles O36: RD BLOCKS looks at BUSY. -/
theorem blocksReads : Obligations.BlocksReads := fun s _ =>
  ⟨fun hb => (if_neg (Bool.eq_false_iff.1 hb)).trans (readDone_eq s.blocks s),
    fun hb => (if_pos hb).trans (readAny_eq 25 s), writeIgnored_eq s⟩

/-- Settles O37: FAULT_ADDR is read by `readDone`, and its write ignored. -/
theorem faultAddrReads : Obligations.FaultAddrReads :=
  fun s _ => ⟨readDone_eq s.faultAddr s, writeIgnored_eq s⟩

/-- Settles O38: no slot number is looked at. -/
theorem reservedOffsets : Obligations.ReservedOffsets :=
  fun s _ _ _ => ⟨readDone_eq 0 s, writeIgnored_eq s⟩

end Sys2Proof.Machine
end

section
/-! PROOFS. Commands as the host gives them: a step is the instruction its access decodes to, a CMD write is the command of its
word, and every command but NOP is an acceptance (42_host_interface.md R230, R234, R235, R250). -/

namespace Sys2Proof.Machine

open Sys2Proof.Spec

/-! ### The access of a step -/

theorem step_access {s : State} {a : Access} {es : List Event} {i : Instr} (hi : s.inputs = .access a :: es)
    (hd : decodeAccess a = .ok i) : step s = exec i (s.withInputs es) := by
  rw [step_input hi, runEvent, runAccess, hd]

/-- Settles O1: a CMD write decodes to `wrCmd`, which runs the command of its word. -/
theorem stepRunsTheDecodedInstruction : Obligations.StepRunsTheDecodedInstruction := by
  rintro s ⟨d, width, o, w⟩ es hi
  refine ⟨fun i hd => step_access hi hd, ?_⟩
  rintro op r rfl rfl rfl hc
  exact (step_access hi (decodeAccess_cmd w)).trans (execWrCmd_of_ok hc _)

theorem exec_wrCmd_commandWord {op : Op} {r : Nat} (h : op.ArgLegal r) (s : State) :
    exec (.wrCmd (commandWord op r)) s = exec (commandInstr op r) s :=
  execWrCmd_of_ok (decodeCommand_commandWord h) s

/-! ### NOP -/

theorem commandWord_nop : commandWord .nop 0 = 0 := rfl

/-- The only word of NOP is 0 (42_host_interface.md R235). -/
theorem eq_zero_of_isCommand_nop {w : Word} (h : IsCommand .nop w) : w = 0 := by
  obtain ⟨hw, hr⟩ := isCommand_and_arg_iff.1 ⟨h, rfl⟩
  rw [hw, (Op.argLegal_of_not_takesArg rfl _).1 hr, commandWord_nop]

/-- No other opcode than NOP's has the code 0 (30_encoding.md R102). -/
theorem eq_nop_of_code_eq_zero {op : Op} (h : op.code.toNat = 0x00) : op = .nop := by
  cases op with
  | nop => rfl
  | _ => exact absurd h (by decide)

/-- Settles O15: NOP is an ignored write, and a word with its opcode is a command word only if it is 0. -/
theorem nopDoesNothing : Obligations.NopDoesNothing := by
  refine ⟨writeIgnored_eq, exec_wrCmd_commandWord (op := .nop) (r := 0) rfl, fun w ho hw => ?_⟩
  refine decodeCommand_error_iff.2 fun ⟨op, hc⟩ => hw ?_
  obtain rfl : op = .nop := eq_nop_of_code_eq_zero ((isCommand_iff.1 hc).2.1.symm.trans ho)
  exact eq_zero_of_isCommand_nop hc

/-! ### The acceptance of a command -/

/-- The instruction is a command other than NOP, or a write of any word to CMD. -/
def GivesCommand (i : Instr) : Prop := (∃ r, i ∈ workCommands r) ∨ ∃ w, i = .wrCmd w

/-- The instruction is a HASH. -/
def GivesHash (i : Instr) : Prop := i = .hash ∨ i = .wrCmd 0x4

/-- What the acceptance of an instruction can be: that of an illegal word or of a command, and of HASH for a HASH alone. -/
inductive Acceptance (i : Instr) : (State → Result) → Prop where
  | illegal : Acceptance i startIllegal
  | step (op : Op) (r : Nat) : Acceptance i (startStep op r)
  | permute : Acceptance i startPermute
  | hash : GivesHash i → Acceptance i startHash

theorem acceptance_indexed (i : Instr) (op : Op) (r : Nat) :
    Acceptance i (if r ≤ 23 then startStep op r else startIllegal) := by
  split
  · exact .step op r
  · exact .illegal

theorem exec_workCommand {r : Nat} {i : Instr} (h : i ∈ workCommands r) :
    ∃ start, Acceptance i start ∧ ∀ s, exec i s = issue start s := by
  simp only [workCommands, List.mem_cons, List.not_mem_nil, or_false] at h
  rcases h with rfl | rfl | rfl | rfl | rfl | rfl | rfl | rfl | rfl
  · exact ⟨_, .step .clear 0, fun _ => rfl⟩
  · exact ⟨_, .permute, fun _ => rfl⟩
  · exact ⟨_, .hash (.inl rfl), fun _ => rfl⟩
  · exact ⟨_, .step .theta 0, fun _ => rfl⟩
  · exact ⟨_, .step .rho 0, fun _ => rfl⟩
  · exact ⟨_, .step .pi 0, fun _ => rfl⟩
  · exact ⟨_, .step .chi 0, fun _ => rfl⟩
  · exact ⟨_, acceptance_indexed _ .round r, fun _ => rfl⟩
  · exact ⟨_, acceptance_indexed _ .iota r, fun _ => rfl⟩

theorem commandInstr_mem_workCommands {op : Op} (h : op ≠ .nop) (r : Nat) : commandInstr op r ∈ workCommands r := by
  cases op with
  | nop => exact absurd rfl h
  | _ => simp [commandInstr, workCommands]

/-- A word that decodes to HASH is the word 0x4 (30_encoding.md R102). -/
theorem givesHash_of_decode {w : Word} {op : Op} {r : Nat} (hd : decodeCommand w = .ok (op, r))
    (h : GivesHash (commandInstr op r)) : GivesHash (.wrCmd w) := by
  have hop : op = .hash := by
    cases op with
    | hash => rfl
    | _ => simp [GivesHash, commandInstr] at h
  obtain ⟨hw, hr⟩ := isCommand_and_arg_iff.1 (decodeCommand_eq_ok_iff.1 hd)
  subst hop
  rw [hw, (Op.argLegal_of_not_takesArg rfl r).1 hr]
  exact .inr rfl

theorem Acceptance.of_command {w : Word} {op : Op} {r : Nat} (hd : decodeCommand w = .ok (op, r))
    {start : State → Result} (h : Acceptance (commandInstr op r) start) : Acceptance (.wrCmd w) start := by
  cases h with
  | illegal => exact .illegal
  | step op r => exact .step op r
  | permute => exact .permute
  | hash hh => exact .hash (givesHash_of_decode hd hh)

/-- A CMD write of a word other than 0 is the acceptance of its command, or that of an illegal word. -/
theorem exec_wrCmd_of_ne_zero {w : Word} (hw : w ≠ 0) :
    ∃ start, Acceptance (.wrCmd w) start ∧ ∀ s, exec (.wrCmd w) s = issue start s := by
  cases hd : decodeCommand w with
  | error e => exact ⟨startIllegal, .illegal, execWrCmd_of_error hd⟩
  | ok c =>
    obtain ⟨op, r⟩ := c
    have hop : op ≠ .nop := by
      rintro rfl
      exact hw (eq_zero_of_isCommand_nop (decodeCommand_eq_ok_iff.1 hd).1)
    obtain ⟨start, hstart, hexec⟩ := exec_workCommand (commandInstr_mem_workCommands hop r)
    exact ⟨start, hstart.of_command hd, fun s => (execWrCmd_of_ok hd s).trans (hexec s)⟩

theorem issue_of_busy {s : State} (hb : s.busy = true) (start : State → Result) :
    issue start s = .next (rejected 0x02 s) :=
  (if_pos hb).trans (congrArg _ (reject_eq_rejected s (c := .busy) rfl))

/-- Settles O22: each of them is an acceptance, which is rejected while busy. -/
theorem commandsAreRejectedWhileBusy : Obligations.CommandsAreRejectedWhileBusy := by
  refine fun s hb => ⟨fun r i hi => ?_, fun w hw => ?_⟩
  · obtain ⟨start, -, hexec⟩ := exec_workCommand hi
    exact (hexec s).trans (issue_of_busy hb start)
  · obtain ⟨start, -, hexec⟩ := exec_wrCmd_of_ne_zero hw
    exact (hexec s).trans (issue_of_busy hb start)

theorem exec_wrCmd_stage_of_idle {s : State} (hb : s.busy = false) {op : Op} {r : Nat} (hc : StepCommand op r)
    (ha : op.ArgLegal r) :
    exec (.wrCmd (commandWord op r)) s = .next (stepAccepted op (argAfter op r s) s) :=
  (exec_wrCmd_commandWord ha s).trans (exec_stage_of_idle hb hc)

/-- Settles O23: the write of a command's word is the command, whose acceptance is settled. -/
theorem cmdWriteAcceptsItsCommand : Obligations.CmdWriteAcceptsItsCommand := by
  intro s hb
  have hhash : exec (.wrCmd 0x4) s = exec .hash s := exec_wrCmd_commandWord (op := .hash) (r := 0) rfl s
  refine ⟨fun op ho => ?_, fun op r ho hr => ?_, ?_, fun hr => ?_, fun hr hw => ?_⟩
  · simp only [List.mem_cons, List.not_mem_nil, or_false] at ho
    rcases ho with rfl | rfl | rfl | rfl | rfl <;>
      exact exec_wrCmd_stage_of_idle hb (by simp [StepCommand]) rfl
  · simp only [List.mem_cons, List.not_mem_nil, or_false] at ho
    rcases ho with rfl | rfl <;> exact exec_wrCmd_stage_of_idle hb (by simp [StepCommand, hr]) hr
  · exact (exec_wrCmd_commandWord (op := .permute) (r := 0) rfl s).trans (exec_permute_of_idle hb)
  · exact hhash.trans (hashRangeErrorIsRejected s hb hr)
  · exact hhash.trans (hashIsAccepted s hb hr hw)

/-! ### The call sequence -/

theorem decodeAccess_slot {slot : Nat} (h : slot < 512) (d : Dir) (v : Word) :
    decodeAccess ⟨d, 64, BitVec.ofNat 12 (8 * slot), v⟩ = .ok (accessInstr d slot v) := by
  have hoff : (BitVec.ofNat 12 (8 * slot)).toNat = 8 * slot := by
    rw [BitVec.toNat_ofNat]
    omega
  rw [decodeAccess_aligned (by rw [hoff]; omega) rfl, hoff, Nat.mul_div_cancel_left slot (by decide)]

/-- The write of an operand at the head of the events to come, while idle. -/
theorem step_operandWrites {s : State} (hb : s.busy = false) (v : Word) (es : List Event) :
    step (s.withInputs (wr .src v :: es)) = .next ({ s with src := v, response := .writeDone }.withInputs es) ∧
    step (s.withInputs (wr .len v :: es)) = .next ({ s with len := v, response := .writeDone }.withInputs es) ∧
    step (s.withInputs (wr .dst v :: es)) = .next ({ s with dst := v, response := .writeDone }.withInputs es) := by
  obtain ⟨hsrc, hlen, hdst⟩ := (operandWrites (s.withInputs es) v).1 hb
  exact ⟨(step_access rfl (decodeAccess_slot (slot := 36) (by decide) .write v)).trans hsrc,
    (step_access rfl (decodeAccess_slot (slot := 37) (by decide) .write v)).trans hlen,
    (step_access rfl (decodeAccess_slot (slot := 38) (by decide) .write v)).trans hdst⟩

/-- Settles O59: the three operands are written, and the HASH word starts the HASH of them. -/
theorem callSequenceStartsTheHash : Obligations.CallSequenceStartsTheHash := by
  intro s a n d es hb hi hr hw
  have hcall : s = s.withInputs (keccakCall a n d ++ es) := by
    rw [← hi]
    rfl
  obtain ⟨hsrc, -, -⟩ := step_operandWrites hb a (wr .len n :: wr .dst d :: cmd .hash 0 :: es)
  obtain ⟨-, hlen, -⟩ := step_operandWrites (s := { s with src := a, response := .writeDone }) hb n
    (wr .dst d :: cmd .hash 0 :: es)
  obtain ⟨-, -, hdst⟩ := step_operandWrites (s := { s with src := a, len := n, response := .writeDone }) hb d
    (cmd .hash 0 :: es)
  have hhash := (step_cmd (op := .hash) (r := 0) rfl es { s with src := a, len := n, dst := d, response := .writeDone }).trans
    (hashIsAccepted _ hb hr hw)
  rw [hcall]
  exact (run_succ hsrc 3).trans ((run_succ hlen 2).trans ((run_succ hdst 1).trans (run_succ hhash 0)))

end Sys2Proof.Machine
end

section
/-! PROOFS. The frame of the instructions: what each can do, with the instruction named (`InstrCase`), and one lemma for each
group of fields (42_host_interface.md R234 to R247; 10_state.md R32, R43). -/

namespace Sys2Proof.Machine

open Sys2Proof.Spec

/-- The instruction is a write that is rejected while busy (42_host_interface.md R236, R243). -/
def WritesWhileIdle (i : Instr) : Prop :=
  (∃ n v, i = .wrLane n v) ∨ (∃ v, i = .wrSrc v) ∨ (∃ v, i = .wrLen v) ∨ ∃ v, i = .wrDst v

/-- The states the instruction `i` can lead to from `s`: `ExecCase`, with which instructions lead there. -/
inductive InstrCase (s : State) (i : Instr) : State → Prop where
  | answered (r : Response) (b : Bool) : InstrCase s i ((s.respond r).drawIf b)
  | statusRead (v : Word) : i = .rdStatus → InstrCase s i (s.seeStatus.respond (.readData v))
  | rejectedBusy : s.busy = true → GivesCommand i ∨ WritesWhileIdle i → InstrCase s i (rejected 0x02 s)
  | rejectedIdle (c : BitVec 8) : GivesCommand i → InstrCase s i (rejected c s.clearDone)
  | stepStarted (op : Op) (r : Nat) : GivesCommand i →
      InstrCase s i ((s.clearDone.loadStep op r).respond .writeDone)
  | permuteStarted : GivesCommand i → InstrCase s i (s.clearDone.loadPermute.respond .writeDone)
  | hashStarted : GivesCommand i → GivesHash i → InstrCase s i (s.clearDone.loadHash.respond .writeDone)
  | laneWritten (n : Nat) (v : Word) : i = .wrLane n v → InstrCase s i ((s.setLane n v).respond .writeDone)
  | srcWritten (v : Word) : i = .wrSrc v → InstrCase s i ((s.setSrc v).respond .writeDone)
  | lenWritten (v : Word) : i = .wrLen v → InstrCase s i ((s.setLen v).respond .writeDone)
  | dstWritten (v : Word) : i = .wrDst v → InstrCase s i ((s.setDst v).respond .writeDone)
  | ctrlWritten (v : Word) : i = .wrCtrl v → InstrCase s i ((s.setCtrl v).respond .writeDone)
  | acknowledged (v : Word) : i = .wrStatus v → InstrCase s i ((s.acknowledge v).respond .writeDone)

theorem not_givesCommand {i : Instr} (hwork : ∀ r, i ∉ workCommands r) (hcmd : ∀ w, i ≠ .wrCmd w) : ¬GivesCommand i
  | .inl ⟨r, h⟩ => hwork r h
  | .inr ⟨w, h⟩ => hcmd w h

theorem not_givesHash {i : Instr} (hhash : i ≠ .hash) (hcmd : i ≠ .wrCmd 0x4) : ¬GivesHash i
  | .inl h => hhash h
  | .inr h => hcmd h

/-! ### What an instruction can do -/

theorem readDone_instrCase {i : Instr} {v : Word} {s t : State} (h : readDone v s = .next t) : InstrCase s i t :=
  readDone_next h ▸ .answered (.readData v) false

theorem writeIgnored_instrCase {i : Instr} {s t : State} (h : writeIgnored s = .next t) : InstrCase s i t :=
  writeIgnored_next h ▸ .answered .writeDone false

theorem readAny_instrCase {i : Instr} {n : Nat} {s t : State} (h : readAny n s = .next t) : InstrCase s i t :=
  readAny_next h ▸ .answered _ true

/-- A write that is rejected while busy, `set` being what it does while idle. -/
theorem writeWhileIdle_instrCase {i : Instr} {set : State → State} {s t : State} (hi : WritesWhileIdle i)
    (hset : InstrCase s i ((set s).respond .writeDone)) (h : writeWhileIdle set s = .next t) : InstrCase s i t := by
  rcases writeWhileIdle_next h with ⟨hb, rfl⟩ | ⟨-, rfl⟩
  · exact reject_eq_rejected s (c := .busy) rfl ▸ .rejectedBusy hb (.inr hi)
  · exact hset

/-- The acceptance of a command, or its rejection. -/
theorem issue_instrCase {i : Instr} {start : State → Result} {s t : State} (hi : GivesCommand i)
    (hstart : Acceptance i start) (h : issue start s = .next t) : InstrCase s i t := by
  rcases issue_next h with ⟨hb, rfl⟩ | ⟨-, h⟩
  · exact reject_eq_rejected s (c := .busy) rfl ▸ .rejectedBusy hb (.inl hi)
  · cases hstart with
    | illegal =>
      cases h
      exact reject_eq_rejected s.clearDone (c := .illegalCmd) rfl ▸ .rejectedIdle _ hi
    | step op r =>
      cases h
      exact .stepStarted op r hi
    | permute =>
      cases h
      exact .permuteStarted hi
    | hash hh =>
      rcases startHash_next h with ⟨-, rfl⟩ | ⟨-, -, rfl⟩
      · exact reject_eq_rejected s.clearDone (c := .range) rfl ▸ .rejectedIdle _ hi
      · exact .hashStarted hi hh

theorem workCommand_instrCase {i : Instr} {r : Nat} {s t : State} (hi : i ∈ workCommands r) (h : exec i s = .next t) :
    InstrCase s i t := by
  obtain ⟨start, hstart, hexec⟩ := exec_workCommand hi
  exact issue_instrCase (.inl ⟨r, hi⟩) hstart (hexec s ▸ h)

theorem wrCmd_instrCase {w : Word} {s t : State} (h : exec (.wrCmd w) s = .next t) : InstrCase s (.wrCmd w) t := by
  by_cases hw : w = 0
  · subst hw
    exact writeIgnored_instrCase ((exec_wrCmd_commandWord (op := .nop) (r := 0) rfl s).symm.trans h)
  · obtain ⟨start, hstart, hexec⟩ := exec_wrCmd_of_ne_zero hw
    exact issue_instrCase (.inr ⟨w, rfl⟩) hstart (hexec s ▸ h)

/-- What an instruction that answers next has done, and which instruction it was. -/
theorem exec_instrCase {i : Instr} {s t : State} (h : exec i s = .next t) : InstrCase s i t := by
  cases i with
  | clear | permute | hash | theta | rho | pi | chi =>
    exact workCommand_instrCase (r := 0) (by simp [workCommands]) h
  | round r | iota r => exact workCommand_instrCase (r := r) (by simp [workCommands]) h
  | wrCmd w => exact wrCmd_instrCase h
  | wrLane n v => exact writeWhileIdle_instrCase (.inl ⟨n, v, rfl⟩) (.laneWritten n v rfl) h
  | wrSrc v => exact writeWhileIdle_instrCase (.inr (.inl ⟨v, rfl⟩)) (.srcWritten v rfl) h
  | wrLen v => exact writeWhileIdle_instrCase (.inr (.inr (.inl ⟨v, rfl⟩))) (.lenWritten v rfl) h
  | wrDst v => exact writeWhileIdle_instrCase (.inr (.inr (.inr ⟨v, rfl⟩))) (.dstWritten v rfl) h
  | wrCtrl v =>
    cases h
    exact .ctrlWritten v rfl
  | wrStatus v =>
    cases h
    exact .acknowledged v rfl
  | rdStatus => exact readDone_next h ▸ .statusRead _ rfl
  | rdLane n =>
    simp only [exec, execRdLane] at h
    split at h
    · exact readAny_instrCase h
    · exact readDone_instrCase h
  | rdBlocks =>
    simp only [exec, execRdBlocks] at h
    split at h
    · exact readAny_instrCase h
    · exact readDone_instrCase h
  | rdWrReserved d slot v =>
    cases d with
    | read => exact readDone_instrCase h
    | write => exact writeIgnored_instrCase h
  | nop | wrId | wrBlocks | wrFaultAddr => exact writeIgnored_instrCase h
  | rdId | rdCtrl | rdCmd | rdSrc | rdLen | rdDst | rdFaultAddr => exact readDone_instrCase h

/-! ### What it leaves unchanged -/

section
variable {s t : State} {i : Instr} (h : InstrCase s i t)
include h

theorem InstrCase.mem_eq : t.mem = s.mem := by cases h <;> rfl
theorem InstrCase.inputs_eq : t.inputs = s.inputs := by cases h <;> rfl
theorem InstrCase.platform_eq : t.platform = s.platform := by cases h <;> rfl
theorem InstrCase.faultAddr_eq : t.faultAddr = s.faultAddr := by cases h <;> rfl
theorem InstrCase.widx_eq : t.widx = s.widx := by cases h <;> rfl
theorem InstrCase.unseen_eq : t.unseen = s.unseen := by cases h <;> rfl
theorem InstrCase.agent_eq : t.agent = s.agent := by cases h <;> rfl

theorem InstrCase.src_eq (hi : ∀ v, i ≠ .wrSrc v) : t.src = s.src := by
  cases h with
  | srcWritten v h => exact absurd h (hi v)
  | _ => rfl

theorem InstrCase.len_eq (hi : ∀ v, i ≠ .wrLen v) : t.len = s.len := by
  cases h with
  | lenWritten v h => exact absurd h (hi v)
  | _ => rfl

theorem InstrCase.dst_eq (hi : ∀ v, i ≠ .wrDst v) : t.dst = s.dst := by
  cases h with
  | dstWritten v h => exact absurd h (hi v)
  | _ => rfl

theorem InstrCase.enables_eq (hi : ∀ v, i ≠ .wrCtrl v) : t.ieDone = s.ieDone ∧ t.ieErr = s.ieErr := by
  cases h with
  | ctrlWritten v h => exact absurd h (hi v)
  | _ => exact ⟨rfl, rfl⟩

theorem InstrCase.digested_eq (hi : i ≠ .rdStatus) : t.digested = s.digested := by
  cases h with
  | statusRead v h => exact absurd h hi
  | _ => rfl

theorem InstrCase.counts_eq (hi : ¬GivesHash i) :
    t.blocks = s.blocks ∧ t.nblk = s.nblk ∧ t.k = s.k ∧ t.taken = s.taken := by
  cases h with
  | hashStarted _ h => exact absurd h hi
  | _ => exact ⟨rfl, rfl, rfl, rfl⟩

theorem InstrCase.lanes_eq (hi : ¬GivesHash i) (hw : ∀ n v, i ≠ .wrLane n v) :
    t.lanes = s.lanes ∧ t.laneAny = s.laneAny := by
  cases h with
  | hashStarted _ h => exact absurd h hi
  | laneWritten n v h => exact absurd h (hw n v)
  | _ => exact ⟨rfl, rfl⟩

/-- The sequencer, BUSY and the races of the present HASH. -/
theorem InstrCase.sequencer_eq (hi : ¬GivesCommand i) :
    t.busy = s.busy ∧ t.phase = s.phase ∧ t.op = s.op ∧ t.arg = s.arg ∧ t.rnd = s.rnd ∧ t.raced = s.raced := by
  cases h with
  | rejectedIdle _ h | stepStarted _ _ h | permuteStarted h | hashStarted h _ => exact absurd h hi
  | _ => exact ⟨rfl, rfl, rfl, rfl, rfl, rfl⟩

theorem InstrCase.done_eq (hi : ¬GivesCommand i) (hw : ∀ v, i ≠ .wrStatus v) : t.done = s.done := by
  cases h with
  | rejectedIdle _ h | stepStarted _ _ h | permuteStarted h | hashStarted h _ => exact absurd h hi
  | acknowledged v h => exact absurd h (hw v)
  | _ => rfl

theorem InstrCase.error_eq (hi : ¬GivesCommand i) (hw : ∀ v, i ≠ .wrStatus v)
    (hb : s.busy = true → ¬WritesWhileIdle i) : t.err = s.err ∧ t.errcode = s.errcode := by
  cases h with
  | rejectedBusy hbusy h => exact (h.elim hi (hb hbusy)).elim
  | rejectedIdle _ h => exact absurd h hi
  | acknowledged v h => exact absurd h (hw v)
  | _ => exact ⟨rfl, rfl⟩

end

/-- Settles O40: each clause is the lemma above about its fields. -/
theorem instructionFrame : Obligations.InstructionFrame := by
  intro i s t hexec
  have h : InstrCase s i t := exec_instrCase hexec
  refine ⟨fun a => by rw [h.mem_eq], h.inputs_eq, h.platform_eq, h.faultAddr_eq, h.src_eq, h.len_eq, h.dst_eq,
    h.enables_eq, fun h1 h2 => h.counts_eq (not_givesHash h1 h2), fun h1 h2 => h.lanes_eq (not_givesHash h1 h2),
    fun h1 h2 => ?_, fun h1 h2 hw hb => ?_, h.widx_eq, h.unseen_eq, h.agent_eq, h.digested_eq⟩
  · have hi : ¬GivesCommand i := not_givesCommand h1 h2
    obtain ⟨hbusy, hphase, hop, harg, hrnd, hraced⟩ := h.sequencer_eq hi
    exact ⟨hbusy, hphase, hop, harg, hrnd, hraced, h.done_eq hi⟩
  · refine h.error_eq (not_givesCommand h1 h2) hw fun hbusy hi => ?_
    obtain ⟨hlane, hsrc, hlen, hdst⟩ := hb hbusy
    rcases hi with ⟨n, v, hi⟩ | ⟨v, hi⟩ | ⟨v, hi⟩ | ⟨v, hi⟩
    · exact hlane n v hi
    · exact hsrc v hi
    · exact hlen v hi
    · exact hdst v hi

end Sys2Proof.Machine
end

section
/-! PROOFS. The turns of the engine that leave the state as it is (42_host_interface.md R249; 70_reset_and_hazards.md R330). -/

namespace Sys2Proof.Machine

open Sys2Proof.Spec

theorem engineStep_of_idle {s : State} (hb : s.busy = false) : engineStep s = .next s :=
  if_neg (Bool.eq_false_iff.1 hb)

/-- Settles O41: the engine looks at BUSY first. -/
theorem idleEngineHasNoStep : Obligations.IdleEngineHasNoStep :=
  fun _ hb => ⟨engineStep_of_idle hb, fun hi => (step_no_input hi).trans (engineStep_of_idle hb)⟩

/-- Settles O47: the rule that answers the transaction is the one that keeps it waiting. -/
theorem unansweredAccessWaits : Obligations.UnansweredAccessWaits := by
  refine fun s first last => ⟨fun h hk ha hc hans => ?_, fun h _ ha hc hans => ?_⟩
  · have hfit : ¬2 ^ 64 ≤ sourceAddr s s.k := Nat.not_le_of_lt ha
    have hc : s.transaction .read (sourceAddr s 0) (sourceAddr s s.len.toNat) (sourceAddr s s.k) = (first, last) := hc
    rw [engineStep_of_absorbing h, if_pos hk, absorbInput, if_neg hfit]
    dsimp only
    rw [hc, blockedBy_of_answer hans]
  · have hfit : ¬2 ^ 64 ≤ digestAddr s s.widx := Nat.not_le_of_lt ha
    have hc : s.transaction .write (digestAddr s 0) (digestAddr s digestBytes) (digestAddr s s.widx) = (first, last) := hc
    rw [engineStep_of_writing h, writeDigest, if_neg hfit]
    dsimp only
    rw [hc, blockedBy_of_answer hans]

end Sys2Proof.Machine
end

section
/-! PROOFS. The first error stays on record while ERR does: what an instruction and the engine do to ERRCODE where ERR is
set, FAULT_ADDR being settled by O52 (60_exceptions.md R272). -/

namespace Sys2Proof.Machine

open Sys2Proof.Spec

theorem recordError_errcode_of_err {s : State} (he : s.err = true) (c : ErrCode) (a : Word) :
    (s.recordError c a).errcode = s.errcode := if_pos he

/-- An acknowledgement that leaves ERR set has not touched ERRCODE. -/
theorem acknowledge_errcode_of_err {s : State} {v : Word} (he : (s.acknowledge v).err = true) :
    (s.acknowledge v).errcode = s.errcode := by
  have hv : s.err = true ∧ v.getLsbD 2 = false := by simpa using he
  rw [acknowledge_errcode, hv.2, if_neg Bool.false_ne_true]

theorem ExecCase.errcode_eq {s t : State} (h : ExecCase s t) (hs : s.err = true) (ht : t.err = true) :
    t.errcode = s.errcode := by
  cases h with
  | rejectedBusy _ => exact recordError_errcode_of_err hs .busy 0
  | rejectedIdle c _ _ => exact recordError_errcode_of_err (s := s.clearDone) hs c 0
  | acknowledged v => exact acknowledge_errcode_of_err ht
  | _ => rfl

theorem EngineCase.errcode_eq {s t : State} (h : EngineCase s t) (hs : s.err = true) : t.errcode = s.errcode := by
  cases h with
  | readFailed first => exact recordError_errcode_of_err hs .readFault (BitVec.ofNat 64 first)
  | writeFailed first => exact recordError_errcode_of_err hs .writeFault (BitVec.ofNat 64 first)
  | finished hu _ => exact hu.errcode
  | waited => rfl
  | roundDone => rw [nextRound_errcode, applyRound_errcode]
  | blockEnded => rw [endBlock_errcode, applyRound_errcode]
  | byteRead drawn m => exact (takeByte_sameRegs m (s.drawIf drawn)).errcode
  | padded => exact (absorbByte_sameRegs 0 s).errcode
  | byteWritten b drawn => exact (putDigestByte_sameRegs b drawn s).errcode
  | lastByteWritten b drawn => exact (putDigestByte_sameRegs b drawn s).errcode

theorem step_err_of_resetNext {s t : State} (hr : ResetNext s) (h : step s = .next t) : t.err = false := by
  obtain ⟨es, hi⟩ := hr
  have ht : .next (resetBlock (s.withInputs es)) = step s := (step_input hi).symm
  cases ht.trans h
  exact resetBlock_err _

/-- Settles O51: no reset comes next, so FAULT_ADDR stays by O52, and ERRCODE stays in an instruction's work, in which only
an acknowledgement clears it, with ERR, and in the engine's. -/
theorem firstErrorStays : Obligations.FirstErrorStays := by
  intro s t hs h ht
  have hnr : ¬ResetNext s := fun hr => absurd ht (by simp [step_err_of_resetNext hr h])
  constructor
  · cases step_regsCase h with
    | instr hu he hv =>
      exact hv.errcode.trans ((he.errcode_eq (hu.err.trans hs) (hv.err.symm.trans ht)).trans hu.errcode)
    | engine hu he => exact (he.errcode_eq (hu.err.trans hs)).trans hu.errcode
    | reset hr => exact absurd hr hnr
    | kept hv => exact hv.errcode
  · by_contra hne
    rcases faultAddrChangesOnlyByADmaFault s t h hne with ⟨h0, _⟩ | hr
    · simp [hs] at h0
    · exact hnr hr

end Sys2Proof.Machine
end

section
/-! PROOFS. Reset: the invariant at the state after it, and what it does to memory (70_reset_and_hazards.md R310, R311). -/

namespace Sys2Proof.Machine

open Sys2Proof.Spec

theorem StatusOk.reset : StatusOk State.reset where
  idle_iff := by decide
  not_both := by decide
  no_error := by decide
  the_error := by decide

/-- Settles O56: the state after reset is idle, so only STATUS and memory are of concern, and memory lists no byte. -/
theorem invHoldsAtReset : Obligations.InvHoldsAtReset :=
  .of_idle .reset rfl ⟨reset_mem_wf, fun _ => rfl⟩

theorem hashBusy_and_write_iff (s : State) :
    (s.hashBusy && s.phase == .write) = true ↔ s.busy = true ∧ s.op = .hash ∧ s.phase = .write := by
  rw [Bool.and_eq_true, hashBusy_iff, beq_iff_eq, and_assoc]

/-- A reset forgets the destination bytes of a HASH in WRITE, and no other byte. -/
theorem read_resetBlock (s : State) (a : Nat) :
    Memory.read (resetBlock s).mem a =
      if s.busy = true ∧ s.op = .hash ∧ s.phase = .write ∧ s.dst.toNat ≤ a ∧ a < s.dst.toNat + 32
      then none else Memory.read s.mem a := by
  rw [resetBlock_mem]
  by_cases hw : s.busy = true ∧ s.op = .hash ∧ s.phase = .write
  · obtain ⟨hb, ho, hp⟩ := hw
    rw [if_pos ((hashBusy_and_write_iff s).2 ⟨hb, ho, hp⟩), read_forget]
    exact if_congr (by simp [hb, ho, hp, digestBytes]) rfl rfl
  · have hout : ¬(s.busy = true ∧ s.op = .hash ∧ s.phase = .write ∧ s.dst.toNat ≤ a ∧ a < s.dst.toNat + 32) :=
      fun ⟨hb, ho, hp, _⟩ => hw ⟨hb, ho, hp⟩
    rw [if_neg (mt (hashBusy_and_write_iff s).1 hw), if_neg hout]

/-- Reset leaves no lane marked as any value. -/
theorem reset_laneAny_getElem? {i : Nat} (hi : i ≤ 24) : State.reset.laneAny[i]? = some false :=
  Vector.getElem?_replicate.trans (if_pos (Nat.lt_succ_of_le hi))

/-- Settles O50: the registers are those of the state after reset, and memory is `read_resetBlock`. -/
theorem resetPutsEveryRegister : Obligations.ResetPutsEveryRegister := by
  intro s es hi
  refine ⟨resetBlock (s.withInputs es), step_input hi, rfl, rfl,
    fun i hle => ⟨lane_zeroLanes i, reset_laneAny_getElem? hle⟩,
    rfl, rfl, rfl, rfl, rfl, rfl, rfl, rfl, rfl, rfl, rfl, rfl, rfl, fun a => ?_⟩
  exact read_resetBlock (s.withInputs es) a

end Sys2Proof.Machine
end

section
/-! PROOFS. The STEP commands on lanes that hold any value (40_permutation.md R140 to R146; 93_implementation_defined.md
U5; log 4). -/

namespace Sys2Proof.Machine

open Sys2Proof.Spec

/-- A command that maps all 25 lanes runs on the lanes as they are seen. -/
theorem exec_engineStep_of_mapping {s : State} (hb : s.busy = false) {op : Op} {r : Nat} (hc : StepCommand op r)
    (hop : op ≠ .iota ∧ op ≠ .clear) :
    exec (commandInstr op r) s = .next (stepAccepted op (argAfter op r s) s) ∧
      engineStep (stepAccepted op (argAfter op r s) s) =
        .next (stageCompleted op (argAfter op r s) (stageMap op r) s) := by
  refine ⟨exec_stage_of_idle hb hc, ?_⟩
  rw [engineStep_stage (hc.argAfter s) (.inr hop), stageMap_argAfter]

/-- The engine step of IOTA r, which reads and writes lane 0 alone (40_permutation.md R145). -/
theorem engineStep_iota (r : Nat) (s : State) :
    engineStep (stepAccepted .iota r s) =
      .next { stepCompleted .iota r (putLane s.lanes 0 (seen s s.draws 0 ^^^ roundConstant r)) s with
        laneAny := s.laneAny.setIfInBounds 0 false, draws := s.draws + laneDrawn s 0 } :=
  congrArg (Host.Outcome.next ∘ State.complete) (mapLane_eq 0 (· ^^^ roundConstant r) (stepAccepted .iota r s))

/-- Settles O17: theta, rho, pi, chi and ROUND map the lanes as they are seen, CLEAR looks at no lane, and IOTA at lane 0. -/
theorem stageCommandsRunOnAnyLanes : Obligations.StageCommandsRunOnAnyLanes := by
  intro s hb
  have hmap (op : Op) (r : Nat) (hc : StepCommand op r) (hop : op ≠ .iota ∧ op ≠ .clear) :=
    exec_engineStep_of_mapping hb hc hop
  refine ⟨?clear, fun p hp => ?maps, fun r hr => ⟨?round, ?iota, _, engineStep_iota r s, ?lane, ?mark, fun i hi =>
    ⟨?otherLane, ?otherMark⟩, rfl⟩⟩
  case clear => exact ⟨exec_stage_of_idle hb (op := .clear) (r := 0) (by simp [StepCommand]), rfl⟩
  case maps =>
    simp only [List.mem_cons, List.not_mem_nil, or_false] at hp
    obtain rfl | rfl | rfl | rfl := hp
    · exact hmap .theta 0 (by simp [StepCommand]) (by decide)
    · exact hmap .rho 0 (by simp [StepCommand]) (by decide)
    · exact hmap .pi 0 (by simp [StepCommand]) (by decide)
    · exact hmap .chi 0 (by simp [StepCommand]) (by decide)
  case round => exact hmap .round r (by simp [StepCommand, hr]) (by decide)
  case iota => exact exec_stage_of_idle hb (op := .iota) (by simp [StepCommand, hr])
  case lane =>
    rw [← roundConstant_eq_rcOf hr]
    exact (lane_putLane ..).trans (if_pos (by decide))
  case mark => exact Vector.getElem?_setIfInBounds_self_of_lt (by decide)
  case otherLane => exact (lane_putLane ..).trans (if_neg (by omega))
  case otherMark => exact Vector.getElem?_setIfInBounds_ne (by omega)

end Sys2Proof.Machine
end

section
/-! PROOFS. A HASH over the block's own window (20_memory.md R80; 93_implementation_defined.md U9; log 10). -/

namespace Sys2Proof.Machine

open Sys2Proof.Spec

/-- Settles O21: the range check passes, and neither check of the acceptance looks at DONE, which is cleared before them. -/
theorem hashOverTheWindowIsRefused : Obligations.HashOverTheWindowIsRefused := by
  intro s hb hr hw
  have hr' : rangeFails s.clearDone = false := rangeFails_eq_false (s := s.clearDone) hr
  have hw' : hashMeetsWindow s.clearDone = true := (hashMeetsWindow_iff s.clearDone).2 hw
  rw [exec_hash_of_idle hb, startHash, hr', hw']
  rfl

end Sys2Proof.Machine
end

section
/-! PROOFS. The transaction that covers an address as the longest run of joined bytes (20_memory.md R76; log 7). The walk to
either end has as many steps as the list of joined addresses is long. Where it uses them all, it has met every address on
the list, so the next byte is not joined. -/

namespace Sys2Proof.Machine

/-- A list that holds n consecutive addresses has at least n elements. -/
theorem le_length_of_run {join : List Nat} {b n : Nat} (h : ∀ x, b ≤ x → x < b + n → x ∈ join) : n ≤ join.length := by
  have hsub : List.range' b n ⊆ join := fun x hx => h x (List.mem_range'_1.1 hx).1 (List.mem_range'_1.1 hx).2
  simpa using (List.subperm_of_subset List.nodup_range' hsub).length_le

/-! ### The first byte -/

theorem transFirst_succ (join : List Nat) (lo n a : Nat) :
    transFirst join lo (n + 1) a = if lo < a ∧ a ∈ join then transFirst join lo n (a - 1) else a := by
  simp [transFirst]

theorem mem_join_of_transFirst_lt {join : List Nat} {lo n a x : Nat} (hf : transFirst join lo n a < x) (hx : x ≤ a) :
    x ∈ join := by
  induction n generalizing a with
  | zero => exact absurd hx (Nat.not_le_of_lt hf)
  | succ n ih =>
    rw [transFirst_succ] at hf
    split at hf
    case isTrue hj =>
      rcases hx.eq_or_lt with rfl | hlt
      · exact hj.2
      · exact ih hf (Nat.le_sub_one_of_lt hlt)
    case isFalse => exact absurd hx (Nat.not_le_of_lt hf)

/-- The walk back ends at the range's start, at a byte that is not joined, or with its n steps used up. -/
theorem transFirst_stops (join : List Nat) {lo a : Nat} (n : Nat) (h : lo ≤ a) :
    transFirst join lo n a = lo ∨ transFirst join lo n a ∉ join ∨ transFirst join lo n a + n = a := by
  induction n generalizing a with
  | zero => exact .inr (.inr rfl)
  | succ n ih =>
    rw [transFirst_succ]
    split
    case isTrue hj => exact (ih (Nat.le_sub_one_of_lt hj.1)).imp_right (Or.imp_right fun hn => by omega)
    case isFalse hj =>
      by_cases hlo : lo < a
      · exact .inr (.inl fun hm => hj ⟨hlo, hm⟩)
      · exact .inl (by omega)

/-- The transaction cannot be made longer at its start. -/
theorem transFirst_maximal (join : List Nat) {lo a : Nat} (h : lo ≤ a) :
    transFirst join lo join.length a = lo ∨ transFirst join lo join.length a ∉ join := by
  refine (transFirst_stops join join.length h).imp_right fun hs hm => ?_
  have hend := hs.resolve_left (not_not_intro hm)
  have hrun : ∀ x, transFirst join lo join.length a ≤ x → x < transFirst join lo join.length a + (join.length + 1) →
      x ∈ join := fun x hf hx => by
    rcases hf.eq_or_lt with rfl | hlt
    · exact hm
    · exact mem_join_of_transFirst_lt hlt (by omega)
  exact Nat.not_succ_le_self _ (le_length_of_run hrun)

/-! ### The last byte -/

theorem transLast_succ (join : List Nat) (hi n a : Nat) :
    transLast join hi (n + 1) a = if a + 1 < hi ∧ a + 1 ∈ join then transLast join hi n (a + 1) else a := by
  simp [transLast]

theorem transLast_lt (join : List Nat) {hi a : Nat} (n : Nat) (h : a < hi) : transLast join hi n a < hi := by
  induction n generalizing a with
  | zero => exact h
  | succ n ih =>
    rw [transLast_succ]
    split
    case isTrue hj => exact ih hj.1
    case isFalse => exact h

theorem mem_join_of_le_transLast {join : List Nat} {hi n a x : Nat} (hx : a < x) (hl : x ≤ transLast join hi n a) :
    x ∈ join := by
  induction n generalizing a with
  | zero => exact absurd hl (Nat.not_le_of_lt hx)
  | succ n ih =>
    rw [transLast_succ] at hl
    split at hl
    case isTrue hj =>
      rcases (Nat.succ_le_of_lt hx).eq_or_lt with rfl | hlt
      · exact hj.2
      · exact ih hlt hl
    case isFalse => exact absurd hl (Nat.not_le_of_lt hx)

/-- The walk on ends before the range's end, before a byte that is not joined, or with its n steps used up. -/
theorem transLast_stops (join : List Nat) {hi a : Nat} (n : Nat) (h : a < hi) :
    transLast join hi n a + 1 = hi ∨ transLast join hi n a + 1 ∉ join ∨ transLast join hi n a = a + n := by
  induction n generalizing a with
  | zero => exact .inr (.inr rfl)
  | succ n ih =>
    rw [transLast_succ]
    split
    case isTrue hj => exact (ih hj.1).imp_right (Or.imp_right fun hn => by omega)
    case isFalse hj =>
      by_cases hhi : a + 1 < hi
      · exact .inr (.inl fun hm => hj ⟨hhi, hm⟩)
      · exact .inl (by omega)

/-- The transaction cannot be made longer at its end. -/
theorem transLast_maximal (join : List Nat) {hi a : Nat} (h : a < hi) :
    transLast join hi join.length a + 1 = hi ∨ transLast join hi join.length a + 1 ∉ join := by
  refine (transLast_stops join join.length h).imp_right fun hs hm => ?_
  have hend := hs.resolve_left (not_not_intro hm)
  have hrun : ∀ x, a + 1 ≤ x → x < a + 1 + (join.length + 1) → x ∈ join := fun x ha hx => by
    rcases (show x ≤ transLast join hi join.length a + 1 by omega).eq_or_lt with rfl | hlt
    · exact hm
    · exact mem_join_of_le_transLast ha (Nat.le_of_lt_succ hlt)
  exact Nat.not_succ_le_self _ (le_length_of_run hrun)

/-- Settles O48: every byte between the ends is joined on one side of the address or the other, and both ends are maximal. -/
theorem transactionIsTheJoinedRun : Obligations.TransactionIsTheJoinedRun := by
  intro s d lo hi a hlo hhi
  refine ⟨_, _, rfl, le_transFirst _ _ hlo, transFirst_le _ _ _ _, le_transLast _ _ _ _, transLast_lt _ _ hhi,
    fun x hf hl => ?_, transFirst_maximal _ hlo, transLast_maximal _ hhi⟩
  rcases Nat.lt_or_ge a x with hx | hx
  · exact mem_join_of_le_transLast hx hl
  · exact mem_join_of_transFirst_lt hf hx

end Sys2Proof.Machine
end
